-- ==== Sys2Proof/Word.lean ====
section
/-! DEFINITION. The three data shapes of the block: words, bytes and byte strings (20_memory.md R81, 00_scope.md R9). -/

namespace Sys2Proof

/-- A word of the command port or of a response: 32 bits (20_memory.md R81). -/
abbrev Word := BitVec 32

/-- The unit of storage: 8 bits (20_memory.md R81). -/
abbrev Byte := BitVec 8

/-- A byte string, first byte first (00_scope.md R9). -/
abbrev Bytes := List Byte

end Sys2Proof
end

