-- ==== Sys2Proof/Config.lean ====
section
/-! DEFINITION. The parameters of the model (00_scope.md R6). A parameter whose value the spec fixes has that value as
its default; an OPEN parameter has none. They are fixed for a model instance and no command changes them (10_state.md R22).
The state carries them (notes/assumptions/3.md), so a statement over all states is a statement over all parameters. -/

namespace Sys2Proof

/-- Which total function `F_ISLICE` is (00_scope.md R6, 41_unpacker.md R223): the default of R222, or some other one, named
by a number and left uninterpreted (notes/assumptions/4.md). -/
inductive ISliceClass where
  | standard
  | other (k : Nat)
  deriving DecidableEq, Repr

/-- The parameters of 00_scope.md R6. A capacity of `none` is unbounded. -/
structure Config where
  /-- `P_NPORTS` -/
  nports : Nat := 128
  /-- `P_TICK_MS`, OPEN -/
  tickMs : Nat
  /-- `P_RATE_STEP` -/
  rateStep : Nat := 8000
  /-- `P_MAX_NCH`, OPEN -/
  maxNch : Nat
  /-- `P_ACTIVITY_TIMEOUT_MS`, OPEN -/
  activityTimeoutMs : Nat
  /-- `P_FC_WINDOW_MS` -/
  fcWindowMs : Nat := 5000
  /-- `P_FC_THRESHOLD_TICKS` -/
  fcThresholdTicks : Nat := 4
  /-- `CLAMP_MIN` -/
  clampMin : Int := -32767
  /-- `CLAMP_MAX` -/
  clampMax : Int := 32767
  /-- `ACC_WIDTH` -/
  accWidth : Nat := 32
  /-- `P_MAX_PAYLOAD`, OPEN -/
  maxPayload : Nat
  /-- `P_MAX_NALU`, OPEN -/
  maxNalu : Nat
  /-- `P_UNP_OUTQ_CAP`, OPEN -/
  unpOutqCap : Option Nat
  /-- `P_MIX_INQ_CAP`, OPEN -/
  mixInqCap : Option Nat
  /-- `P_MIX_OUTQ_CAP`, OPEN -/
  mixOutqCap : Option Nat
  /-- `P_MIX_BUF_CAP`, OPEN -/
  mixBufCap : Option Nat
  /-- `P_FIRST_PS_NEW` -/
  firstPsNew : Bool := true
  /-- `F_ISLICE` -/
  islice : ISliceClass := .standard
  deriving DecidableEq, Repr

namespace Config

/-- Any classifier but the default: nothing is known of it beyond its being a function (notes/assumptions/4.md). -/
opaque otherISlice : Nat → Bytes → Bool

/-- What an accumulator of `width` bits is given for a number it cannot hold: a free value (notes/assumptions/13.md). No
accumulator of the spec's width meets such a number (42_mixer.md R269). -/
opaque accOverflow (width : Nat) (x : Int) : Int

/-- The limits 00_scope.md R6 puts on the parameters. The clamp bounds fit an `s16` (42_mixer.md R272). -/
abbrev WF (c : Config) : Prop :=
  (1 ≤ c.nports ∧ c.nports ≤ 256) ∧ 1 ≤ c.tickMs ∧ 1 ≤ c.rateStep ∧ 1 ≤ c.maxNch ∧ 1 ≤ c.fcThresholdTicks ∧
  c.maxPayload ≤ 65535 ∧ (-32768 ≤ c.clampMin ∧ c.clampMin ≤ c.clampMax ∧ c.clampMax ≤ 32767)

/-- The parameters `State.reset` takes: the spec's values, and for the OPEN parameters those of the test vectors
(95_test_vectors.md section 0). DESIGN CHOICE (notes/assumptions/3.md). -/
def standard : Config where
  tickMs := 20
  maxNch := 1
  activityTimeoutMs := 60
  maxPayload := 65535
  maxNalu := 65535
  unpOutqCap := none
  mixInqCap := none
  mixOutqCap := none
  mixBufCap := none

end Config

end Sys2Proof
end

