-- ==== Sys2Proof/Machine/State.lean ====
section
/-! DEFINITION. The state of the block as plain data (10_state.md) and its value after the block reset (10_state.md R58,
70_reset_and_hazards.md R330). The fields `cfg`, `cmd` and `resp` are the model's own: the parameters, and the two
directions of the command port (notes/assumptions/1.md to 3.md). -/

namespace Sys2Proof.Machine

/-- The faults that stop the machine: there is none. The spec's block never stops: an error is a response code, a corruption
a status bit, an overflow a sticky bit of `FAULT` (60_exceptions.md R300 to R309; notes/assumptions/9.md). Nobody raises one,
and that is as the spec says. -/
inductive Fault where
  deriving DecidableEq, Repr

/-- The refusals. -/
inductive Refusal where
  /-- an instruction without a meaning: raised only by an arm of `exec` that has none, and no arm is so. Safe. -/
  | notModelled (mnemonic : String)
  deriving DecidableEq, Repr

/-! ### Responses -/

/-- The response codes of 60_exceptions.md R300. -/
inductive RespCode where
  | ok | rejected | illegal | empty | state | full
  deriving DecidableEq, Repr

/-- A response: `CODE`, `VALUE` and the payload, whose length is `PLEN` (30_encoding.md R118). -/
structure Response where
  code : RespCode
  value : Word
  payload : Bytes
  deriving DecidableEq, Repr

/-! ### The reassembler (10_state.md section 3) -/

/-- Where a live parameter set came from (10_state.md R31). -/
inductive PsSource where
  | oob | inBand
  deriving DecidableEq, Repr

/-- The registers of one kind of parameter set: `k_LIVE`, `k_SRC`, `k_OOB_PENDING` and `k_LAST` (10_state.md R31 to R33). -/
structure ParamSet where
  live : Option Bytes
  source : PsSource
  oobPending : Bool
  last : Option Bytes
  deriving DecidableEq, Repr

/-- An entry of `UNP.OUTQ` (10_state.md R34). -/
structure OutEntry where
  nalu : Bytes
  fstatus : BitVec 8
  eof : Bool
  deriving DecidableEq, Repr

/-- The reassembler's state, `UNP.*`. -/
structure Unp where
  /-- `UNP.RQ` (R25) -/
  rq : List Bytes
  /-- `UNP.AGG_ACTIVE` (R26) -/
  aggActive : Bool
  /-- `UNP.AGG_BUF` (R26) -/
  aggBuf : Bytes
  /-- `UNP.ACC_STATUS` (R27) -/
  acc : BitVec 8
  /-- `UNP.LAST_TS` (R29) -/
  lastTs : Option (BitVec 32)
  /-- `UNP.REF_SEQ` (R30) -/
  refSeq : Option (BitVec 16)
  /-- `UNP.SPS_*` (R31, R33) -/
  sps : ParamSet
  /-- `UNP.PPS_*` (R32, R33) -/
  pps : ParamSet
  /-- `UNP.OUTQ` (R34) -/
  outq : List OutEntry
  deriving DecidableEq, Repr

/-! ### The summer (10_state.md section 4) -/

/-- Port `i`: channel `CH[i]`, input queue `MIX.INQ[i]` and output queue `MIX.OUTQ[i]` (42_mixer.md R242). -/
structure Port where
  /-- `CH[i].ACTIVE` (R46) -/
  active : Bool
  /-- `CH[i].OUTEN` (R47) -/
  outEn : Bool
  /-- `CH[i].BUF` (R49) -/
  buf : Bytes
  /-- `CH[i].LAST_SEEN` (R50) -/
  lastSeen : Option (BitVec 64)
  /-- `CH[i].MIN_FULL` (R51) -/
  minFull : Option Nat
  /-- `CH[i].LAST_FC` (R52) -/
  lastFc : Option (BitVec 64)
  /-- `MIX.INQ[i]` (R53) -/
  inq : List Bytes
  /-- `MIX.OUTQ[i]` (R54) -/
  outq : List Bytes
  deriving DecidableEq, Repr

/-- The summer's state, `MIX.*` and `CH[i].*`. -/
structure Mix where
  /-- `MIX.RATE` (R40) -/
  rate : BitVec 32
  /-- `MIX.NCH` (R41) -/
  nch : BitVec 16
  /-- `MIX.CONF` (R42) -/
  conf : Bool
  /-- `MIX.RUNNING` (R43) -/
  running : Bool
  /-- `MIX.LAST_NOW` (R44) -/
  lastNow : Option (BitVec 64)
  /-- `MIX.BYPASS` (R45) -/
  bypass : Option Nat
  /-- `MIX.RUN_RATE` (R48) -/
  runRate : BitVec 32
  /-- `MIX.RUN_NCH` (R48) -/
  runNch : BitVec 16
  /-- the ports 0 to `P_NPORTS - 1`, in order (R242) -/
  ports : List Port
  deriving DecidableEq, Repr

/-! ### The whole block -/

/-- The state of the block (10_state.md R23) and of its command port. -/
structure State where
  /-- the parameters (00_scope.md R6): the model's own field, written by no command -/
  cfg : Config
  /-- the words the host has written and the block has not consumed: the model's own field -/
  cmd : List Word
  /-- the responses given, oldest first: the model's own field -/
  resp : List Response
  /-- `FAULT` (R24) -/
  fault : BitVec 32
  /-- the reassembler (R25 to R35) -/
  unp : Unp
  /-- the summer (R40 to R56) -/
  mix : Mix
  deriving DecidableEq, Repr

/-! ### Reset values (10_state.md R58) -/

/-- A parameter set's registers after the block reset. -/
def ParamSet.reset : ParamSet := { live := none, source := .inBand, oobPending := false, last := none }

/-- The reassembler after the block reset. -/
def Unp.reset : Unp where
  rq := []
  aggActive := false
  aggBuf := []
  acc := 0
  lastTs := none
  refSeq := none
  sps := ParamSet.reset
  pps := ParamSet.reset
  outq := []

/-- A port after the block reset. -/
def Port.reset : Port where
  active := true
  outEn := true
  buf := []
  lastSeen := none
  minFull := none
  lastFc := none
  inq := []
  outq := []

/-- The summer of `n` ports after the block reset. -/
def Mix.reset (n : Nat) : Mix where
  rate := 8000
  nch := 1
  conf := false
  running := false
  lastNow := none
  bypass := none
  runRate := 8000
  runNch := 1
  ports := List.replicate n Port.reset

/-- The block with parameters `c` after the block reset, nothing at its port. -/
def State.resetWith (c : Config) : State where
  cfg := c
  cmd := []
  resp := []
  fault := 0
  unp := Unp.reset
  mix := Mix.reset c.nports

/-- The machine after reset: every element at its value of 10_state.md R58, the parameters those of `Config.standard`. -/
def State.reset : State := State.resetWith Config.standard

end Sys2Proof.Machine
end

