-- ==== Sys2Proof/Machine/Operands.lean ====
section
/-! DEFINITION. The byte layouts the commands read and write: NAL, FU-A and STAP-A headers (30_encoding.md R130 to R135), the
slice-header bits of the I-slice heuristic (41_unpacker.md R220 to R222), and PCM samples (20_memory.md R83, R84;
42_mixer.md R270, R272). -/

namespace Sys2Proof.Machine

/-! ### NAL units -/

/-- Byte 0 of a NALU. An empty string has none and reads as 0: no rule reads it (notes/assumptions/8.md). -/
def nalHeader (n : Bytes) : Byte := n.headD 0

/-- `TYPE`, bits 4:0 of a byte (30_encoding.md R130, R133). -/
def typeField (b : Byte) : BitVec 5 := b.extractLsb' 0 5

/-- The NAL type `n[0][4:0]` (30_encoding.md R130). -/
def nalType (n : Bytes) : BitVec 5 := typeField (nalHeader n)

/-- The type numbers the block acts on (30_encoding.md R131). -/
def typeSlice : BitVec 5 := 1
/-- Coded slice of an IDR picture (30_encoding.md R131). -/
def typeIdr : BitVec 5 := 5
/-- SPS (30_encoding.md R131). -/
def typeSps : BitVec 5 := 7
/-- PPS (30_encoding.md R131). -/
def typePps : BitVec 5 := 8
/-- STAP-A (30_encoding.md R131). -/
def typeStapA : BitVec 5 := 24
/-- FU-A (30_encoding.md R131). -/
def typeFuA : BitVec 5 := 28

/-! ### FU-A (30_encoding.md R132 to R134) -/

/-- The start bit `S` of an FU header, bit 7. -/
def fuStart (fh : Byte) : Bool := fh.getLsbD 7
/-- The end bit `E` of an FU header, bit 6. -/
def fuEnd (fh : Byte) : Bool := fh.getLsbD 6
/-- The NAL header rebuilt from the start fragment: `F` and `NRI` of the indicator, `TYPE` of the FU header. -/
def fuNalHeader (ind fh : Byte) : Byte := (ind &&& 0xE0) ||| (fh &&& 0x1F)

/-! ### STAP-A (30_encoding.md R135) -/

/-- A big-endian 16-bit field (00_scope.md R9). -/
def be16 (hi lo : Byte) : Nat := hi.toNat * 256 + lo.toNat

/-! ### The I-slice heuristic (41_unpacker.md R220 to R223) -/

/-- The number of zero bits of `b` from position `i` on, at most `fuel`; position 0 is the most significant bit. -/
def zeroRun (b : Byte) : Nat → Nat → Nat
  | 0, _ => 0
  | fuel + 1, i => if b.getMsbD i then 0 else zeroRun b fuel (i + 1) + 1

/-- The number in the `n` bits of `b` from position `i` on, most significant first. -/
def bitsFrom (b : Byte) (i : Nat) : Nat → Nat
  | 0 => 0
  | n + 1 => 2 * bitsFrom b i n + (b.getMsbD (i + n)).toNat

/-- `UE8(b, k)`: one `ue(v)` code of `b` from position `k`, and the position after it, or failure when the byte does not hold
it all (41_unpacker.md R221). -/
def ue8 (b : Byte) (k : Nat) : Option (Nat × Nat) :=
  let z := zeroRun b (8 - k) k
  if 8 ≤ k + z then none
  else if 8 < k + 2 * z + 1 then none
  else some (2 ^ z - 1 + bitsFrom b (k + z + 1) z, k + 2 * z + 1)

/-- The default `F_ISLICE`: the slice type in the byte after the NAL header is 2 or 7 (41_unpacker.md R222). -/
def standardISlice : Bytes → Bool
  | _ :: b :: _ =>
    match ue8 b 0 with
    | none => false
    | some (_, k) =>
      match ue8 b k with
      | none => false
      | some (sliceType, _) => sliceType == 2 || sliceType == 7
  | _ => false

/-- `F_ISLICE` under the parameters (41_unpacker.md R223). -/
def fISlice (c : Config) (n : Bytes) : Bool :=
  match c.islice with
  | .standard => standardISlice n
  | .other k => Config.otherISlice k n

/-- `ISliceKey(frame)`: there is a type-1 NALU and every one passes `F_ISLICE` (41_unpacker.md R220). -/
def iSliceKey (c : Config) (frame : List Bytes) : Bool :=
  let slices := frame.filter fun n => nalType n == typeSlice
  !slices.isEmpty && slices.all (fISlice c)

/-! ### PCM samples -/

/-- A PCM sample (20_memory.md R81). -/
abbrev Sample := BitVec 16

/-- The little-endian samples of a byte string; an odd last byte is no sample (20_memory.md R83, R84). -/
def samplesOf : Bytes → List Sample
  | lo :: hi :: rest => (hi ++ lo) :: samplesOf rest
  | _ => []

/-- The bytes of samples, least significant first (20_memory.md R83; `Enc` of 42_mixer.md R270). -/
def bytesOfSamples (v : List Sample) : Bytes := v.flatMap fun x => [x.extractLsb' 0 8, x.extractLsb' 8 8]

/-- A number is within an accumulator of `ACC_WIDTH` bits, in two's complement (00_scope.md R8). -/
def accHolds (c : Config) (x : Int) : Bool :=
  decide (-((2 ^ c.accWidth : Nat) : Int) ≤ 2 * x ∧ 2 * x < ((2 ^ c.accWidth : Nat) : Int))

/-- An accumulator sample, as the signed number of `ACC_WIDTH` bits it holds (00_scope.md R6), after `x` is stored to it: `x`
itself where it fits, as it always does at the spec's width (42_mixer.md R269); else some number of that width, left free
(notes/assumptions/13.md). -/
def accStore (c : Config) (x : Int) : Int :=
  if accHolds c x then x else (Config.accOverflow c.accWidth x).bmod (2 ^ c.accWidth)

/-- `Clamp` of a number (42_mixer.md R272). -/
def clampInt (c : Config) (x : Int) : Int :=
  if c.clampMax < x then c.clampMax else if x < c.clampMin then c.clampMin else x

/-- `Clamp` of an accumulator sample, an `s16` (42_mixer.md R272). -/
def clampSample (c : Config) (x : Int) : Sample := BitVec.ofInt 16 (clampInt c x)

/-- `Enc(Clamp(v))` (42_mixer.md R270). -/
def mixBytes (c : Config) (v : List Int) : Bytes := bytesOfSamples (v.map (clampSample c))

end Sys2Proof.Machine
end

