-- ==== Sys2Proof/Syntax.lean ====
section
/-! DEFINITION. The 19 commands, one constructor per row of the opcode map (30_encoding.md R115), with the operands of
their formats (R112) already assembled. -/

namespace Sys2Proof

/-- A command with its operands. A port is the 8-bit `IDX` field, an enable bit a `Bool`, a payload the byte string it
carries: its length is the `LEN` field. -/
inductive Instr where
  /-- `UNP.PACKET seq, ts, m, [p]` -/
  | unpPacket (seq : BitVec 16) (ts : BitVec 32) (m : Bool) (p : Bytes)
  /-- `UNP.SETSPS [p]` -/
  | unpSetSps (p : Bytes)
  /-- `UNP.SETPPS [p]` -/
  | unpSetPps (p : Bytes)
  /-- `UNP.RESET` -/
  | unpReset
  /-- `UNP.POP` -/
  | unpPop
  /-- `MIX.PREPROCESS` -/
  | mixPreprocess
  /-- `MIX.TICK now` -/
  | mixTick (now : BitVec 64)
  /-- `MIX.POSTPROCESS` -/
  | mixPostprocess
  /-- `MIX.SETRATE r` -/
  | mixSetRate (r : BitVec 32)
  /-- `MIX.GETRATE` -/
  | mixGetRate
  /-- `MIX.SETNCH n` -/
  | mixSetNch (n : BitVec 16)
  /-- `MIX.GETNCH` -/
  | mixGetNch
  /-- `MIX.SETCONF en` -/
  | mixSetConf (en : Bool)
  /-- `MIX.SETACTIVE port, en` -/
  | mixSetActive (port : Byte) (en : Bool)
  /-- `MIX.SETOUTPUT port, en` -/
  | mixSetOutput (port : Byte) (en : Bool)
  /-- `MIX.SETMASTER port` -/
  | mixSetMaster (port : Byte)
  /-- `MIX.PUSH port, [d]` -/
  | mixPush (port : Byte) (d : Bytes)
  /-- `MIX.POP port` -/
  | mixPop (port : Byte)
  /-- `SYS.FAULT` -/
  | sysFault
  deriving DecidableEq, Repr

end Sys2Proof
end

