-- ==== Sys2Proof/WellFormed.lean ====
section
/-! DEFINITION. The checks a command passes beyond its shape: its payload fits the `LEN` field of its format
(30_encoding.md R112), and its port and payload length are in range (R114, R117). -/

namespace Sys2Proof.Instr

/-- The payload fits the length field: 32 bits in format `P`, 16 bits in format `D` (30_encoding.md R112). -/
def encodable : Instr → Bool
  | .unpPacket _ _ _ p => decide (p.length < 2 ^ 32)
  | .unpSetSps p => decide (p.length < 2 ^ 16)
  | .unpSetPps p => decide (p.length < 2 ^ 16)
  | .mixPush _ d => decide (d.length < 2 ^ 16)
  | .unpReset | .unpPop | .mixPreprocess | .mixTick _ | .mixPostprocess | .mixSetRate _ | .mixGetRate | .mixSetNch _
  | .mixGetNch | .mixSetConf _ | .mixSetActive _ _ | .mixSetOutput _ _ | .mixSetMaster _ | .mixPop _ | .sysFault => true

/-- The operands in range: a port below `P_NPORTS`, a packet of at most `P_MAX_PAYLOAD` bytes (30_encoding.md R114, R117). -/
def inRange (c : Config) : Instr → Bool
  | .unpPacket _ _ _ p => decide (p.length ≤ c.maxPayload)
  | .mixSetActive port _ => decide (port.toNat < c.nports)
  | .mixSetOutput port _ => decide (port.toNat < c.nports)
  | .mixSetMaster port => decide (port.toNat < c.nports)
  | .mixPush port _ => decide (port.toNat < c.nports)
  | .mixPop port => decide (port.toNat < c.nports)
  | .unpSetSps _ | .unpSetPps _ | .unpReset | .unpPop | .mixPreprocess | .mixTick _ | .mixPostprocess | .mixSetRate _
  | .mixGetRate | .mixSetNch _ | .mixGetNch | .mixSetConf _ | .sysFault => true

/-- A command the block accepts at its port under the parameters `c`. -/
def wellFormed (c : Config) (i : Instr) : Bool := i.encodable && i.inRange c

end Sys2Proof.Instr
end

