-- ==== Sys2Proof/Decode.lean ====
section
/-! DEFINITION. The command encoding (30_encoding.md part 1): the opcode map of R115 as data, header fields (R111),
payload packing (R113), length decoding (R116), the decoder, and after it the encoder. The decoder is total: words that are
not yet a whole command are waited for, a header that matches no row is illegal by name (R117). -/

namespace Sys2Proof

/-! ### The opcode map -/

/-- The six formats of 30_encoding.md R112. -/
inductive Format where
  | N | P | D | T | W | I
  deriving DecidableEq, Repr

/-- The rows of the opcode map (30_encoding.md R115). -/
inductive Op where
  | unpPacket | unpSetSps | unpSetPps | unpReset | unpPop
  | mixPreprocess | mixTick | mixPostprocess | mixSetRate | mixGetRate | mixSetNch | mixGetNch
  | mixSetConf | mixSetActive | mixSetOutput | mixSetMaster | mixPush | mixPop | sysFault
  deriving DecidableEq, Repr

/-- The rows in the table's order. -/
def Op.all : List Op :=
  [.unpPacket, .unpSetSps, .unpSetPps, .unpReset, .unpPop,
   .mixPreprocess, .mixTick, .mixPostprocess, .mixSetRate, .mixGetRate, .mixSetNch, .mixGetNch,
   .mixSetConf, .mixSetActive, .mixSetOutput, .mixSetMaster, .mixPush, .mixPop, .sysFault]

/-- Column OPC of 30_encoding.md R115. -/
def Op.opc : Op → Byte
  | .unpPacket => 0x01 | .unpSetSps => 0x02 | .unpSetPps => 0x03 | .unpReset => 0x04 | .unpPop => 0x05
  | .mixPreprocess => 0x10 | .mixTick => 0x11 | .mixPostprocess => 0x12 | .mixSetRate => 0x13 | .mixGetRate => 0x14
  | .mixSetNch => 0x15 | .mixGetNch => 0x16 | .mixSetConf => 0x17 | .mixSetActive => 0x18 | .mixSetOutput => 0x19
  | .mixSetMaster => 0x1A | .mixPush => 0x1B | .mixPop => 0x1C | .sysFault => 0x20

/-- Column format of 30_encoding.md R115. -/
def Op.format : Op → Format
  | .unpPacket => .P
  | .unpSetSps | .unpSetPps | .mixPush => .D
  | .mixTick => .T
  | .mixSetRate => .W
  | .mixSetNch | .mixSetConf | .mixSetActive | .mixSetOutput | .mixSetMaster | .mixPop => .I
  | .unpReset | .unpPop | .mixPreprocess | .mixPostprocess | .mixGetRate | .mixGetNch | .sysFault => .N

/-- The header bits a row fixes: the mask of 30_encoding.md R115. -/
def Op.mask : Op → Word
  | .unpPacket => 0xFFFE0000
  | .unpSetSps | .unpSetPps | .mixSetNch => 0xFFFF0000
  | .mixSetConf => 0xFFFFFFFE
  | .mixSetActive | .mixSetOutput => 0xFF00FFFE
  | .mixSetMaster | .mixPop => 0xFF00FFFF
  | .mixPush => 0xFF000000
  | .unpReset | .unpPop | .mixPreprocess | .mixTick | .mixPostprocess | .mixSetRate | .mixGetRate | .mixGetNch
  | .sysFault => 0xFFFFFFFF

/-- The value of those bits: the match of 30_encoding.md R115. -/
def Op.pattern : Op → Word
  | .unpPacket => 0x01000000 | .unpSetSps => 0x02000000 | .unpSetPps => 0x03000000 | .unpReset => 0x04000000
  | .unpPop => 0x05000000 | .mixPreprocess => 0x10000000 | .mixTick => 0x11000000 | .mixPostprocess => 0x12000000
  | .mixSetRate => 0x13000000 | .mixGetRate => 0x14000000 | .mixSetNch => 0x15000000 | .mixGetNch => 0x16000000
  | .mixSetConf => 0x17000000 | .mixSetActive => 0x18000000 | .mixSetOutput => 0x19000000
  | .mixSetMaster => 0x1A000000 | .mixPush => 0x1B000000 | .mixPop => 0x1C000000 | .sysFault => 0x20000000

/-- The header's fixed bits are the row's (30_encoding.md R115, R117). -/
def Op.matchesHeader (o : Op) (h : Word) : Bool := h &&& o.mask == o.pattern

/-! ### Header fields (30_encoding.md R111, R112) -/

/-- `OPC = H[31:24]` -/
def headerOpc (h : Word) : Byte := h.extractLsb' 24 8
/-- `IDX = H[23:16]` -/
def headerIdx (h : Word) : Byte := h.extractLsb' 16 8
/-- `IMM = H[15:0]` -/
def headerImm (h : Word) : BitVec 16 := h.extractLsb' 0 16
/-- The marker bit `M = H[16]`. -/
def headerM (h : Word) : Bool := h.getLsbD 16
/-- The enable bit `EN = H[0]`. -/
def headerEn (h : Word) : Bool := h.getLsbD 0

/-- The row a header's opcode selects, if it is listed. -/
def Op.ofHeader (h : Word) : Option Op := Op.all.find? fun o => o.opc == headerOpc h

/-! ### Payload packing (30_encoding.md R113): the first byte is the most significant -/

/-- How many words a payload of `n` bytes takes: `ceil(n/4)`. -/
def payloadWords (n : Nat) : Nat := (n + 3) / 4

/-- The word holding four payload bytes. -/
def bytesWord (a b c d : Byte) : Word := a ++ b ++ c ++ d

/-- The four payload bytes a word holds. -/
def wordBytes (w : Word) : Bytes := [w.extractLsb' 24 8, w.extractLsb' 16 8, w.extractLsb' 8 8, w.extractLsb' 0 8]

/-- A byte string as payload words, padded with zero bytes. -/
def packBytes : Bytes → List Word
  | [] => []
  | [a] => [bytesWord a 0 0 0]
  | [a, b] => [bytesWord a b 0 0]
  | [a, b, c] => [bytesWord a b c 0]
  | a :: b :: c :: d :: rest => bytesWord a b c d :: packBytes rest

/-- The first `len` bytes of payload words: the padding is ignored. -/
def unpackBytes (len : Nat) (ws : List Word) : Bytes := (ws.flatMap wordBytes).take len

/-! ### Length decoding (30_encoding.md R116) -/

/-- How many words the block consumes for the command that begins here, from the opcode and the `LEN` field alone; `none`
while the words that say so have not arrived. An unlisted opcode is one word. -/
def commandLength : List Word → Option Nat
  | [] => none
  | h :: ops =>
    match (Op.ofHeader h).map Op.format with
    | none => some 1
    | some .N => some 1
    | some .I => some 1
    | some .W => some 2
    | some .T => some 3
    | some .D => some (1 + payloadWords (headerImm h).toNat)
    | some .P =>
      match ops with
      | _ :: len :: _ => some (3 + payloadWords len.toNat)
      | _ => none

/-! ### The decoder -/

/-- Why the words of a command are no command (30_encoding.md R117). -/
inductive IllegalEncoding where
  /-- the opcode is in no row of R115 -/
  | unlistedOpcode
  /-- a field that R112 shows as 0 is not -/
  | reservedBits
  /-- fewer words than R116 gives: never met on the words `fetch` takes -/
  | missingWords
  deriving DecidableEq, Repr

/-- The operands of a row, read from the header and the words after it (30_encoding.md R112). -/
def Op.operands : Op → Word → List Word → Option Instr
  | .unpPacket, h, ts :: len :: pl => some (.unpPacket (headerImm h) ts (headerM h) (unpackBytes len.toNat pl))
  | .unpPacket, _, _ => none
  | .unpSetSps, h, pl => some (.unpSetSps (unpackBytes (headerImm h).toNat pl))
  | .unpSetPps, h, pl => some (.unpSetPps (unpackBytes (headerImm h).toNat pl))
  | .unpReset, _, _ => some .unpReset
  | .unpPop, _, _ => some .unpPop
  | .mixPreprocess, _, _ => some .mixPreprocess
  | .mixTick, _, hi :: lo :: _ => some (.mixTick (hi ++ lo))
  | .mixTick, _, _ => none
  | .mixPostprocess, _, _ => some .mixPostprocess
  | .mixSetRate, _, r :: _ => some (.mixSetRate r)
  | .mixSetRate, _, [] => none
  | .mixGetRate, _, _ => some .mixGetRate
  | .mixSetNch, h, _ => some (.mixSetNch (headerImm h))
  | .mixGetNch, _, _ => some .mixGetNch
  | .mixSetConf, h, _ => some (.mixSetConf (headerEn h))
  | .mixSetActive, h, _ => some (.mixSetActive (headerIdx h) (headerEn h))
  | .mixSetOutput, h, _ => some (.mixSetOutput (headerIdx h) (headerEn h))
  | .mixSetMaster, h, _ => some (.mixSetMaster (headerIdx h))
  | .mixPush, h, pl => some (.mixPush (headerIdx h) (unpackBytes (headerImm h).toNat pl))
  | .mixPop, h, _ => some (.mixPop (headerIdx h))
  | .sysFault, _, _ => some .sysFault

/-- The command that these words, one command's own, encode (30_encoding.md R115, R117). A port out of range and a packet
over `P_MAX_PAYLOAD` are illegal too: the meanings answer so (notes/assumptions/5.md). -/
def decodeCommand : List Word → Except IllegalEncoding Instr
  | [] => .error .missingWords
  | h :: ops =>
    match Op.ofHeader h with
    | none => .error .unlistedOpcode
    | some o =>
      if o.matchesHeader h then
        match o.operands h ops with
        | some i => .ok i
        | none => .error .missingWords
      else .error .reservedBits

/-- What stands at the command port. -/
inductive Fetched where
  /-- no command, or one whose words have not all arrived -/
  | wait
  /-- an illegal command, its words consumed -/
  | illegal (why : IllegalEncoding) (rest : List Word)
  /-- a command, its words consumed -/
  | decoded (i : Instr) (rest : List Word)
  deriving DecidableEq, Repr

/-- Take the next command from the words at the port. Its length is consumed even when it proves illegal (30_encoding.md
R116), and a command runs only when all its words are there (00_scope.md R5; notes/assumptions/1.md). -/
def fetch (ws : List Word) : Fetched :=
  match commandLength ws with
  | none => .wait
  | some n =>
    if ws.length < n then .wait
    else
      match decodeCommand (ws.take n) with
      | .ok i => .decoded i (ws.drop n)
      | .error e => .illegal e (ws.drop n)

/-! ### The encoder -/

/-- A header word `OPC ‖ IDX ‖ IMM` (30_encoding.md R111). -/
def header (o : Op) (idx : Byte) (imm : BitVec 16) : Word := o.opc ++ idx ++ imm

/-- An enable bit in the immediate: `H[0]`, with `H[15:1]` zero. -/
def immEn (en : Bool) : BitVec 16 := BitVec.zeroExtend 16 (BitVec.ofBool en)

/-- The marker bit in `IDX[0]`, with `IDX[7:1]` zero. -/
def idxM (m : Bool) : Byte := BitVec.zeroExtend 8 (BitVec.ofBool m)

/-- The words of a command (30_encoding.md R110, R112). -/
def encode : Instr → List Word
  | .unpPacket seq ts m p => header .unpPacket (idxM m) seq :: ts :: BitVec.ofNat 32 p.length :: packBytes p
  | .unpSetSps p => header .unpSetSps 0 (BitVec.ofNat 16 p.length) :: packBytes p
  | .unpSetPps p => header .unpSetPps 0 (BitVec.ofNat 16 p.length) :: packBytes p
  | .unpReset => [header .unpReset 0 0]
  | .unpPop => [header .unpPop 0 0]
  | .mixPreprocess => [header .mixPreprocess 0 0]
  | .mixTick now => [header .mixTick 0 0, now.extractLsb' 32 32, now.extractLsb' 0 32]
  | .mixPostprocess => [header .mixPostprocess 0 0]
  | .mixSetRate r => [header .mixSetRate 0 0, r]
  | .mixGetRate => [header .mixGetRate 0 0]
  | .mixSetNch n => [header .mixSetNch 0 n]
  | .mixGetNch => [header .mixGetNch 0 0]
  | .mixSetConf en => [header .mixSetConf 0 (immEn en)]
  | .mixSetActive port en => [header .mixSetActive port (immEn en)]
  | .mixSetOutput port en => [header .mixSetOutput port (immEn en)]
  | .mixSetMaster port => [header .mixSetMaster port 0]
  | .mixPush port d => header .mixPush port (BitVec.ofNat 16 d.length) :: packBytes d
  | .mixPop port => [header .mixPop port 0]
  | .sysFault => [header .sysFault 0 0]

/-! ### Numbered words of the opcode table -/

/-- The first `k` words of an instruction whose bits are `w`: word 0 in bits 31..0, every bit from `nbits` up zero. -/
def tableWord (nbits w k : Nat) : List Word := (List.range k).map fun j => BitVec.ofNat 32 ((w % 2 ^ nbits) >>> (32 * j))

/-- All the words of that instruction: the header and the two words after it say how many there are (30_encoding.md R116). -/
def tableWords (nbits w : Nat) : List Word := tableWord nbits w ((commandLength (tableWord nbits w 3)).getD 1)

/-- The instruction the decoder reads from those words. -/
def decodeTableWord (nbits w : Nat) : Option Instr :=
  match fetch (tableWords nbits w) with
  | .decoded i _ => some i
  | .illegal _ _ => none
  | .wait => none

end Sys2Proof
end

