-- ==== Sys2Proof/Machine/Flags.lean ====
section
/-! DEFINITION. The flags: the reassembler's status byte (30_encoding.md R123), the `FAULT` bits (10_state.md R24), the value
`UNP.POP` returns (R124), and the control state the flags and queues imply (10_state.md R35). -/

namespace Sys2Proof.Machine

/-- A frame status or pending status (30_encoding.md R123). -/
abbrev Status := BitVec 8

/-- Bit 0: a frame was output (R123). -/
def frameAvailable : Status := 0x01
/-- Bit 1: a sequence gap or a malformed fragment or aggregate was met (R123, 60_exceptions.md R302). -/
def frameCorrupted : Status := 0x02
/-- Bit 2: the frame holds an IDR NALU or passes the I-slice heuristic (R123). -/
def isKeyFrame : Status := 0x04
/-- Bit 3: an SPS with new content was stored (R123). -/
def newSps : Status := 0x08
/-- Bit 4: a PPS with new content was stored (R123). -/
def newPps : Status := 0x10
/-- Bit 5: an SPS is held live at output (R123). -/
def hasSps : Status := 0x20
/-- Bit 6: a PPS is held live at output (R123). -/
def hasPps : Status := 0x40
/-- Bit 7: the frame holds an IDR NALU (R123). -/
def hasIdr : Status := 0x80

/-- `FAULT` bit 0: a frame did not fit `UNP.OUTQ` (10_state.md R24). -/
def unpOutqOvf : BitVec 32 := 0x1
/-- `FAULT` bit 1: a buffer did not fit some `MIX.OUTQ[i]` (10_state.md R24). -/
def mixOutqOvf : BitVec 32 := 0x2
/-- `FAULT` bit 2: bytes did not fit some `CH[i].BUF` (10_state.md R24). -/
def mixBufOvf : BitVec 32 := 0x4

/-- The bits of a condition that holds, or none. -/
def flagIf (b : Bool) (f : Status) : Status := if b then f else 0

/-- `zext_32(eof ‖ fstatus)`, the value of `UNP.POP` (30_encoding.md R119, R124). -/
def popValue (eof : Bool) (fstatus : Status) : Word := BitVec.zeroExtend 32 (BitVec.ofBool eof ++ fstatus)

/-- The reassembler's control states between commands (10_state.md R35). -/
inductive UnpControl where
  | idle | accumulating
  deriving DecidableEq, Repr

/-- `Idle` when nothing is stored and no FU-A is partial, `Accumulating` otherwise (10_state.md R35). -/
def unpControl (u : Unp) : UnpControl := if u.rq = [] ∧ u.aggActive = false then .idle else .accumulating

/-- The number of a response code (60_exceptions.md R300). -/
def respCodeByte : RespCode → Byte
  | .ok => 0 | .rejected => 1 | .illegal => 2 | .empty => 3 | .state => 4 | .full => 5

end Sys2Proof.Machine
end

