-- ==== Sys2Proof/Machine/Ops.lean ====
section
/-! DEFINITION. The named operations every meaning is made of: ending a command with a response (00_scope.md R11,
60_exceptions.md R300), setting a fault bit (10_state.md R24), reading and writing a port, the tick sizes (00_scope.md R7), and
the host's side of the command port with the block reset (70_reset_and_hazards.md R330). The block takes no trap
(60_exceptions.md R303 to R305): ending a command with a code is all that stands in its place. -/

namespace Sys2Proof.Machine

/-- What a step answers. -/
abbrev Outcome := Host.Outcome State Fault Refusal

/-! ### Ending a command -/

/-- Give one response (30_encoding.md R118). -/
def State.respond (r : Response) (s : State) : State := { s with resp := s.resp ++ [r] }

/-- `respond(OK, value, payload)` (00_scope.md R11). -/
def finish (value : Word) (payload : Bytes) (s : State) : Outcome := .next (s.respond ⟨.ok, value, payload⟩)

/-- The state after `raise`: the code with value 0 and no payload, nothing else changed (00_scope.md R11, 60_exceptions.md
R304). -/
def State.reject (code : RespCode) (s : State) : State := s.respond ⟨code, 0, []⟩

/-- `raise <code>` (00_scope.md R11). -/
def raise (code : RespCode) (s : State) : Outcome := .next (s.reject code)

/-- The words of a response (30_encoding.md R118). -/
def responseWords (r : Response) : List Word :=
  BitVec.zeroExtend 32 (respCodeByte r.code) <<< 24 :: r.value :: BitVec.ofNat 32 r.payload.length :: packBytes r.payload

/-! ### The two units and the fault register -/

/-- `set_fault(bit)` (10_state.md R24, 60_exceptions.md R309). -/
def State.setFault (bit : BitVec 32) (s : State) : State := { s with fault := s.fault ||| bit }

/-- Change the reassembler alone. -/
def State.mapUnp (f : Unp → Unp) (s : State) : State := { s with unp := f s.unp }

/-- Change the summer alone. -/
def State.mapMix (f : Mix → Mix) (s : State) : State := { s with mix := f s.mix }

/-- `n` entries fit a capacity; `none` is unbounded (00_scope.md R6). -/
def fits (cap : Option Nat) (n : Nat) : Bool :=
  match cap with
  | none => true
  | some k => decide (n ≤ k)

/-! ### Ports -/

/-- Port `i` (42_mixer.md R242). Outside the table it reads as a port after reset: no rule reads it (notes/assumptions/6.md). -/
def State.port (s : State) (i : Nat) : Port := s.mix.ports.getD i Port.reset

/-- Change port `i` alone; outside the table nothing. -/
def State.mapPort (i : Nat) (f : Port → Port) (s : State) : State :=
  s.mapMix fun m => { m with ports := m.ports.modify i f }

/-- Change every port. -/
def State.mapPorts (f : Port → Port) (s : State) : State := s.mapMix fun m => { m with ports := m.ports.map f }

/-- Run a per-port command's effect when its port is in range; else it is illegal (30_encoding.md R114, R117;
notes/assumptions/5.md). -/
def withPort (port : Byte) (s : State) (run : Nat → Outcome) : Outcome :=
  if port.toNat < s.cfg.nports then run port.toNat else raise .illegal s

/-! ### Tick sizes (00_scope.md R7), from the latched rate and channel count -/

/-- `N`, the samples per tick. -/
def State.tickSamples (s : State) : Nat := s.mix.runRate.toNat * s.mix.runNch.toNat * s.cfg.tickMs / 1000

/-- `B`, the bytes per tick. -/
def State.tickBytes (s : State) : Nat := 2 * s.tickSamples

/-- `TH`, the flow-control threshold in bytes. -/
def State.fcThreshold (s : State) : Nat := s.cfg.fcThresholdTicks * s.tickBytes

/-- `a - b` of two times in ms, an integer (00_scope.md R8; notes/assumptions/11.md). -/
def timeDiff (a b : BitVec 64) : Int := (a.toNat : Int) - (b.toNat : Int)

/-! ### The host's side -/

/-- The host writes words to the port (00_scope.md R5). -/
def State.hostWrite (ws : List Word) (s : State) : State := { s with cmd := s.cmd ++ ws }

/-- The host takes the oldest response (00_scope.md R5). -/
def State.hostRead (s : State) : Option Response × State := (s.resp.head?, { s with resp := s.resp.tail })

/-- The block reset, a host action between commands: every element of 10_state.md R58 to its reset value. The parameters stay
(70_reset_and_hazards.md R330), and so do the host's own words and answers (notes/assumptions/10.md). -/
def State.blockReset (s : State) : State := { State.resetWith s.cfg with cmd := s.cmd, resp := s.resp }

end Sys2Proof.Machine
end

