-- ==== Sys2Proof/Machine/Tick.lean ====
section
/-! DEFINITION. The tick of the summer (42_mixer.md R253, R261 to R275): muted inputs, the activity scan, bypass, and the mix
with its bufferizers, accumulator, flow control and output dispatch. Ports are taken in increasing order. -/

namespace Sys2Proof.Machine

/-- The port indices `0..P_NPORTS-1`, in increasing order. -/
def State.portList (s : State) : List Nat := List.range s.cfg.nports

/-! ### Muted ports and activity -/

/-- `DiscardMuted()` at one port (42_mixer.md R261). -/
def discardIfMuted (q : Port) : Port := if q.active then q else { q with inq := [] }

/-- A port last seen non-empty at `lastSeen` still counts as active at `now` (42_mixer.md R262): the window is strict. -/
def seenRecently (c : Config) (now : BitVec 64) (q : Port) : Bool :=
  match q.lastSeen with
  | none => false
  | some t => decide (timeDiff now t < (c.activityTimeoutMs : Int))

/-- A port counts as active (42_mixer.md R262). -/
def countsActive (c : Config) (now : BitVec 64) (q : Port) : Bool :=
  q.active && (!q.inq.isEmpty || seenRecently c now q)

/-- `LAST_SEEN` of a port found non-empty while unmuted (42_mixer.md R262). -/
def noteSeen (now : BitVec 64) (q : Port) : Port :=
  if q.active && !q.inq.isEmpty then { q with lastSeen := some now } else q

/-- The activity set `ACT`, in increasing order (42_mixer.md R262). -/
def activePorts (now : BitVec 64) (s : State) : List Nat :=
  s.portList.filter fun i => countsActive s.cfg now (s.port i)

/-! ### Outputs -/

/-- `PushOut(o, buf)`: a full queue drops the buffer and sets a fault bit (42_mixer.md R271). -/
def pushOut (o : Nat) (buf : Bytes) (s : State) : State :=
  if fits s.cfg.mixOutqCap ((s.port o).outq.length + 1) then s.mapPort o fun q => { q with outq := q.outq ++ [buf] }
  else s.setFault mixOutqOvf

/-! ### Bypass -/

/-- `BypassOutputs(p)`: the enabled outputs, without `p`'s own in conferencing mode (42_mixer.md R266). -/
def bypassOutputs (p : Nat) (s : State) : List Nat :=
  s.portList.filter fun o => (s.port o).outEn && !(s.mix.conf && o == p)

/-- Forward packets, in order, to one output (42_mixer.md R265). -/
def forwardTo (pkts : List Bytes) (s : State) (o : Nat) : State := pkts.foldl (fun w d => pushOut o d w) s

/-- `Bypass(p)`: entering it flushes the port's bufferizer; its packets go out verbatim (42_mixer.md R265). -/
def bypassTick (p : Nat) (s : State) : State :=
  let entered := if s.mix.bypass = some p then s else s.mapPort p fun q => { q with buf := [] }
  let drained := (entered.mapMix fun m => { m with bypass := some p }).mapPort p fun q => { q with inq := [] }
  (bypassOutputs p s).foldl (forwardTo (s.port p).inq) drained

/-! ### Mixing -/

/-- `Put(i, d)`: bytes that do not fit `P_MIX_BUF_CAP` are cut off, with a fault bit (42_mixer.md R263). -/
def putBytes (i : Nat) (d : Bytes) (s : State) : State :=
  let held := (s.port i).buf.length
  if fits s.cfg.mixBufCap (held + d.length) then s.mapPort i fun q => { q with buf := q.buf ++ d }
  else (s.mapPort i fun q => { q with buf := q.buf ++ d.take (s.cfg.mixBufCap.getD 0 - held) }).setFault mixBufOvf

/-- Drain an input queue into its bufferizer, in order (42_mixer.md R267). -/
def drainInput (i : Nat) (s : State) : State :=
  (s.port i).inq.foldl (fun w d => putBytes i d w) (s.mapPort i fun q => { q with inq := [] })

/-- The fullness sample taken into the window's minimum (42_mixer.md R264). -/
def sampleFullness (q : Port) : Port :=
  { q with minFull := some (match q.minFull with
                            | none => q.buf.length
                            | some m => min m q.buf.length) }

/-- How many bytes flow control skips when the window's minimum was `m`: the excess over half the threshold, in whole
interleaved frames, and no more than is buffered (42_mixer.md R264). -/
def skipBytes (threshold nch m held : Nat) : Nat :=
  let d := m - threshold / 2
  min (d - d % (2 * nch)) held

/-- `FlowControl(i, now)` at one port (42_mixer.md R264). -/
def flowControl (windowMs threshold nch : Nat) (now : BitVec 64) (q : Port) : Port :=
  match q.lastFc with
  | none => { q with lastFc := some now }
  | some t =>
    if (windowMs : Int) ≤ timeDiff now t then
      let skipped :=
        match q.minFull with
        | none => q.buf
        | some m => if threshold < m then q.buf.drop (skipBytes threshold nch m q.buf.length) else q.buf
      { q with buf := skipped, minFull := none, lastFc := some now }
    else q

/-- The transient values of a mix tick beside the state: `SUM`, and the samples `C[i]` of each contributor (10_state.md R55). -/
structure MixRun where
  st : State
  sum : List Int
  contrib : List (Nat × List Sample)
  deriving DecidableEq, Repr

/-- `SUM + C`, sample by sample, in the accumulator (42_mixer.md R268, R269). -/
def addSamples (cfg : Config) (sum : List Int) (c : List Sample) : List Int :=
  List.zipWith (fun a x => accStore cfg (a + x.toInt)) sum c

/-- `SUM - C`, sample by sample, in the accumulator (42_mixer.md R269, R270). -/
def subSamples (cfg : Config) (sum : List Int) (c : List Sample) : List Int :=
  List.zipWith (fun a x => accStore cfg (a - x.toInt)) sum c

/-- `Accumulate(i)`: a bufferizer with a whole tick of bytes gives it up and is added; another one is left as it is
(42_mixer.md R268). -/
def accumulate (i : Nat) (r : MixRun) : MixRun :=
  let b := r.st.tickBytes
  let buf := (r.st.port i).buf
  if b ≤ buf.length then
    let c := samplesOf (buf.take b)
    { st := r.st.mapPort i fun q => { q with buf := q.buf.drop b }
      sum := addSamples r.st.cfg r.sum c
      contrib := r.contrib ++ [(i, c)] }
  else r

/-- One active port's turn in a mix tick: drain, sample the fullness, accumulate, flow control (42_mixer.md R267). -/
def mixPort (now : BitVec 64) (r : MixRun) (i : Nat) : MixRun :=
  let filled := (drainInput i r.st).mapPort i sampleFullness
  let added := accumulate i { r with st := filled }
  { added with
    st := added.st.mapPort i
      (flowControl added.st.cfg.fcWindowMs added.st.fcThreshold added.st.mix.runNch.toNat now) }

/-- The buffer an enabled output gets: the plain mix, or in conferencing mode, for a contributor, the mix without its own
samples (42_mixer.md R270, R273). -/
def outputBuffer (r : MixRun) (o : Nat) : Bytes :=
  match r.contrib.lookup o with
  | none => mixBytes r.st.cfg r.sum
  | some c => mixBytes r.st.cfg (if r.st.mix.conf then subSamples r.st.cfg r.sum c else r.sum)

/-- `DispatchOutputs()`: one buffer to every enabled output (42_mixer.md R270). -/
def dispatchOutputs (r : MixRun) : State :=
  r.st.portList.foldl (fun w o => if (r.st.port o).outEn then pushOut o (outputBuffer r o) w else w) r.st

/-- `Mix(ACT, now)` (42_mixer.md R267). -/
def mixTick (act : List Nat) (now : BitVec 64) (s : State) : State :=
  let started := s.mapMix fun m => { m with bypass := none }
  dispatchOutputs (act.foldl (mixPort now) ⟨started, List.replicate s.tickSamples 0, []⟩)

/-- The tick's steps after its entry checks (42_mixer.md R253): no active port, one (bypass), or more (mix). -/
def tickSteps (now : BitVec 64) (s : State) : State :=
  let heard := (s.mapMix fun m => { m with lastNow := some now }).mapPorts discardIfMuted
  let seen := heard.mapPorts (noteSeen now)
  match activePorts now heard with
  | [] => seen.mapMix fun m => { m with bypass := none }
  | [p] => bypassTick p seen
  | act => mixTick act now seen

end Sys2Proof.Machine
end

