-- ==== Sys2Proof/Machine/Mix.lean ====
section
/-! DEFINITION. The summer's commands (42_mixer.md). -/

namespace Sys2Proof.Machine

/-- What `MIX.PREPROCESS` and `MIX.POSTPROCESS` clear in a channel (42_mixer.md R250, R252; 10_state.md R49 to R52). -/
def clearChannel (q : Port) : Port := { q with buf := [], lastSeen := none, minFull := none, lastFc := none }

/-- `MIX.PREPROCESS` (42_mixer.md R250). -/
def execMixPreprocess (s : State) : Outcome :=
  if s.mix.running then raise .state s
  else
    finish 0 [] ((s.mapMix fun m =>
      { m with runRate := m.rate, runNch := m.nch, lastNow := none, bypass := none, running := true }).mapPorts clearChannel)

/-- The tick time does not go back (42_mixer.md R253). -/
def timeGoesBack (now : BitVec 64) (s : State) : Bool :=
  match s.mix.lastNow with
  | none => false
  | some t => decide (now.toNat < t.toNat)

/-- `MIX.TICK now` (42_mixer.md R253; the order of the checks, 60_exceptions.md R307). -/
def execMixTick (now : BitVec 64) (s : State) : Outcome :=
  if !s.mix.running then raise .state s
  else if timeGoesBack now s then raise .illegal s
  else finish 0 [] (tickSteps now s)

/-- `MIX.POSTPROCESS` (42_mixer.md R252). -/
def execMixPostprocess (s : State) : Outcome :=
  if !s.mix.running then raise .state s
  else finish 0 [] ((s.mapMix fun m => { m with bypass := none, running := false }).mapPorts clearChannel)

/-- `MIX.SETRATE r` (42_mixer.md R257). -/
def execMixSetRate (r : BitVec 32) (s : State) : Outcome :=
  if r = 0 ∨ r.toNat % s.cfg.rateStep ≠ 0 then raise .rejected s
  else finish 0 [] (s.mapMix fun m => { m with rate := r })

/-- `MIX.GETRATE` (42_mixer.md R254). -/
def execMixGetRate (s : State) : Outcome := finish s.mix.rate [] s

/-- `MIX.SETNCH n` (42_mixer.md R255). -/
def execMixSetNch (n : BitVec 16) (s : State) : Outcome :=
  if n = 0 ∨ s.cfg.maxNch < n.toNat then raise .rejected s
  else finish 0 [] (s.mapMix fun m => { m with nch := n })

/-- `MIX.GETNCH` (42_mixer.md R256). -/
def execMixGetNch (s : State) : Outcome := finish (s.mix.nch.zeroExtend 32) [] s

/-- `MIX.SETCONF en` (42_mixer.md R249). -/
def execMixSetConf (en : Bool) (s : State) : Outcome := finish 0 [] (s.mapMix fun m => { m with conf := en })

/-- `MIX.SETACTIVE p, en` (42_mixer.md R247). -/
def execMixSetActive (port : Byte) (en : Bool) (s : State) : Outcome :=
  withPort port s fun p => finish 0 [] (s.mapPort p fun q => { q with active := en })

/-- `MIX.SETOUTPUT p, en` (42_mixer.md R248). -/
def execMixSetOutput (port : Byte) (en : Bool) (s : State) : Outcome :=
  withPort port s fun p => finish 0 [] (s.mapPort p fun q => { q with outEn := en })

/-- `MIX.SETMASTER p`, a no-op (42_mixer.md R258). -/
def execMixSetMaster (port : Byte) (s : State) : Outcome := withPort port s fun _ => finish 0 [] s

/-- `MIX.PUSH p, [d]` (42_mixer.md R259). -/
def execMixPush (port : Byte) (d : Bytes) (s : State) : Outcome :=
  withPort port s fun p =>
    if fits s.cfg.mixInqCap ((s.port p).inq.length + 1) then
      finish 0 [] (s.mapPort p fun q => { q with inq := q.inq ++ [d] })
    else raise .full s

/-- `MIX.POP p` (42_mixer.md R260). -/
def execMixPop (port : Byte) (s : State) : Outcome :=
  withPort port s fun p =>
    match (s.port p).outq with
    | [] => raise .empty s
    | d :: more => finish 0 d (s.mapPort p fun q => { q with outq := more })

end Sys2Proof.Machine
end

