-- ==== Sys2Proof/Machine/Sys.lean ====
section
/-! DEFINITION. The system command (60_exceptions.md R310). -/

namespace Sys2Proof.Machine

/-- `SYS.FAULT`: reads `FAULT` and clears nothing (60_exceptions.md R310). -/
def execSysFault (s : State) : Outcome := finish s.fault [] s

end Sys2Proof.Machine
end

