-- ==== Sys2Proof/Machine/FuaStapa.lean ====
section
/-! DEFINITION. The FU-A aggregator (40_fua_stapa.md R160 to R169) and the STAP-A splitter (R170 to R173). Malformed input is
never an error: it is the Boolean `corrupt`, which the caller puts into the pending status. -/

namespace Sys2Proof.Machine

/-! ### FU-A aggregator -/

/-- `AggReset()` (40_fua_stapa.md R168). -/
def aggReset (u : Unp) : Unp := { u with aggActive := false, aggBuf := [] }

/-- `AggReset()` if a partial NALU exists (40_fua_stapa.md R161, R167). -/
def aggDrop (u : Unp) : Unp := if u.aggActive then aggReset u else u

/-- What `AggFeed` answers: the state after it, the completed NALU if there is one, and `corrupt` (40_fua_stapa.md R160). -/
structure AggResult where
  unp : Unp
  done : Option Bytes
  corrupt : Bool
  deriving DecidableEq, Repr

/-- `SizeOver()`: the partial NALU is longer than `P_MAX_NALU` (40_fua_stapa.md R168). -/
def sizeOver (maxNalu : Nat) (u : Unp) : Bool := decide (maxNalu < u.aggBuf.length)

/-- `Start(ind, t, frag)`: begin a NALU; a partial one before it is lost and makes the result corrupt (40_fua_stapa.md R162,
R163, R168). -/
def aggStart (maxNalu : Nat) (ind fh : Byte) (frag : Bytes) (u : Unp) : AggResult :=
  let started := { u with aggActive := true, aggBuf := fuNalHeader ind fh :: frag }
  if sizeOver maxNalu started then ⟨aggReset started, none, true⟩ else ⟨started, none, u.aggActive⟩

/-- A middle or end fragment of the partial NALU (40_fua_stapa.md R164, R165, R168). -/
def aggContinue (maxNalu : Nat) (last : Bool) (frag : Bytes) (u : Unp) : AggResult :=
  let grown := { u with aggBuf := u.aggBuf ++ frag }
  if sizeOver maxNalu grown then ⟨aggReset grown, none, true⟩
  else if last then ⟨aggReset grown, some grown.aggBuf, false⟩
  else ⟨grown, none, false⟩

/-- `AggFeed(p)`: one FU-A payload (40_fua_stapa.md R160), its cases in the order the rule gives: R161 short, R167 both bits,
R162 start, R164 and R165 no partial, R166 another type, R164 and R165 continuation. -/
def aggFeed (maxNalu : Nat) (p : Bytes) (u : Unp) : AggResult :=
  match p with
  | ind :: fh :: frag =>
    if fuStart fh && fuEnd fh then ⟨aggDrop u, none, true⟩
    else if fuStart fh then aggStart maxNalu ind fh frag u
    else if !u.aggActive then ⟨u, none, true⟩
    else if typeField fh != nalType u.aggBuf then ⟨aggReset u, none, true⟩
    else aggContinue maxNalu (fuEnd fh) frag u
  | _ => ⟨aggDrop u, none, true⟩

/-! ### STAP-A splitter -/

/-- The walk over the size-prefixed units: those before the first defect, and whether there is one (40_fua_stapa.md R170,
R172 (a) to (c)). `fuel` bounds the number of units; the number of bytes left is enough. -/
def stapWalk : Nat → Bytes → List Bytes × Bool
  | _, [] => ([], false)
  | 0, _ :: _ => ([], true)
  | _ + 1, [_] => ([], true)
  | fuel + 1, hi :: lo :: rest =>
    let size := be16 hi lo
    if size = 0 ∨ rest.length < size then ([], true)
    else
      let more := stapWalk fuel (rest.drop size)
      (rest.take size :: more.1, more.2)

/-- `StapSplit(p)`: the units after the header byte; an aggregate of the header alone is corrupt (40_fua_stapa.md R170 to
R173). -/
def stapSplit (p : Bytes) : List Bytes × Bool :=
  match p.drop 1 with
  | [] => ([], true)
  | body => stapWalk body.length body

end Sys2Proof.Machine
end

