-- ==== Sys2Proof/Machine/Unp.lean ====
section
/-! DEFINITION. The reassembler's commands and the procedures of `UNP.PACKET` (41_unpacker.md). -/

namespace Sys2Proof.Machine

/-! ### Parameter sets (41_unpacker.md R206 to R209, R213) -/

/-- The two kinds of parameter set (41_unpacker.md R207). -/
inductive PsKind where
  | sps | pps
  deriving DecidableEq, Repr

/-- The registers of kind `k`. -/
def Unp.ps (u : Unp) : PsKind → ParamSet
  | .sps => u.sps
  | .pps => u.pps

/-- Write the registers of kind `k`. -/
def Unp.setPs (u : Unp) (k : PsKind) (r : ParamSet) : Unp :=
  match k with
  | .sps => { u with sps := r }
  | .pps => { u with pps := r }

/-- The NAL type of kind `k` (30_encoding.md R131). -/
def psType : PsKind → BitVec 5
  | .sps => typeSps
  | .pps => typePps

/-- `NewSPS` or `NewPPS` (41_unpacker.md R208). -/
def newPs : PsKind → Status
  | .sps => newSps
  | .pps => newPps

/-- `ACC.x <- 1` for the bits `x` (41_unpacker.md, opening). -/
def accSet (bits : Status) (u : Unp) : Unp := { u with acc := u.acc ||| bits }

/-- The news bit that noting `n` raises against the last noted set: none for a repeat, and for the first set ever noted what
`P_FIRST_PS_NEW` says (41_unpacker.md R208, R209). -/
def psNews (c : Config) (k : PsKind) (last : Option Bytes) (n : Bytes) : Status :=
  match last with
  | none => flagIf c.firstPsNew (newPs k)
  | some old => flagIf (n != old) (newPs k)

/-- `PsNote(k, n)` (41_unpacker.md R208). A repeat writes the same bytes again, which changes nothing. -/
def psNote (c : Config) (k : PsKind) (n : Bytes) (u : Unp) : Unp :=
  accSet (psNews c k (u.ps k).last n) (u.setPs k { u.ps k with last := some n })

/-- `PsStore(k, n)`: an in-band set becomes the live one and cancels a pending injected one (41_unpacker.md R207, R227). -/
def psStore (c : Config) (k : PsKind) (n : Bytes) (u : Unp) : Unp :=
  let noted := psNote c k n u
  noted.setPs k { noted.ps k with live := some n, source := .inBand, oobPending := false }

/-- `StoreNal(n)`: note a parameter set, and append the NALU to the reassembly queue (41_unpacker.md R206). -/
def storeNal (c : Config) (n : Bytes) (u : Unp) : Unp :=
  let u₁ := if nalType n = typeSps then psStore c .sps n u else u
  let u₂ := if nalType n = typePps then psStore c .pps n u₁ else u₁
  { u₂ with rq := u₂.rq ++ [n] }

/-- Deliver the injected set of kind `k` if one is pending: the NALUs put at the frame's head, and the state after
(41_unpacker.md R213). A set pending with none live does not occur; it would deliver nothing (notes/assumptions/7.md). -/
def oobDeliver (c : Config) (k : PsKind) (u : Unp) : List Bytes × Unp :=
  if (u.ps k).oobPending then
    let cleared := u.setPs k { u.ps k with oobPending := false }
    match (u.ps k).live with
    | some n => ([n], psNote c k n cleared)
    | none => ([], cleared)
  else ([], u)

/-- `OobPrefix()`: SPS before PPS (41_unpacker.md R213). -/
def oobPrefix (c : Config) (u : Unp) : List Bytes × Unp :=
  let sps := oobDeliver c .sps u
  let pps := oobDeliver c .pps sps.2
  (sps.1 ++ pps.1, pps.2)

/-! ### Frame output (41_unpacker.md R212 to R217) -/

/-- The frame holds an IDR NALU (41_unpacker.md R214). -/
def hasIdrNal (frame : List Bytes) : Bool := frame.any fun n => nalType n == typeIdr

/-- The status of a frame: the pending bits, `FrameAvailable`, the keyframe bits and the live parameter sets (41_unpacker.md
R212, R214, R215, R220). -/
def frameStatus (c : Config) (u : Unp) (frame : List Bytes) : Status :=
  u.acc ||| frameAvailable
    ||| (if hasIdrNal frame then hasIdr ||| isKeyFrame else flagIf (iSliceKey c frame) isKeyFrame)
    ||| flagIf u.sps.live.isSome hasSps ||| flagIf u.pps.live.isSome hasPps

/-- The queue entries of a frame: `eof` on the last NALU alone (41_unpacker.md R216). -/
def frameEntries (st : Status) : List Bytes → List OutEntry
  | [] => []
  | [n] => [⟨n, st, true⟩]
  | n :: more => ⟨n, st, false⟩ :: frameEntries st more

/-- `EmitFrame(frame, st)`: the frame enters `UNP.OUTQ` whole, or is dropped whole with a fault bit (41_unpacker.md R216). -/
def emitFrame (frame : List Bytes) (st : Status) (s : State) : State :=
  if fits s.cfg.unpOutqCap (s.unp.outq.length + frame.length) then
    s.mapUnp fun u => { u with outq := u.outq ++ frameEntries st frame }
  else s.setFault unpOutqOvf

/-- `OutputFrame()`: the state after, and the status returned; with nothing stored, no frame and status 0 (41_unpacker.md
R212, R217). -/
def outputFrame (s : State) : State × Status :=
  if s.unp.rq = [] then (s, 0)
  else
    let oob := oobPrefix s.cfg s.unp
    let frame := oob.1 ++ oob.2.rq
    let st := frameStatus s.cfg oob.2 frame
    let emitted := emitFrame frame st (s.mapUnp fun _ => { oob.2 with rq := [] })
    (emitted.mapUnp fun u => { u with acc := 0 }, st)

/-! ### UNP.PACKET (41_unpacker.md R200) -/

/-- A partial FU-A that cannot be completed is dropped and marks the frame corrupt (40_fua_stapa.md R169, 41_unpacker.md R202,
R211). -/
def dropPartial (u : Unp) : Unp := if u.aggActive then accSet frameCorrupted (aggReset u) else u

/-- Step 1: a changed timestamp flushes what is accumulated (41_unpacker.md R202). -/
def tsFlush (ts : BitVec 32) (s : State) : State × Status :=
  match s.unp.lastTs with
  | none => (s, 0)
  | some t₀ =>
    if ts ≠ t₀ ∧ (s.unp.rq ≠ [] ∨ s.unp.aggActive = true) then outputFrame (s.mapUnp dropPartial) else (s, 0)

/-- `SeqCheck(seq)`: any number but the expected next one is a gap, and becomes the reference (41_unpacker.md R203). -/
def seqCheck (seq : BitVec 16) (u : Unp) : Unp :=
  match u.refSeq with
  | none => { u with refSeq := some seq }
  | some ref => { accSet (flagIf (seq != ref + 1) frameCorrupted) u with refSeq := some seq }

/-- What the aggregator answered, taken over: its corruption, then its completed NALU (41_unpacker.md R204). -/
def takeAgg (c : Config) (r : AggResult) : Unp :=
  let u := accSet (flagIf r.corrupt frameCorrupted) r.unp
  match r.done with
  | none => u
  | some n => storeNal c n u

/-- `Dispatch(p)`: an empty payload, an FU-A fragment, a STAP-A aggregate or a raw NALU (41_unpacker.md R204, R205;
30_encoding.md R136). -/
def dispatchPayload (c : Config) (p : Bytes) (u : Unp) : Unp :=
  if p = [] then accSet frameCorrupted (aggDrop u)
  else if nalType p = typeFuA then takeAgg c (aggFeed c.maxNalu p u)
  else if nalType p = typeStapA then
    let split := stapSplit p
    split.1.foldl (fun w n => storeNal c n w) (accSet (flagIf split.2 frameCorrupted) (dropPartial u))
  else storeNal c p (dropPartial u)

/-- Step 4: the marker ends the frame (41_unpacker.md R210, R211). -/
def markerOutput (m : Bool) (s : State) : State × Status :=
  if m then outputFrame (s.mapUnp dropPartial) else (s, 0)

/-- The steps of `UNP.PACKET`: the state after, and the call status, the OR of the statuses of the frames output
(41_unpacker.md R200, R201). -/
def packetSteps (seq : BitVec 16) (ts : BitVec 32) (m : Bool) (p : Bytes) (s : State) : State × Status :=
  let flushed := tsFlush ts s
  let stored := flushed.1.mapUnp fun u =>
    dispatchPayload s.cfg p (seqCheck seq { u with lastTs := some ts })
  let marked := markerOutput m stored
  (marked.1, flushed.2 ||| marked.2)

/-- `UNP.PACKET seq, ts, m, [p]` (41_unpacker.md R200; 30_encoding.md R117 for `LEN > P_MAX_PAYLOAD`). -/
def execUnpPacket (seq : BitVec 16) (ts : BitVec 32) (m : Bool) (p : Bytes) (s : State) : Outcome :=
  if s.cfg.maxPayload < p.length then raise .illegal s
  else
    let done := packetSteps seq ts m p s
    finish (BitVec.zeroExtend 32 done.2) [] done.1

/-! ### The other reassembler commands -/

/-- Inject an out-of-band set of kind `k`: rejected when empty, of another type or over `P_MAX_NALU` (41_unpacker.md R225,
R226). -/
def injectPs (k : PsKind) (p : Bytes) (s : State) : Outcome :=
  if p = [] ∨ nalType p ≠ psType k ∨ s.cfg.maxNalu < p.length then raise .rejected s
  else finish 0 [] (s.mapUnp fun u => u.setPs k { u.ps k with live := some p, source := .oob, oobPending := true })

/-- `UNP.SETSPS [p]` (41_unpacker.md R225). -/
def execUnpSetSps (p : Bytes) (s : State) : Outcome := injectPs .sps p s

/-- `UNP.SETPPS [p]` (41_unpacker.md R226). -/
def execUnpSetPps (p : Bytes) (s : State) : Outcome := injectPs .pps p s

/-- `UNP.RESET` (41_unpacker.md R231). -/
def execUnpReset (s : State) : Outcome :=
  finish 0 [] (s.mapUnp fun u => { aggReset u with rq := [], acc := 0, lastTs := none, refSeq := none })

/-- `UNP.POP` (41_unpacker.md R233). -/
def execUnpPop (s : State) : Outcome :=
  match s.unp.outq with
  | [] => raise .empty s
  | e :: more => finish (popValue e.eof e.fstatus) e.nalu (s.mapUnp fun u => { u with outq := more })

end Sys2Proof.Machine
end

