-- ==== Sys2Proof/Machine/Dispatch.lean ====
section
/-! DEFINITION. The one dispatch: each command to its meaning. -/

namespace Sys2Proof.Machine

def exec (i : Instr) (s : State) : Host.Outcome State Fault Refusal :=
  match i with
  | .unpPacket seq ts m p => Sys2Proof.Machine.execUnpPacket seq ts m p s
  | .unpSetSps p => Sys2Proof.Machine.execUnpSetSps p s
  | .unpSetPps p => Sys2Proof.Machine.execUnpSetPps p s
  | .unpReset => Sys2Proof.Machine.execUnpReset s
  | .unpPop => Sys2Proof.Machine.execUnpPop s
  | .mixPreprocess => Sys2Proof.Machine.execMixPreprocess s
  | .mixTick now => Sys2Proof.Machine.execMixTick now s
  | .mixPostprocess => Sys2Proof.Machine.execMixPostprocess s
  | .mixSetRate r => Sys2Proof.Machine.execMixSetRate r s
  | .mixGetRate => Sys2Proof.Machine.execMixGetRate s
  | .mixSetNch n => Sys2Proof.Machine.execMixSetNch n s
  | .mixGetNch => Sys2Proof.Machine.execMixGetNch s
  | .mixSetConf en => Sys2Proof.Machine.execMixSetConf en s
  | .mixSetActive port en => Sys2Proof.Machine.execMixSetActive port en s
  | .mixSetOutput port en => Sys2Proof.Machine.execMixSetOutput port en s
  | .mixSetMaster port => Sys2Proof.Machine.execMixSetMaster port s
  | .mixPush port d => Sys2Proof.Machine.execMixPush port d s
  | .mixPop port => Sys2Proof.Machine.execMixPop port s
  | .sysFault => Sys2Proof.Machine.execSysFault s

end Sys2Proof.Machine
end

