-- ==== Sys2Proof/Machine/Step.lean ====
section
/-! DEFINITION. One step: the next command of the host's sequence, executed to completion (00_scope.md R5, 10_state.md R21). -/

namespace Sys2Proof.Machine

/-- One step. With no complete command at the port the block waits (60_exceptions.md R317, 70_reset_and_hazards.md R331); an
illegal one is consumed and answered `ILLEGAL` (30_encoding.md R116, R117); any other runs. -/
def step (s : State) : Host.Outcome State Fault Refusal :=
  match fetch s.cmd with
  | .wait => .next s
  | .illegal _ rest => raise .illegal { s with cmd := rest }
  | .decoded i rest => exec i { s with cmd := rest }

/-- The words of a numbered instruction written at the head of the port, where the next step fetches. -/
def State.withFetchWord (s : State) (nbits w : Nat) : State := { s with cmd := tableWords nbits w ++ s.cmd }

end Sys2Proof.Machine
end

