-- ==== Sys2Proof/Safety.lean ====
section
/-! DEFINITION. The terms the statements use: the invariants the spec gives the state, what a run without overflow is, and the
quantities a mix tick's result is stated in. -/

namespace Sys2Proof.Machine

/-! ### Invariants -/

/-- A parameter set's registers: a pending set is live and injected (41_unpacker.md R213), and what is kept is a NALU of the
kind's type (R207, R208, R225). -/
structure ParamSetInv (k : PsKind) (r : ParamSet) : Prop where
  pendingIsLive : r.oobPending = true → r.live.isSome = true ∧ r.source = .oob
  liveTyped : ∀ n, r.live = some n → n ≠ [] ∧ nalType n = psType k
  lastTyped : ∀ n, r.last = some n → n ≠ [] ∧ nalType n = psType k

/-- What the spec says of the reassembler's registers in every state (10_state.md R25 to R34, 40_fua_stapa.md R168). -/
structure UnpInv (c : Config) (u : Unp) : Prop where
  /-- a stored NALU has a header byte (R25) -/
  rqNonempty : ∀ n ∈ u.rq, n ≠ []
  /-- an idle aggregator holds nothing (R26) -/
  idleEmpty : u.aggActive = false → u.aggBuf = []
  /-- a partial NALU has its header byte (R26) and is not over `P_MAX_NALU` (40_fua_stapa.md R168) -/
  partialSized : u.aggActive = true → u.aggBuf ≠ [] ∧ u.aggBuf.length ≤ c.maxNalu
  /-- only `FrameCorrupted`, `NewSPS` and `NewPPS` are ever pending (R27) -/
  pendingBits : u.acc &&& 0xE5 = 0
  spsInv : ParamSetInv .sps u.sps
  ppsInv : ParamSetInv .pps u.pps
  /-- the output queue keeps its capacity (R34) -/
  outqFits : fits c.unpOutqCap u.outq.length = true
  outqNonempty : ∀ e ∈ u.outq, e.nalu ≠ []

/-- What the spec says of one port in every state: its queues and bufferizer keep their capacities (10_state.md R49, R53, R54),
and its times are not after the last tick's (R44, R50, R52). -/
structure PortInv (c : Config) (lastNow : Option (BitVec 64)) (q : Port) : Prop where
  inqFits : fits c.mixInqCap q.inq.length = true
  outqFits : fits c.mixOutqCap q.outq.length = true
  bufFits : fits c.mixBufCap q.buf.length = true
  timesPast : ∀ t, q.lastSeen = some t ∨ q.lastFc = some t → ∃ now, lastNow = some now ∧ t.toNat ≤ now.toNat

/-- A channel as `MIX.PREPROCESS` and `MIX.POSTPROCESS` leave it (42_mixer.md R250, R252). -/
def channelClear (q : Port) : Prop := q.buf = [] ∧ q.lastSeen = none ∧ q.minFull = none ∧ q.lastFc = none

/-- A legal sample rate (10_state.md R40). -/
def legalRate (c : Config) (r : BitVec 32) : Prop := r ≠ 0 ∧ r.toNat % c.rateStep = 0

/-- A legal channel count (10_state.md R41). -/
def legalNch (c : Config) (n : BitVec 16) : Prop := 1 ≤ n.toNat ∧ n.toNat ≤ c.maxNch

/-- What the spec says of the summer's registers in every state (10_state.md R40 to R54). -/
structure MixInv (c : Config) (m : Mix) : Prop where
  portCount : m.ports.length = c.nports
  rateLegal : legalRate c m.rate
  nchLegal : legalNch c m.nch
  runRateLegal : legalRate c m.runRate
  runNchLegal : legalNch c m.runNch
  bypassIsPort : ∀ p, m.bypass = some p → p < c.nports
  stoppedClear : m.running = false → m.bypass = none ∧ ∀ q ∈ m.ports, channelClear q
  portsInv : ∀ q ∈ m.ports, PortInv c m.lastNow q

/-- `FAULT[31:3]` is never set (10_state.md R24). -/
def faultBitsLegal (f : BitVec 32) : Prop := f &&& 0xFFFFFFF8 = 0

/-- The whole state is as the spec says a state is. -/
structure State.Inv (s : State) : Prop where
  cfgLegal : s.cfg.WF
  faultLegal : faultBitsLegal s.fault
  unpInv : UnpInv s.cfg s.unp
  mixInv : MixInv s.cfg s.mix

/-! ### Runs -/

/-- No capacity is bounded, so nothing can overflow (10_state.md R24). -/
def State.unbounded (s : State) : Prop :=
  s.cfg.unpOutqCap = none ∧ s.cfg.mixInqCap = none ∧ s.cfg.mixOutqCap = none ∧ s.cfg.mixBufCap = none

/-- Nothing has overflowed: the premise of a claim about a run under bounded capacities (60_exceptions.md R309). -/
def State.noOverflow (s : State) : Prop := s.fault = 0

/-- Execute commands in order, stopping at the first that stops. -/
def runCommands : List Instr → State → Outcome
  | [], s => .next s
  | i :: more, s =>
    match exec i s with
    | .next t => runCommands more t
    | .fault f => .fault f
    | .refused r => .refused r

/-! ### Instructions by unit -/

/-- The bytes a command carries as payload (30_encoding.md R112). -/
def payloadOf : Instr → Bytes
  | .unpPacket _ _ _ p => p
  | .unpSetSps p => p
  | .unpSetPps p => p
  | .mixPush _ d => d
  | .unpReset | .unpPop | .mixPreprocess | .mixTick _ | .mixPostprocess | .mixSetRate _ | .mixGetRate | .mixSetNch _
  | .mixGetNch | .mixSetConf _ | .mixSetActive _ _ | .mixSetOutput _ _ | .mixSetMaster _ | .mixPop _ | .sysFault => []

/-- The unit a command belongs to (60_exceptions.md R315); `SYS.FAULT` belongs to neither. -/
inductive CommandUnit where
  | unp | mix | sys
  deriving DecidableEq, Repr

/-- The command's unit, by its opcode (30_encoding.md R115). -/
def unitOf : Instr → CommandUnit
  | .unpPacket _ _ _ _ | .unpSetSps _ | .unpSetPps _ | .unpReset | .unpPop => .unp
  | .mixPreprocess | .mixTick _ | .mixPostprocess | .mixSetRate _ | .mixGetRate | .mixSetNch _ | .mixGetNch
  | .mixSetConf _ | .mixSetActive _ _ | .mixSetOutput _ _ | .mixSetMaster _ | .mixPush _ _ | .mixPop _ => .mix
  | .sysFault => .sys

/-- The one-word command `h` is answered `ILLEGAL`, consumed, and changes nothing (30_encoding.md R116, R117). -/
def answeredIllegal (h : Word) : Prop :=
  ∀ s rest, s.cmd = h :: rest → step s = .next { s with cmd := rest, resp := s.resp ++ [⟨.illegal, 0, []⟩] }

/-! ### A packet's situation -/

/-- The packet's timestamp flushes nothing: it is the one under accumulation, or there is none, or nothing is accumulated
(41_unpacker.md R202). -/
def noFlush (ts : BitVec 32) (u : Unp) : Prop :=
  u.lastTs = none ∨ u.lastTs = some ts ∨ (u.rq = [] ∧ u.aggActive = false)

/-- The sequence number is not the expected one (41_unpacker.md R203). -/
def isGap (seq : BitVec 16) (u : Unp) : Bool :=
  match u.refSeq with
  | none => false
  | some ref => seq != ref + 1

/-- A NALU stored with no other effect: not a parameter set, a fragment or an aggregate (41_unpacker.md R204, R206). -/
def isPlainNal (p : Bytes) : Prop :=
  p ≠ [] ∧ nalType p ≠ typeSps ∧ nalType p ≠ typePps ∧ nalType p ≠ typeStapA ∧ nalType p ≠ typeFuA

/-- The registers of a kind of parameter set after the sets of that kind among stored NALUs: the last one is live and noted,
and a pending injection is cancelled (41_unpacker.md R207, R208, R227). -/
def trackedSet (r : ParamSet) (sets : List Bytes) : ParamSet :=
  match sets.getLast? with
  | none => r
  | some n => ⟨some n, .inBand, false, some n⟩

/-- Some set differs from the one noted before it; the first ever noted counts if the parameters say so (41_unpacker.md R208,
R209). -/
def raisesNew (firstIsNew : Bool) : Option Bytes → List Bytes → Bool
  | _, [] => false
  | none, n :: more => firstIsNew || raisesNew firstIsNew (some n) more
  | some old, n :: more => n != old || raisesNew firstIsNew (some n) more

/-- The reassembler after NALUs were stored, in order: all of them in the frame, the parameter sets among them tracked
(41_unpacker.md R206 to R209). -/
def withStored (c : Config) (ns : List Bytes) (u : Unp) : Unp :=
  let spss := ns.filter fun n => nalType n == 7
  let ppss := ns.filter fun n => nalType n == 8
  { u with
    rq := u.rq ++ ns
    sps := trackedSet u.sps spss
    pps := trackedSet u.pps ppss
    acc := u.acc ||| flagIf (raisesNew c.firstPsNew u.sps.last spss) 0x08
      ||| flagIf (raisesNew c.firstPsNew u.pps.last ppss) 0x10 }

/-- The status and NALUs of the frame that output makes of `u`: none when nothing is stored, else the injected sets and the
stored NALUs (41_unpacker.md R212, R213, R217). -/
def outputOf (c : Config) (u : Unp) : Option (Status × List Bytes) :=
  if u.rq = [] then none
  else
    let frame := (oobPrefix c u).1 ++ u.rq
    some (frameStatus c (oobPrefix c u).2 frame, frame)

/-- A frame's turn at the output queue: it enters whole when its NALUs fit the capacity behind the entries held, else it is
dropped, which the Boolean records (41_unpacker.md R216). -/
def enqueueFrame (cap : Option Nat) (q : List OutEntry × Bool) (f : Status × List Bytes) : List OutEntry × Bool :=
  if fits cap (q.1.length + f.2.length) then (q.1 ++ frameEntries f.1 f.2, q.2) else (q.1, true)

/-- The size-prefixed form of a STAP-A unit (30_encoding.md R135). -/
def packUnit (n : Bytes) : Bytes := BitVec.ofNat 8 (n.length / 256) :: BitVec.ofNat 8 (n.length % 256) :: n

/-! ### A mix tick's quantities (42_mixer.md R263, R268, R270) -/

/-- What of `xs`, put one by one behind `held` entries, a capacity lets in; `none` is unbounded. -/
def takeRoom {α : Type} (cap : Option Nat) (held : Nat) (xs : List α) : List α :=
  match cap with
  | none => xs
  | some k => xs.take (k - held)

/-- The bytes offered to port `i`'s bufferizer in the tick: what it holds and the queued packets, in order. -/
def offeredInput (s : State) (i : Nat) : Bytes := (s.port i).buf ++ (s.port i).inq.flatten

/-- The bytes port `i` has for the tick: those offered, up to `P_MIX_BUF_CAP`. -/
def tickInput (s : State) (i : Nat) : Bytes := takeRoom s.cfg.mixBufCap 0 (offeredInput s i)

/-- `CONTRIB`: the active ports with a whole tick of bytes. -/
def contributors (now : BitVec 64) (s : State) : List Nat :=
  (activePorts now s).filter fun i => decide (s.tickBytes ≤ (tickInput s i).length)

/-- `C[i][k]`, sample `k` of port `i`'s tick, as a number. -/
def contribution (s : State) (i k : Nat) : Int := ((samplesOf ((tickInput s i).take s.tickBytes)).getD k 0).toInt

/-- The exact sum of the ports' samples `k`. -/
def exactSum (s : State) (ports : List Nat) (k : Nat) : Int := (ports.map fun i => contribution s i k).sum

/-- The ports summed for output `o`: every contributor, but in conferencing mode not `o` itself. -/
def mixedFor (now : BitVec 64) (s : State) (o : Nat) : List Nat :=
  (contributors now s).filter fun i => !(s.mix.conf && i == o)

/-- The exact sum of the samples `k` of some contributions. -/
def sampleSum (cs : List (List Sample)) (k : Nat) : Int := (cs.map fun c : List Sample => (c.getD k 0).toInt).sum

/-- A tick that is accepted: running, and the time does not go back (42_mixer.md R253). -/
def tickAccepted (now : BitVec 64) (s : State) : Prop := s.mix.running = true ∧ timeGoesBack now s = false

end Sys2Proof.Machine
end

