-- ==== Sys2Proof/Certificates/Slice0/Obligations.lean ====
section
/-! DEFINITION. The statements for the provers. Each docstring names the rules of spec/ it formalises. -/

open Sys2Proof Sys2Proof.Machine

/-! ### Encoding (30_encoding.md part 1) -/

/-- Words written out from 30_encoding.md R111 to R115 decode to the commands they stand for, one of each format. -/
def Obligations.WrittenWordsDecode : Prop :=
  decodeCommand [0x01010001, 0x00000BB8, 0x00000002, 0x65880000] = .ok (.unpPacket 1 3000 true [0x65, 0x88]) ∧
  decodeCommand [0x02000004, 0x6742001F] = .ok (.unpSetSps [0x67, 0x42, 0x00, 0x1F]) ∧
  decodeCommand [0x05000000] = .ok .unpPop ∧
  decodeCommand [0x11000000, 0x00000001, 0x00000005] = .ok (.mixTick 0x100000005) ∧
  decodeCommand [0x13000000, 0x00003E80] = .ok (.mixSetRate 16000) ∧
  decodeCommand [0x18030001] = .ok (.mixSetActive 3 true) ∧
  decodeCommand [0x1B010004, 0x64006400] = .ok (.mixPush 1 [0x64, 0x00, 0x64, 0x00]) ∧
  decodeCommand [0x20000000] = .ok .sysFault

/-- Fetching what the encoder writes gives the command back and leaves what follows it (30_encoding.md R110 to R116), for
every command whose payload fits its length field. -/
def Obligations.FetchOfEncodeIsTheCommand : Prop :=
  ∀ (i : Instr) (rest : List Word), i.encodable = true → fetch (encode i ++ rest) = .decoded i rest

/-- Words fetched as a command are that command's encoding, but for the padding bytes of the last payload word, which the
block ignores: a last word with `r` payload bytes, `r` from 1 to 3, agrees with the encoding's on those bytes (30_encoding.md
R112, R113). -/
def Obligations.FetchedWordsAreTheEncoding : Prop :=
  ∀ (ws : List Word) (i : Instr) (rest : List Word), fetch ws = .decoded i rest →
    i.encodable = true ∧
    ∃ used, ws = used ++ rest ∧ used.length = (encode i).length ∧
      (∀ j, j + 1 < used.length → used[j]? = (encode i)[j]?) ∧
      ((payloadOf i).length % 4 = 0 → used = encode i) ∧
      ∀ w e b, used.getLast? = some w → (encode i).getLast? = some e → b < (payloadOf i).length % 4 →
        w.extractLsb' (24 - 8 * b) 8 = e.extractLsb' (24 - 8 * b) 8

/-- A header that has a row's fixed bits is selected by its opcode to that row, so no header has two rows (30_encoding.md
R115). -/
def Obligations.HeaderMatchesOneRow : Prop :=
  ∀ (h : Word) (o : Op), o.matchesHeader h = true → Op.ofHeader h = some o ∧ ∀ o' : Op, o'.matchesHeader h = true → o' = o

/-- Payload packing, both ways (30_encoding.md R113): byte `j` stands in word `j div 4`, first byte most significant; padding
is written as zero and ignored when read. A response's words are `CODE ‖ 0x000000`, `VALUE`, `PLEN` and its payload packed
the same way (R118; the code numbers, 60_exceptions.md R300). -/
def Obligations.PayloadBytesStandInTheirWords : Prop :=
  (∀ p : Bytes,
    (packBytes p).length = (p.length + 3) / 4 ∧
    (∀ j b, p[j]? = some b → ∃ w, (packBytes p)[j / 4]? = some w ∧ w.extractLsb' (24 - 8 * (j % 4)) 8 = b) ∧
    (∀ j, p.length ≤ j → j < 4 * ((p.length + 3) / 4) →
      ∃ w, (packBytes p)[j / 4]? = some w ∧ w.extractLsb' (24 - 8 * (j % 4)) 8 = 0)) ∧
  (∀ (n : Nat) (ws : List Word), n ≤ 4 * ws.length →
    (unpackBytes n ws).length = n ∧
    ∀ j w, j < n → ws[j / 4]? = some w → (unpackBytes n ws)[j]? = some (w.extractLsb' (24 - 8 * (j % 4)) 8)) ∧
  (∀ r : Response,
    responseWords r =
      (respCodeByte r.code ++ 0#24) :: r.value :: BitVec.ofNat 32 r.payload.length :: packBytes r.payload) ∧
  [RespCode.ok, .rejected, .illegal, .empty, .state, .full].map respCodeByte = [0, 1, 2, 3, 4, 5]

/-- A command whose header matches no row is answered `ILLEGAL` and changes nothing but the port; its length by opcode and
`LEN` is consumed all the same: 1 word for an unlisted opcode and formats N and I, 2 for W, 3 for T, `1 + ceil(LEN/4)` for D
and `3 + ceil(LEN/4)` for P (30_encoding.md R116, R117). -/
def Obligations.UnlistedHeaderIsConsumedAndIllegal : Prop :=
  ∀ (s : State) (h : Word) (ops : List Word) (n : Nat), s.cmd = h :: ops →
    (∀ o : Op, o.matchesHeader h = false) → n ≤ s.cmd.length →
    (headerOpc h ∉ [0x01#8, 0x02#8, 0x03#8, 0x11#8, 0x13#8, 0x1B#8] ∧ n = 1) ∨
    (headerOpc h = 0x13 ∧ n = 2) ∨
    (headerOpc h = 0x11 ∧ n = 3) ∨
    (headerOpc h ∈ [0x02#8, 0x03#8] ∧ n = 1 + ((headerImm h).toNat + 3) / 4) ∨
    (headerOpc h = 0x01 ∧ ∃ ts len more, ops = ts :: len :: more ∧ n = 3 + (len.toNat + 3) / 4) →
    step s = .next { s with cmd := s.cmd.drop n, resp := s.resp ++ [⟨.illegal, 0, []⟩] }

/-! ### The step -/

/-- A step runs the command at the port and consumes an illegal one (00_scope.md R5, 30_encoding.md R116). That it waits,
unchanged, while no whole command is at the port is the model's choice (notes/assumptions/1.md). -/
def Obligations.StepRunsTheFetchedCommand : Prop :=
  ∀ s : State,
    (∀ i rest, fetch s.cmd = .decoded i rest → step s = exec i { s with cmd := rest }) ∧
    (∀ e rest, fetch s.cmd = .illegal e rest →
      step s = .next { s with cmd := rest, resp := s.resp ++ [⟨.illegal, 0, []⟩] }) ∧
    (fetch s.cmd = .wait → step s = .next s)

/-- Every command, legal or not, gives exactly one response, and changes neither the words after it nor the parameters
(00_scope.md R5, 10_state.md R22, 30_encoding.md R118). -/
def Obligations.EveryCommandGivesOneResponse : Prop :=
  ∀ s : State,
    (∀ i rest, fetch s.cmd = .decoded i rest →
      ∃ t r, step s = .next t ∧ t.cmd = rest ∧ t.cfg = s.cfg ∧ t.resp = s.resp ++ [r]) ∧
    (∀ e rest, fetch s.cmd = .illegal e rest →
      ∃ t r, step s = .next t ∧ t.cmd = rest ∧ t.cfg = s.cfg ∧ t.resp = s.resp ++ [r])

/-- Every command completes, and one that answers a code other than `OK` has value 0, no payload, and changes nothing
(60_exceptions.md R300, R304). -/
def Obligations.ErrorResponseChangesNothing : Prop :=
  ∀ (i : Instr) (s : State), ∃ t r, exec i s = .next t ∧ t.resp = s.resp ++ [r] ∧
    (r.code ≠ .ok → r.value = 0 ∧ r.payload = [] ∧ t = { s with resp := s.resp ++ [r] })

/-- A set `FAULT` bit stays set until the block reset (60_exceptions.md R309), and the reserved bits stay 0 (10_state.md R24).
That a step answers a next state in every state is the model's inference (notes/assumptions/9.md). -/
def Obligations.FaultBitsAreSticky : Prop :=
  (∀ s : State, ∃ t, step s = .next t ∧ s.fault &&& t.fault = s.fault ∧
    (faultBitsLegal s.fault → faultBitsLegal t.fault)) ∧
  ∀ s : State, s.blockReset.fault = 0

/-- With every capacity unbounded, no command sets a `FAULT` bit (10_state.md R24). -/
def Obligations.NoFaultBitWithoutACapacity : Prop :=
  ∀ s t : State, s.unbounded → step s = .next t → t.fault = s.fault

/-- A command of one unit neither changes nor reads the other unit's state (60_exceptions.md R315). -/
def Obligations.UnitsDoNotSeeEachOther : Prop :=
  (∀ (i : Instr) (s : State) (m : Mix), unitOf i = .unp →
    ∃ t, exec i s = .next t ∧ t.mix = s.mix ∧ exec i { s with mix := m } = .next { t with mix := m }) ∧
  (∀ (i : Instr) (s : State) (u : Unp), unitOf i = .mix →
    ∃ t, exec i s = .next t ∧ t.unp = s.unp ∧ exec i { s with unp := u } = .next { t with unp := u })

/-- A queued output is never changed: `UNP.POP` removes the head of `UNP.OUTQ` and `MIX.POP p` that of port `p`'s output
queue, and nothing else; `UNP.PACKET` only adds at the tail of `UNP.OUTQ`, `MIX.TICK` only at the tail of the ports' queues;
no other command touches an output queue (20_memory.md R91, 70_reset_and_hazards.md R342). -/
def Obligations.OutputQueuesKeepWhatTheyHold : Prop :=
  ∀ (i : Instr) (s : State), ∃ t, exec i s = .next t ∧
    (i = .unpPop → t.unp.outq = s.unp.outq.tail) ∧
    ((∃ seq ts m p, i = .unpPacket seq ts m p) → ∃ es, t.unp.outq = s.unp.outq ++ es) ∧
    (i ≠ .unpPop → (∀ seq ts m p, i ≠ .unpPacket seq ts m p) → t.unp.outq = s.unp.outq) ∧
    ∀ p,
      (∀ q, i = .mixPop q →
        (t.port p).outq = if q.toNat = p ∧ p < s.cfg.nports then (s.port p).outq.tail else (s.port p).outq) ∧
      ((∃ now, i = .mixTick now) → ∃ es, (t.port p).outq = (s.port p).outq ++ es) ∧
      ((∀ q, i ≠ .mixPop q) → (∀ now, i ≠ .mixTick now) → (t.port p).outq = (s.port p).outq)

/-- Each control register of the summer is written by its own command alone (10_state.md R40 to R43, R46 to R48). -/
def Obligations.ControlRegistersHaveOneWriter : Prop :=
  ∀ (i : Instr) (s : State), ∃ t, exec i s = .next t ∧
    ((∀ r, i ≠ .mixSetRate r) → t.mix.rate = s.mix.rate) ∧
    ((∀ n, i ≠ .mixSetNch n) → t.mix.nch = s.mix.nch) ∧
    ((∀ en, i ≠ .mixSetConf en) → t.mix.conf = s.mix.conf) ∧
    (i ≠ .mixPreprocess → i ≠ .mixPostprocess → t.mix.running = s.mix.running) ∧
    (i ≠ .mixPreprocess → t.mix.runRate = s.mix.runRate ∧ t.mix.runNch = s.mix.runNch) ∧
    ((∀ p en, i ≠ .mixSetActive p en) → ∀ p, (t.port p).active = (s.port p).active) ∧
    ((∀ p en, i ≠ .mixSetOutput p en) → ∀ p, (t.port p).outEn = (s.port p).outEn)

/-! ### Invariants and reset -/

/-- Every step keeps what the spec says of the reassembler's registers (10_state.md R25 to R34, 41_unpacker.md R213). -/
def Obligations.StepKeepsReassemblerInvariant : Prop :=
  ∀ s t : State, UnpInv s.cfg s.unp → step s = .next t → UnpInv t.cfg t.unp

/-- Every step keeps what the spec says of the summer's registers and ports (10_state.md R40 to R54). -/
def Obligations.StepKeepsSummerInvariant : Prop :=
  ∀ s t : State, MixInv s.cfg s.mix → step s = .next t → MixInv t.cfg t.mix

/-- The state after reset is as the spec says a state is. The parameters it has are the model's choice
(notes/assumptions/3.md). -/
def Obligations.ResetMeetsTheInvariants : Prop := State.reset.Inv

/-- After the block reset every state element has its value of 10_state.md R58; the parameters stay (70_reset_and_hazards.md
R330). `State.reset` has the same values. -/
def Obligations.BlockResetValues : Prop :=
  ∀ s t : State, t = s.blockReset ∨ t = State.reset →
    t.fault = 0 ∧
    t.unp.rq = [] ∧ t.unp.aggActive = false ∧ t.unp.aggBuf = [] ∧ t.unp.acc = 0x00 ∧
    t.unp.lastTs = none ∧ t.unp.refSeq = none ∧
    t.unp.sps.live = none ∧ t.unp.sps.source = .inBand ∧ t.unp.sps.oobPending = false ∧
    t.unp.pps.live = none ∧ t.unp.pps.source = .inBand ∧ t.unp.pps.oobPending = false ∧
    t.unp.sps.last = none ∧ t.unp.pps.last = none ∧ t.unp.outq = [] ∧
    t.mix.rate = 8000 ∧ t.mix.nch = 1 ∧ t.mix.runRate = 8000 ∧ t.mix.runNch = 1 ∧
    t.mix.conf = false ∧ t.mix.running = false ∧ t.mix.lastNow = none ∧ t.mix.bypass = none ∧
    t.mix.ports.length = t.cfg.nports ∧
    (∀ q ∈ t.mix.ports, q.active = true ∧ q.outEn = true ∧ q.buf = [] ∧ q.lastSeen = none ∧ q.minFull = none ∧
      q.lastFc = none ∧ q.inq = [] ∧ q.outq = []) ∧
    (t = s.blockReset → t.cfg = s.cfg)

/-! ### Summer control commands (42_mixer.md section 2) -/

/-- `MIX.SETACTIVE p, en` (42_mixer.md R247): the active flag of channel `p`, nothing else; illegal for a port out of range or
a header with `IMM[15:1]` not 0. -/
def Obligations.SetActiveWritesTheFlag : Prop :=
  ∀ (port : Byte) (en : Bool) (s : State),
    encode (.mixSetActive port en) = [0x18#8 ++ port ++ 0#15 ++ BitVec.ofBool en] ∧
    (port.toNat < s.cfg.nports →
      exec (.mixSetActive port en) s = .next { s with
        resp := s.resp ++ [⟨.ok, 0, []⟩]
        mix := { s.mix with ports := s.mix.ports.modify port.toNat fun q => { q with active := en } } }) ∧
    (s.cfg.nports ≤ port.toNat →
      exec (.mixSetActive port en) s = .next { s with resp := s.resp ++ [⟨.illegal, 0, []⟩] }) ∧
    ∀ h : Word, headerOpc h = 0x18 → h.extractLsb' 1 15 ≠ 0 → answeredIllegal h

/-- `MIX.SETOUTPUT p, en` (42_mixer.md R248): the output-enabled flag of port `p`, nothing else; illegal for a port out of
range or a header with `IMM[15:1]` not 0. -/
def Obligations.SetOutputWritesTheFlag : Prop :=
  ∀ (port : Byte) (en : Bool) (s : State),
    encode (.mixSetOutput port en) = [0x19#8 ++ port ++ 0#15 ++ BitVec.ofBool en] ∧
    (port.toNat < s.cfg.nports →
      exec (.mixSetOutput port en) s = .next { s with
        resp := s.resp ++ [⟨.ok, 0, []⟩]
        mix := { s.mix with ports := s.mix.ports.modify port.toNat fun q => { q with outEn := en } } }) ∧
    (s.cfg.nports ≤ port.toNat →
      exec (.mixSetOutput port en) s = .next { s with resp := s.resp ++ [⟨.illegal, 0, []⟩] }) ∧
    ∀ h : Word, headerOpc h = 0x19 → h.extractLsb' 1 15 ≠ 0 → answeredIllegal h

/-- `MIX.SETCONF en` (42_mixer.md R249): the conferencing mode, nothing else; illegal for a header with `IDX` or `IMM[15:1]`
not 0. -/
def Obligations.SetConfWritesTheMode : Prop :=
  ∀ (en : Bool) (s : State),
    encode (.mixSetConf en) = [0x17#8 ++ 0#8 ++ 0#15 ++ BitVec.ofBool en] ∧
    exec (.mixSetConf en) s = .next { s with
      resp := s.resp ++ [⟨.ok, 0, []⟩]
      mix := { s.mix with conf := en } } ∧
    ∀ h : Word, headerOpc h = 0x17 → headerIdx h ≠ 0 ∨ h.extractLsb' 1 15 ≠ 0 → answeredIllegal h

/-- `MIX.SETMASTER p` does nothing (42_mixer.md R258); illegal for a port out of range. -/
def Obligations.SetMasterDoesNothing : Prop :=
  ∀ (port : Byte) (s : State),
    encode (.mixSetMaster port) = [0x1A#8 ++ port ++ 0#16] ∧
    (port.toNat < s.cfg.nports →
      exec (.mixSetMaster port) s = .next { s with resp := s.resp ++ [⟨.ok, 0, []⟩] }) ∧
    (s.cfg.nports ≤ port.toNat →
      exec (.mixSetMaster port) s = .next { s with resp := s.resp ++ [⟨.illegal, 0, []⟩] })

/-- `MIX.SETRATE r` and `MIX.GETRATE` (42_mixer.md R257, R254): a positive multiple of `P_RATE_STEP` is stored, another value
rejected with the prior rate kept; the read returns the configured rate. -/
def Obligations.SampleRateIsSetOrRejected : Prop :=
  ∀ (r : BitVec 32) (s : State),
    encode (.mixSetRate r) = [0x13000000, r] ∧ encode .mixGetRate = [0x14000000] ∧
    (r ≠ 0 → s.cfg.rateStep ∣ r.toNat →
      exec (.mixSetRate r) s = .next { s with resp := s.resp ++ [⟨.ok, 0, []⟩], mix := { s.mix with rate := r } }) ∧
    (r = 0 ∨ ¬ s.cfg.rateStep ∣ r.toNat →
      exec (.mixSetRate r) s = .next { s with resp := s.resp ++ [⟨.rejected, 0, []⟩] }) ∧
    exec .mixGetRate s = .next { s with resp := s.resp ++ [⟨.ok, s.mix.rate, []⟩] }

/-- `MIX.SETNCH n` and `MIX.GETNCH` (42_mixer.md R255, R256): 1 to `P_MAX_NCH` is stored, another value rejected; illegal for
a header with `IDX` not 0; the read returns the configured count. -/
def Obligations.ChannelCountIsSetOrRejected : Prop :=
  ∀ (n : BitVec 16) (s : State),
    encode (.mixSetNch n) = [0x15#8 ++ 0#8 ++ n] ∧ encode .mixGetNch = [0x16000000] ∧
    (1 ≤ n.toNat → n.toNat ≤ s.cfg.maxNch →
      exec (.mixSetNch n) s = .next { s with resp := s.resp ++ [⟨.ok, 0, []⟩], mix := { s.mix with nch := n } }) ∧
    (n = 0 ∨ s.cfg.maxNch < n.toNat →
      exec (.mixSetNch n) s = .next { s with resp := s.resp ++ [⟨.rejected, 0, []⟩] }) ∧
    (∀ h : Word, headerOpc h = 0x15 → headerIdx h ≠ 0 → answeredIllegal h) ∧
    exec .mixGetNch s = .next { s with resp := s.resp ++ [⟨.ok, 0#16 ++ s.mix.nch, []⟩] }

/-- `MIX.PREPROCESS` (42_mixer.md R250): latches the rate and channel count and clears every channel's tick state, keeping the
flags, the mode and the queues; `STATE` when already running. -/
def Obligations.PreprocessLatchesAndClears : Prop :=
  ∀ s : State,
    encode .mixPreprocess = [0x10000000] ∧
    (s.mix.running = true → exec .mixPreprocess s = .next { s with resp := s.resp ++ [⟨.state, 0, []⟩] }) ∧
    (s.mix.running = false →
      exec .mixPreprocess s = .next { s with
        resp := s.resp ++ [⟨.ok, 0, []⟩]
        mix := { s.mix with
          runRate := s.mix.rate, runNch := s.mix.nch, lastNow := none, bypass := none, running := true
          ports := s.mix.ports.map fun q => { q with buf := [], lastSeen := none, minFull := none, lastFc := none } } })

/-- `MIX.POSTPROCESS` (42_mixer.md R252): clears every channel's tick state and stops, keeping everything else; `STATE` when
stopped. -/
def Obligations.PostprocessClearsAndStops : Prop :=
  ∀ s : State,
    encode .mixPostprocess = [0x12000000] ∧
    (s.mix.running = false → exec .mixPostprocess s = .next { s with resp := s.resp ++ [⟨.state, 0, []⟩] }) ∧
    (s.mix.running = true →
      exec .mixPostprocess s = .next { s with
        resp := s.resp ++ [⟨.ok, 0, []⟩]
        mix := { s.mix with
          bypass := none, running := false
          ports := s.mix.ports.map fun q => { q with buf := [], lastSeen := none, minFull := none, lastFc := none } } })

/-- `MIX.PUSH p, [d]` (42_mixer.md R259): the packet enters the tail of input queue `p` and makes an unmuted port active; a
full queue answers `FULL`; illegal for a port out of range. -/
def Obligations.PushAppendsToTheInputQueue : Prop :=
  ∀ (port : Byte) (d : Bytes) (s : State),
    encode (.mixPush port d) = (0x1B#8 ++ port ++ BitVec.ofNat 16 d.length) :: packBytes d ∧
    (port.toNat < s.cfg.nports →
      (∀ cap, s.cfg.mixInqCap = some cap → (s.port port.toNat).inq.length < cap) →
      exec (.mixPush port d) s = .next { s with
        resp := s.resp ++ [⟨.ok, 0, []⟩]
        mix := { s.mix with ports := s.mix.ports.modify port.toNat fun q => { q with inq := q.inq ++ [d] } } }) ∧
    (port.toNat < s.cfg.nports →
      (∃ cap, s.cfg.mixInqCap = some cap ∧ cap ≤ (s.port port.toNat).inq.length) →
      exec (.mixPush port d) s = .next { s with resp := s.resp ++ [⟨.full, 0, []⟩] }) ∧
    (s.cfg.nports ≤ port.toNat →
      exec (.mixPush port d) s = .next { s with resp := s.resp ++ [⟨.illegal, 0, []⟩] }) ∧
    ∀ (now : BitVec 64) (q : Port), q.active = true → countsActive s.cfg now { q with inq := q.inq ++ [d] } = true

/-- `MIX.POP p` (42_mixer.md R260): removes and returns the head of output queue `p`; an empty queue answers `EMPTY`; illegal
for a port out of range. -/
def Obligations.PopReturnsTheOldestBuffer : Prop :=
  ∀ (port : Byte) (s : State),
    encode (.mixPop port) = [0x1C#8 ++ port ++ 0#16] ∧
    (∀ d more, port.toNat < s.cfg.nports → (s.port port.toNat).outq = d :: more →
      exec (.mixPop port) s = .next { s with
        resp := s.resp ++ [⟨.ok, 0, d⟩]
        mix := { s.mix with ports := s.mix.ports.modify port.toNat fun q => { q with outq := more } } }) ∧
    (port.toNat < s.cfg.nports → (s.port port.toNat).outq = [] →
      exec (.mixPop port) s = .next { s with resp := s.resp ++ [⟨.empty, 0, []⟩] }) ∧
    (s.cfg.nports ≤ port.toNat →
      exec (.mixPop port) s = .next { s with resp := s.resp ++ [⟨.illegal, 0, []⟩] })

/-- `SYS.FAULT` reads `FAULT` and clears nothing (60_exceptions.md R310). -/
def Obligations.SysFaultReadsTheRegister : Prop :=
  encode .sysFault = [0x20000000] ∧
  ∀ s : State, exec .sysFault s = .next { s with resp := s.resp ++ [⟨.ok, s.fault, []⟩] }

/-! ### The other reassembler commands (41_unpacker.md sections 4 and 5) -/

/-- `UNP.SETSPS [p]` and `UNP.SETPPS [p]` (41_unpacker.md R225, R226): a set of the right type and size becomes the live one,
injected and pending, with no status bit written; any other is rejected with nothing changed; illegal when `IDX` is not 0. -/
def Obligations.InjectionIsTakenOrRejected : Prop :=
  ∀ (p : Bytes) (s : State),
    encode (.unpSetSps p) = (0x02#8 ++ 0#8 ++ BitVec.ofNat 16 p.length) :: packBytes p ∧
    encode (.unpSetPps p) = (0x03#8 ++ 0#8 ++ BitVec.ofNat 16 p.length) :: packBytes p ∧
    (p ≠ [] → nalType p = 7 → p.length ≤ s.cfg.maxNalu →
      exec (.unpSetSps p) s = .next { s with
        resp := s.resp ++ [⟨.ok, 0, []⟩]
        unp := { s.unp with sps := { s.unp.sps with live := some p, source := .oob, oobPending := true } } }) ∧
    (p = [] ∨ nalType p ≠ 7 ∨ s.cfg.maxNalu < p.length →
      exec (.unpSetSps p) s = .next { s with resp := s.resp ++ [⟨.rejected, 0, []⟩] }) ∧
    (p ≠ [] → nalType p = 8 → p.length ≤ s.cfg.maxNalu →
      exec (.unpSetPps p) s = .next { s with
        resp := s.resp ++ [⟨.ok, 0, []⟩]
        unp := { s.unp with pps := { s.unp.pps with live := some p, source := .oob, oobPending := true } } }) ∧
    (p = [] ∨ nalType p ≠ 8 ∨ s.cfg.maxNalu < p.length →
      exec (.unpSetPps p) s = .next { s with resp := s.resp ++ [⟨.rejected, 0, []⟩] }) ∧
    ∀ (h : Word) (pl rest : List Word), headerOpc h = 0x02 ∨ headerOpc h = 0x03 → headerIdx h ≠ 0 →
      pl.length = ((headerImm h).toNat + 3) / 4 → s.cmd = h :: pl ++ rest →
      step s = .next { s with cmd := rest, resp := s.resp ++ [⟨.illegal, 0, []⟩] }

/-- `UNP.RESET` (41_unpacker.md R231): discards the partial frame and the references, keeps the parameter sets and the output
queue; illegal with any reserved bit. -/
def Obligations.UnpResetDiscardsThePartialFrame : Prop :=
  encode .unpReset = [0x04000000] ∧
  (∀ s : State,
    exec .unpReset s = .next { s with
      resp := s.resp ++ [⟨.ok, 0, []⟩]
      unp := { s.unp with rq := [], aggActive := false, aggBuf := [], acc := 0, lastTs := none, refSeq := none } }) ∧
  ∀ h : Word, headerOpc h = 0x04 → h ≠ 0x04000000 → answeredIllegal h

/-- `UNP.POP` (41_unpacker.md R233): removes the head of the output queue and returns `eof ‖ fstatus` and its NALU; an empty
queue answers `EMPTY`; illegal with any reserved bit. -/
def Obligations.UnpPopReturnsTheOldestNalu : Prop :=
  encode .unpPop = [0x05000000] ∧
  (∀ (s : State) (e : OutEntry) (more : List OutEntry), s.unp.outq = e :: more →
    exec .unpPop s = .next { s with
      resp := s.resp ++ [⟨.ok, 0#23 ++ BitVec.ofBool e.eof ++ e.fstatus, e.nalu⟩]
      unp := { s.unp with outq := more } }) ∧
  (∀ s : State, s.unp.outq = [] → exec .unpPop s = .next { s with resp := s.resp ++ [⟨.empty, 0, []⟩] }) ∧
  ∀ h : Word, headerOpc h = 0x05 → h ≠ 0x05000000 → answeredIllegal h

/-! ### UNP.PACKET (41_unpacker.md section 1, 40_fua_stapa.md) -/

/-- A packet over `P_MAX_PAYLOAD` is illegal and changes nothing; any other answers `OK` with a status byte, whatever its
payload, always becomes the timestamp and sequence reference, and with the marker leaves no frame in progress (41_unpacker.md
R200, R202, R203, R210, R211; 10_state.md R29, R30). -/
def Obligations.PacketAnswersOkUnlessTooLong : Prop :=
  ∀ (seq : BitVec 16) (ts : BitVec 32) (m : Bool) (p : Bytes) (s : State),
    (s.cfg.maxPayload < p.length →
      exec (.unpPacket seq ts m p) s = .next { s with resp := s.resp ++ [⟨.illegal, 0, []⟩] }) ∧
    (p.length ≤ s.cfg.maxPayload →
      ∃ t, ∃ status : Status, exec (.unpPacket seq ts m p) s = .next t ∧ t.resp = s.resp ++ [⟨.ok, 0#24 ++ status, []⟩] ∧
        t.cfg = s.cfg ∧ t.cmd = s.cmd ∧ t.mix = s.mix ∧
        t.unp.lastTs = some ts ∧ t.unp.refSeq = some seq ∧
        (m = true → t.unp.rq = [] ∧ t.unp.aggActive = false))

/-- A raw NALU that is no parameter set, without the marker: it is stored at the tail of the reassembly queue; a sequence gap
and an interrupted FU-A mark the frame corrupt, the latter being discarded; nothing else changes (41_unpacker.md R203, R204,
R206; 40_fua_stapa.md R169). -/
def Obligations.RawNaluIsStored : Prop :=
  ∀ (seq : BitVec 16) (ts : BitVec 32) (p : Bytes) (s : State),
    isPlainNal p → p.length ≤ s.cfg.maxPayload → noFlush ts s.unp →
    exec (.unpPacket seq ts false p) s = .next { s with
      resp := s.resp ++ [⟨.ok, 0, []⟩]
      unp := { s.unp with
        lastTs := some ts, refSeq := some seq, rq := s.unp.rq ++ [p]
        aggActive := false, aggBuf := if s.unp.aggActive then [] else s.unp.aggBuf
        acc := s.unp.acc ||| flagIf (isGap seq s.unp) 0x02 ||| flagIf s.unp.aggActive 0x02 } }

/-- An in-band parameter set: stored in the frame like any NALU, it also becomes the live set and the last noted one, cancels
a pending injection, and raises `NewSPS` or `NewPPS` unless it repeats the last noted one (41_unpacker.md R206 to R209,
R227). -/
def Obligations.InBandParameterSetIsTracked : Prop :=
  ∀ (k : PsKind) (seq : BitVec 16) (ts : BitVec 32) (p : Bytes) (s : State),
    p ≠ [] → nalType p = psType k → p.length ≤ s.cfg.maxPayload → noFlush ts s.unp →
    exec (.unpPacket seq ts false p) s = .next { s with
      resp := s.resp ++ [⟨.ok, 0, []⟩]
      unp := Unp.setPs { s.unp with
        lastTs := some ts, refSeq := some seq, rq := s.unp.rq ++ [p]
        aggActive := false, aggBuf := if s.unp.aggActive then [] else s.unp.aggBuf
        acc := s.unp.acc ||| flagIf (isGap seq s.unp) 0x02 ||| flagIf s.unp.aggActive 0x02 |||
          (if (s.unp.ps k).last = some p ∨ ((s.unp.ps k).last = none ∧ s.cfg.firstPsNew = false) then 0 else newPs k) }
        k ⟨some p, .inBand, false, some p⟩ }

/-- An empty payload is dropped, marks the frame corrupt and discards a partial FU-A, while its header fields are processed;
with the marker and nothing stored, no frame is output and the pending status is kept (41_unpacker.md R205, R217). -/
def Obligations.EmptyPayloadIsCorruption : Prop :=
  ∀ (seq : BitVec 16) (ts : BitVec 32) (m : Bool) (s : State),
    noFlush ts s.unp → m = false ∨ s.unp.rq = [] →
    exec (.unpPacket seq ts m []) s = .next { s with
      resp := s.resp ++ [⟨.ok, 0, []⟩]
      unp := { s.unp with
        lastTs := some ts, refSeq := some seq
        aggActive := false, aggBuf := if s.unp.aggActive then [] else s.unp.aggBuf
        acc := s.unp.acc ||| flagIf (isGap seq s.unp) 0x02 ||| 0x02 } }

/-- A STAP-A aggregate: its units enter the reassembly queue in payload order, units of types 24 and 28 unsplit, the SPS and
PPS units among them tracked like in-band ones; a defect marks the frame corrupt (41_unpacker.md R204, R206 to R209;
40_fua_stapa.md R170 to R173). -/
def Obligations.AggregateUnitsAreStored : Prop :=
  ∀ (seq : BitVec 16) (ts : BitVec 32) (p : Bytes) (s : State),
    nalType p = 24 → p.length ≤ s.cfg.maxPayload → noFlush ts s.unp →
    exec (.unpPacket seq ts false p) s = .next { s with
      resp := s.resp ++ [⟨.ok, 0, []⟩]
      unp := withStored s.cfg (stapSplit p).1 { s.unp with
        lastTs := some ts, refSeq := some seq
        aggActive := false, aggBuf := if s.unp.aggActive then [] else s.unp.aggBuf
        acc := s.unp.acc ||| flagIf (isGap seq s.unp) 0x02 ||| flagIf s.unp.aggActive 0x02 |||
          flagIf (stapSplit p).2 0x02 } }

/-- The STAP-A walk: the units are exactly the well-formed ones before the first defect, and the result is corrupt exactly
when there is a defect (40_fua_stapa.md R170 to R172; 30_encoding.md R135). -/
def Obligations.StapSplitFindsTheUnits : Prop :=
  ∀ (h : Byte) (body : Bytes),
    ∃ tail, body = (stapSplit (h :: body)).1.flatMap packUnit ++ tail ∧
      (∀ n ∈ (stapSplit (h :: body)).1, 1 ≤ n.length ∧ n.length ≤ 65535) ∧
      ((stapSplit (h :: body)).2 = false → tail = [] ∧ (stapSplit (h :: body)).1 ≠ []) ∧
      ((stapSplit (h :: body)).2 = true →
        body = [] ∨ tail.length = 1 ∨
        ∃ hi lo rest, tail = hi :: lo :: rest ∧
          (hi.toNat * 256 + lo.toNat = 0 ∨ rest.length < hi.toNat * 256 + lo.toNat))

/-- One FU-A fragment without the marker: a malformed one is dropped with the partial NALU and marks the frame corrupt; a
start fragment begins a NALU, losing a partial one before it; a middle fragment extends the partial one; an end fragment
completes it, and the NALU is stored like any other, a parameter set tracked; a sequence gap marks the frame corrupt and
stops none of this (40_fua_stapa.md R160 to R168; 41_unpacker.md R203, R204, R206). An idle aggregator holds nothing: `UnpInv`
says so. -/
def Obligations.FragmentEffects : Prop :=
  ∀ (seq : BitVec 16) (ts : BitVec 32) (p : Bytes) (s : State),
    nalType p = 28 → p ≠ [] → p.length ≤ s.cfg.maxPayload → noFlush ts s.unp →
    (s.unp.aggActive = false → s.unp.aggBuf = []) →
    ((p.length = 1 ∨
      ∃ ind fh frag, p = ind :: fh :: frag ∧
        ((fuStart fh = true ∧ fuEnd fh = true) ∨
         (fuStart fh = true ∧ s.cfg.maxNalu < frag.length + 1) ∨
         (fuStart fh = false ∧
           (s.unp.aggActive = false ∨ typeField fh ≠ nalType s.unp.aggBuf ∨
            s.cfg.maxNalu < s.unp.aggBuf.length + frag.length)))) →
      exec (.unpPacket seq ts false p) s = .next { s with
        resp := s.resp ++ [⟨.ok, 0, []⟩]
        unp := { s.unp with
          lastTs := some ts, refSeq := some seq
          aggActive := false, aggBuf := []
          acc := s.unp.acc ||| flagIf (isGap seq s.unp) 0x02 ||| 0x02 } }) ∧
    (∀ ind fh frag, p = ind :: fh :: frag → fuStart fh = true → fuEnd fh = false → frag.length + 1 ≤ s.cfg.maxNalu →
      exec (.unpPacket seq ts false p) s = .next { s with
        resp := s.resp ++ [⟨.ok, 0, []⟩]
        unp := { s.unp with
          lastTs := some ts, refSeq := some seq
          aggActive := true, aggBuf := ((ind &&& 0xE0) ||| (fh &&& 0x1F)) :: frag
          acc := s.unp.acc ||| flagIf (isGap seq s.unp) 0x02 ||| flagIf s.unp.aggActive 0x02 } }) ∧
    (∀ ind fh frag, p = ind :: fh :: frag → fuStart fh = false → fuEnd fh = false → s.unp.aggActive = true →
      typeField fh = nalType s.unp.aggBuf → s.unp.aggBuf.length + frag.length ≤ s.cfg.maxNalu →
      exec (.unpPacket seq ts false p) s = .next { s with
        resp := s.resp ++ [⟨.ok, 0, []⟩]
        unp := { s.unp with
          lastTs := some ts, refSeq := some seq, aggBuf := s.unp.aggBuf ++ frag
          acc := s.unp.acc ||| flagIf (isGap seq s.unp) 0x02 } }) ∧
    (∀ ind fh frag, p = ind :: fh :: frag → fuStart fh = false → fuEnd fh = true → s.unp.aggActive = true →
      typeField fh = nalType s.unp.aggBuf → s.unp.aggBuf.length + frag.length ≤ s.cfg.maxNalu →
      exec (.unpPacket seq ts false p) s = .next { s with
        resp := s.resp ++ [⟨.ok, 0, []⟩]
        unp := withStored s.cfg [s.unp.aggBuf ++ frag] { s.unp with
          lastTs := some ts, refSeq := some seq, aggActive := false, aggBuf := []
          acc := s.unp.acc ||| flagIf (isGap seq s.unp) 0x02 } })

/-- Fragmentation is undone: FU-A packets in sequence, a start fragment, any number of middle ones and an end fragment, under
one timestamp, store exactly the NALU they were cut from, a parameter set tracked, and mark nothing corrupt (40_fua_stapa.md
R162, R164, R165; 30_encoding.md R134; 41_unpacker.md R206). -/
def Obligations.FragmentsRebuildTheNalu : Prop :=
  ∀ (s : State) (seq : BitVec 16) (ts : BitVec 32) (ind : Byte) (typ : BitVec 5) (first : Bytes) (mids : List Bytes)
    (last : Bytes),
    typeField ind = 28 →
    s.unp.aggActive = false → s.unp.aggBuf = [] → noFlush ts s.unp →
    s.unp.refSeq = none ∨ s.unp.refSeq = some (seq - 1) →
    1 + first.length + mids.flatten.length + last.length ≤ s.cfg.maxNalu →
    (∀ f ∈ first :: last :: mids, f.length + 2 ≤ s.cfg.maxPayload) →
    runCommands
      (.unpPacket seq ts false (ind :: (0b100#3 ++ typ) :: first) ::
        (mids.mapIdx fun j f => .unpPacket (seq + BitVec.ofNat 16 (j + 1)) ts false (ind :: (0b000#3 ++ typ) :: f)) ++
        [.unpPacket (seq + BitVec.ofNat 16 (mids.length + 1)) ts false (ind :: (0b010#3 ++ typ) :: last)]) s =
      .next { s with
        resp := s.resp ++ List.replicate (mids.length + 2) ⟨.ok, 0, []⟩
        unp := withStored s.cfg [((ind &&& 0xE0) ||| (0b000#3 ++ typ)) :: first ++ mids.flatten ++ last] { s.unp with
          lastTs := some ts, refSeq := some (seq + BitVec.ofNat 16 (mids.length + 1)) } }

/-- The bits of a frame's status (30_encoding.md R123; 41_unpacker.md R212, R214, R215, R220): available, the pending bits,
IDR or an I-slice-only frame, and the live parameter sets. -/
def Obligations.FrameStatusBits : Prop :=
  ∀ (c : Config) (u : Unp) (frame : List Bytes), u.acc &&& 0xE5 = 0 →
    (frameStatus c u frame).getLsbD 0 = true ∧
    (frameStatus c u frame).getLsbD 1 = u.acc.getLsbD 1 ∧
    ((frameStatus c u frame).getLsbD 2 = true ↔
      (∃ n ∈ frame, nalType n = 5) ∨
      ((∃ n ∈ frame, nalType n = 1) ∧ ∀ n ∈ frame, nalType n = 1 → fISlice c n = true)) ∧
    (frameStatus c u frame).getLsbD 3 = u.acc.getLsbD 3 ∧
    (frameStatus c u frame).getLsbD 4 = u.acc.getLsbD 4 ∧
    ((frameStatus c u frame).getLsbD 5 = true ↔ u.sps.live ≠ none) ∧
    ((frameStatus c u frame).getLsbD 6 = true ↔ u.pps.live ≠ none) ∧
    ((frameStatus c u frame).getLsbD 7 = true ↔ ∃ n ∈ frame, nalType n = 5)

/-- Reading one `ue(v)` code inside a byte, from position `k` (41_unpacker.md R221): `z` zeros, a one, and `z` suffix bits
give `2^z - 1 + suffix`; without the one or the whole suffix in the byte, the read fails. The default classifier reads two
codes from byte 1 of a NALU, and says yes exactly when both are there and the second is 2 or 7 (R222). The spec has the code
and the slice types from general knowledge (notes/assumptions/12.md). -/
def Obligations.ExpGolombInsideOneByte : Prop :=
  (∀ (b : Byte) (k : Nat), k ≤ 8 →
    (∀ z, k + z < 8 → (∀ j, j < z → b.getMsbD (k + j) = false) → b.getMsbD (k + z) = true →
      (k + 2 * z + 1 ≤ 8 →
        ue8 b k = some (2 ^ z - 1 + ((List.range z).map fun j =>
          (b.getMsbD (k + z + 1 + j)).toNat * 2 ^ (z - 1 - j)).sum, k + 2 * z + 1)) ∧
      (8 < k + 2 * z + 1 → ue8 b k = none)) ∧
    ((∀ j, k + j < 8 → b.getMsbD (k + j) = false) → ue8 b k = none)) ∧
  (∀ n : Bytes, n.length < 2 → standardISlice n = false) ∧
  (∀ (h b : Byte) (more : Bytes), standardISlice (h :: b :: more) = true ↔
    ∃ firstMb k sliceType k', ue8 b 0 = some (firstMb, k) ∧ ue8 b k = some (sliceType, k') ∧ (sliceType = 2 ∨ sliceType = 7)) ∧
  ∀ (c : Config) (n : Bytes), c.islice = .standard → fISlice c n = standardISlice n

/-- The marker ends the frame: the packet's own NALU belongs to it, the frame enters the output queue whole with its status
on every entry and `eof` on the last, the pending status is cleared, and the status is returned; a frame that does not fit is
dropped whole, with fault bit 0 and the same status (41_unpacker.md R210, R212, R216). -/
def Obligations.MarkerOutputsTheFrame : Prop :=
  ∀ (seq : BitVec 16) (ts : BitVec 32) (p : Bytes) (s : State) (st : Status),
    isPlainNal p → p.length ≤ s.cfg.maxPayload → noFlush ts s.unp → s.unp.aggActive = false →
    s.unp.sps.oobPending = false → s.unp.pps.oobPending = false →
    st = frameStatus s.cfg { s.unp with acc := s.unp.acc ||| flagIf (isGap seq s.unp) 0x02 } (s.unp.rq ++ [p]) →
    ((∀ cap, s.cfg.unpOutqCap = some cap → s.unp.outq.length + s.unp.rq.length + 1 ≤ cap) →
      exec (.unpPacket seq ts true p) s = .next { s with
        resp := s.resp ++ [⟨.ok, 0#24 ++ st, []⟩]
        unp := { s.unp with
          lastTs := some ts, refSeq := some seq, rq := [], acc := 0
          outq := s.unp.outq ++ s.unp.rq.map (fun n => ⟨n, st, false⟩) ++ [⟨p, st, true⟩] } }) ∧
    ((∃ cap, s.cfg.unpOutqCap = some cap ∧ cap < s.unp.outq.length + s.unp.rq.length + 1) →
      exec (.unpPacket seq ts true p) s = .next { s with
        resp := s.resp ++ [⟨.ok, 0#24 ++ st, []⟩]
        fault := s.fault ||| 0x1
        unp := { s.unp with lastTs := some ts, refSeq := some seq, rq := [], acc := 0 } })

/-- The marker, whatever the packet's payload: raw, empty, an aggregate or a fragment. Beside what the packet does without
it, a partial FU-A left over is discarded and marks the frame corrupt; with nothing stored no frame is output and the pending
status stays; else the frame, headed by pending injected sets, is output or dropped whole (41_unpacker.md R205, R210 to R213,
R216, R217). -/
def Obligations.MarkerEndsEveryPacket : Prop :=
  ∀ (seq : BitVec 16) (ts : BitVec 32) (p : Bytes) (s : State), p.length ≤ s.cfg.maxPayload → noFlush ts s.unp →
    ∃ t u, exec (.unpPacket seq ts false p) s = .next t ∧
      u = (if t.unp.aggActive then { t.unp with aggActive := false, aggBuf := [], acc := t.unp.acc ||| 0x02 } else t.unp) ∧
      (u.rq = [] →
        exec (.unpPacket seq ts true p) s = .next { s with resp := s.resp ++ [⟨.ok, 0, []⟩], unp := u }) ∧
      ∀ pre v frame st, u.rq ≠ [] → oobPrefix s.cfg u = (pre, v) → frame = pre ++ u.rq → st = frameStatus s.cfg v frame →
        ((∀ cap, s.cfg.unpOutqCap = some cap → s.unp.outq.length + frame.length ≤ cap) →
          exec (.unpPacket seq ts true p) s = .next { s with
            resp := s.resp ++ [⟨.ok, 0#24 ++ st, []⟩]
            unp := { v with rq := [], acc := 0, outq := s.unp.outq ++ frameEntries st frame } }) ∧
        ((∃ cap, s.cfg.unpOutqCap = some cap ∧ cap < s.unp.outq.length + frame.length) →
          exec (.unpPacket seq ts true p) s = .next { s with
            resp := s.resp ++ [⟨.ok, 0#24 ++ st, []⟩]
            fault := s.fault ||| 0x1
            unp := { v with rq := [], acc := 0 } })

/-- A changed timestamp flushes what is accumulated as a frame before the packet is stored; a partial FU-A is discarded and
marks the flushed frame corrupt; the packet's own sequence gap counts for the new frame; a frame that does not fit the output
queue is dropped whole, with fault bit 0 and the same status. With a partial FU-A alone, no frame is output, and its
corruption stays pending for the next one (41_unpacker.md R202, R203, R216, R217). -/
def Obligations.TimestampChangeFlushes : Prop :=
  ∀ (seq : BitVec 16) (ts t₀ : BitVec 32) (p : Bytes) (s : State) (st : Status) (u : Unp),
    isPlainNal p → p.length ≤ s.cfg.maxPayload → s.unp.lastTs = some t₀ → ts ≠ t₀ →
    u = { s.unp with
      lastTs := some ts, refSeq := some seq, rq := [p]
      aggActive := false, aggBuf := if s.unp.aggActive then [] else s.unp.aggBuf
      acc := flagIf (isGap seq s.unp) 0x02 } →
    (s.unp.rq ≠ [] → s.unp.sps.oobPending = false → s.unp.pps.oobPending = false →
      st = frameStatus s.cfg { s.unp with acc := s.unp.acc ||| flagIf s.unp.aggActive 0x02 } s.unp.rq →
      ((∀ cap, s.cfg.unpOutqCap = some cap → s.unp.outq.length + s.unp.rq.length ≤ cap) →
        exec (.unpPacket seq ts false p) s = .next { s with
          resp := s.resp ++ [⟨.ok, 0#24 ++ st, []⟩]
          unp := { u with outq := s.unp.outq ++ frameEntries st s.unp.rq } }) ∧
      ((∃ cap, s.cfg.unpOutqCap = some cap ∧ cap < s.unp.outq.length + s.unp.rq.length) →
        exec (.unpPacket seq ts false p) s = .next { s with
          resp := s.resp ++ [⟨.ok, 0#24 ++ st, []⟩]
          fault := s.fault ||| 0x1
          unp := u })) ∧
    (s.unp.rq = [] → s.unp.aggActive = true →
      exec (.unpPacket seq ts false p) s = .next { s with
        resp := s.resp ++ [⟨.ok, 0, []⟩]
        unp := { u with acc := s.unp.acc ||| 0x02 ||| flagIf (isGap seq s.unp) 0x02 } })

/-- The value a packet returns is the OR of the statuses of the frames it output: the one a changed timestamp flushes and the
one the marker ends, each if anything is stored then. Each frame in turn enters the output queue whole, its own status on
every NALU and `eof` on the last one, when it fits behind the entries held; else it is dropped, its status still returned, and
fault bit 0 is set (41_unpacker.md R201, R202, R210 to R213, R216, R217; 10_state.md R34). -/
def Obligations.CallStatusIsTheOrOfTheFrames : Prop :=
  ∀ (seq : BitVec 16) (ts : BitVec 32) (m : Bool) (p : Bytes) (s : State) (stored : Unp)
    (flushed ended : Option (Status × List Bytes)), p.length ≤ s.cfg.maxPayload →
    flushed =
      (if s.unp.lastTs ≠ none ∧ s.unp.lastTs ≠ some ts then outputOf s.cfg (dropPartial s.unp) else none) →
    stored = dispatchPayload s.cfg p (seqCheck seq { (tsFlush ts s).1.unp with lastTs := some ts }) →
    ended = (if m then outputOf s.cfg (dropPartial stored) else none) →
    ∃ t, exec (.unpPacket seq ts m p) s = .next t ∧
      t.resp = s.resp ++
        [⟨.ok, 0#24 ++ ((flushed.elim 0 fun f => f.1) ||| (ended.elim 0 fun f => f.1)), []⟩] ∧
      t.unp.outq = ((flushed.toList ++ ended.toList).foldl (enqueueFrame s.cfg.unpOutqCap) (s.unp.outq, false)).1 ∧
      t.fault =
        (if ((flushed.toList ++ ended.toList).foldl (enqueueFrame s.cfg.unpOutqCap) (s.unp.outq, false)).2
         then s.fault ||| 0x1 else s.fault)

/-- Injected parameter sets head the next frame output, SPS before PPS, and are delivered once; each raises its news bit in
that frame's status unless it repeats the set last noted, or is the first one where the first is no news; the live copies stay
(41_unpacker.md R208, R209, R213, R215, R225, R226; 70_reset_and_hazards.md R347). -/
def Obligations.InjectedSetsAreDeliveredOnce : Prop :=
  ∀ (sps pps p₁ p₂ : Bytes) (q₁ q₂ : BitVec 16) (ts : BitVec 32) (s : State) (st₁ st₂ : Status) (u : Unp),
    sps ≠ [] → nalType sps = 7 → sps.length ≤ s.cfg.maxNalu →
    pps ≠ [] → nalType pps = 8 → pps.length ≤ s.cfg.maxNalu →
    isPlainNal p₁ → p₁.length ≤ s.cfg.maxPayload → isPlainNal p₂ → p₂.length ≤ s.cfg.maxPayload →
    noFlush ts s.unp → s.unp.aggActive = false → s.cfg.unpOutqCap = none →
    u = { s.unp with sps := ⟨some sps, .oob, false, some sps⟩, pps := ⟨some pps, .oob, false, some pps⟩ } →
    st₁ = frameStatus s.cfg
      { u with
        acc := s.unp.acc ||| flagIf (isGap q₁ s.unp) 0x02
          ||| (if s.unp.sps.last = some sps ∨ (s.unp.sps.last = none ∧ s.cfg.firstPsNew = false) then 0 else 0x08)
          ||| (if s.unp.pps.last = some pps ∨ (s.unp.pps.last = none ∧ s.cfg.firstPsNew = false) then 0 else 0x10) }
      (sps :: pps :: s.unp.rq ++ [p₁]) →
    st₂ = frameStatus s.cfg { u with acc := flagIf (q₂ != q₁ + 1) 0x02 } [p₂] →
    ∃ t,
      runCommands [.unpSetPps pps, .unpSetSps sps, .unpPacket q₁ ts true p₁, .unpPacket q₂ ts true p₂] s = .next t ∧
      t.unp.outq = s.unp.outq ++ frameEntries st₁ (sps :: pps :: s.unp.rq ++ [p₁]) ++ frameEntries st₂ [p₂] ∧
      t.unp.sps = ⟨some sps, .oob, false, some sps⟩ ∧ t.unp.pps = ⟨some pps, .oob, false, some pps⟩ ∧
      t.resp = s.resp ++ [⟨.ok, 0, []⟩, ⟨.ok, 0, []⟩, ⟨.ok, 0#24 ++ st₁, []⟩, ⟨.ok, 0#24 ++ st₂, []⟩]

/-- An in-band SPS or PPS cancels a pending injection of its kind, which is then never delivered: the frame carries the
in-band set alone, and its news is against the set last noted, not the injected one (41_unpacker.md R208, R209, R227). -/
def Obligations.InBandSetCancelsTheInjection : Prop :=
  ∀ (k : PsKind) (injected inBand : Bytes) (seq : BitVec 16) (ts : BitVec 32) (s : State) (st : Status) (u : Unp),
    injected ≠ [] → nalType injected = psType k → injected.length ≤ s.cfg.maxNalu →
    inBand ≠ [] → nalType inBand = psType k → inBand.length ≤ s.cfg.maxPayload →
    noFlush ts s.unp → s.unp.aggActive = false → (∀ k', k' ≠ k → (s.unp.ps k').oobPending = false) →
    s.cfg.unpOutqCap = none →
    u = s.unp.setPs k ⟨some inBand, .inBand, false, some inBand⟩ →
    st = frameStatus s.cfg
      { u with
        acc := s.unp.acc ||| flagIf (isGap seq s.unp) 0x02
          ||| (if (s.unp.ps k).last = some inBand ∨ ((s.unp.ps k).last = none ∧ s.cfg.firstPsNew = false) then 0
               else newPs k) }
      (s.unp.rq ++ [inBand]) →
    ∃ t,
      runCommands
        [(match k with
          | .sps => .unpSetSps injected
          | .pps => .unpSetPps injected), .unpPacket seq ts true inBand] s = .next t ∧
      t.unp.outq = s.unp.outq ++ frameEntries st (s.unp.rq ++ [inBand]) ∧
      t.unp.sps = u.sps ∧ t.unp.pps = u.pps ∧
      t.resp = s.resp ++ [⟨.ok, 0, []⟩, ⟨.ok, 0#24 ++ st, []⟩]

/-! ### MIX.TICK (42_mixer.md section 3) -/

/-- The entry checks of a tick, in their order: stopped answers `STATE`, a time before the last tick's `ILLEGAL`
(42_mixer.md R253; 60_exceptions.md R307). -/
def Obligations.TickChecksInOrder : Prop :=
  ∀ (now : BitVec 64) (s : State),
    (s.mix.running = false → exec (.mixTick now) s = .next { s with resp := s.resp ++ [⟨.state, 0, []⟩] }) ∧
    (∀ t, s.mix.running = true → s.mix.lastNow = some t → now.toNat < t.toNat →
      exec (.mixTick now) s = .next { s with resp := s.resp ++ [⟨.illegal, 0, []⟩] })

/-- The activity scan (42_mixer.md R262): an unmuted port with a non-empty input queue, or seen so less than the timeout ago,
each once, in increasing order. -/
def Obligations.ActivityScanFindsTheActivePorts : Prop :=
  ∀ (now : BitVec 64) (s : State),
    (activePorts now s).Pairwise (· < ·) ∧
    ∀ i, i ∈ activePorts now s ↔
      i < s.cfg.nports ∧ (s.port i).active = true ∧
      ((s.port i).inq ≠ [] ∨
       ∃ t, (s.port i).lastSeen = some t ∧ (now.toNat : Int) - (t.toNat : Int) < s.cfg.activityTimeoutMs)

/-- An accepted tick completes with `OK` and takes the time; it changes no control register, no flag of a port, nothing of
the reassembler and no parameter (42_mixer.md R253; 10_state.md R44). -/
def Obligations.AcceptedTickCompletes : Prop :=
  ∀ (now : BitVec 64) (s : State), tickAccepted now s →
    ∃ t, exec (.mixTick now) s = .next t ∧ t.resp = s.resp ++ [⟨.ok, 0, []⟩] ∧
      t.cfg = s.cfg ∧ t.cmd = s.cmd ∧ t.unp = s.unp ∧
      t.mix.lastNow = some now ∧ t.mix.rate = s.mix.rate ∧ t.mix.nch = s.mix.nch ∧ t.mix.conf = s.mix.conf ∧
      t.mix.running = true ∧ t.mix.runRate = s.mix.runRate ∧ t.mix.runNch = s.mix.runNch ∧
      t.mix.ports.length = s.mix.ports.length ∧
      ∀ i, (t.port i).active = (s.port i).active ∧ (t.port i).outEn = (s.port i).outEn

/-- With no active port the tick only takes the time, leaves bypass and empties muted input queues (42_mixer.md R261,
R274). -/
def Obligations.TickWithNoActivePort : Prop :=
  ∀ (now : BitVec 64) (s : State), MixInv s.cfg s.mix → tickAccepted now s → activePorts now s = [] →
    exec (.mixTick now) s = .next { s with
      resp := s.resp ++ [⟨.ok, 0, []⟩]
      mix := { s.mix with
        lastNow := some now, bypass := none
        ports := s.mix.ports.map fun q => if q.active then q else { q with inq := [] } } }

/-- With one active port the tick forwards its packets verbatim, in order, to every enabled output, in conferencing mode not
to its own; a full output queue drops what does not fit and sets fault bit 1; entering bypass flushes the port's bufferizer;
no sum, clamp or flow control runs (42_mixer.md R261, R265, R266, R271). -/
def Obligations.BypassForwardsVerbatim : Prop :=
  ∀ (now : BitVec 64) (s : State) (p : Nat), MixInv s.cfg s.mix → tickAccepted now s → activePorts now s = [p] →
    ∃ t, ∃ dropped : Bool, exec (.mixTick now) s = .next t ∧ t.resp = s.resp ++ [⟨.ok, 0, []⟩] ∧
      t.mix.bypass = some p ∧
      t.fault = s.fault ||| (if dropped then 0x2 else 0) ∧
      (dropped = true ↔ ∃ o, o < s.cfg.nports ∧ (s.port o).outEn = true ∧ ¬ (s.mix.conf = true ∧ o = p) ∧
        takeRoom s.cfg.mixOutqCap (s.port o).outq.length (s.port p).inq ≠ (s.port p).inq) ∧
      (∀ o, o < s.cfg.nports →
        (t.port o).outq = (s.port o).outq ++
          (if (s.port o).outEn = true ∧ ¬ (s.mix.conf = true ∧ o = p)
           then takeRoom s.cfg.mixOutqCap (s.port o).outq.length (s.port p).inq else []) ∧
        (t.port o).minFull = (s.port o).minFull ∧ (t.port o).lastFc = (s.port o).lastFc) ∧
      (t.port p).inq = [] ∧
      (t.port p).buf = (if s.mix.bypass = some p then (s.port p).buf else []) ∧
      (t.port p).lastSeen = (if (s.port p).inq = [] then (s.port p).lastSeen else some now) ∧
      ∀ o, o < s.cfg.nports → o ≠ p →
        (t.port o).inq = [] ∧ (t.port o).buf = (s.port o).buf ∧ (t.port o).lastSeen = (s.port o).lastSeen

/-- With two or more active ports every enabled output gets exactly one buffer of `B` bytes, whose samples are the clamped
exact integer sums of the contributors' samples, in conferencing mode without the output's own; a disabled output gets
nothing; a full output queue drops the buffer and sets fault bit 1, and bytes that do not fit a bufferizer are cut off and set
fault bit 2 (42_mixer.md R263, R267 to R273, R277). The sums are exact in every accumulator of at least 25 bits, so in the
spec's of 32 (R269). -/
def Obligations.MixedOutputIsTheClampedSum : Prop :=
  ∀ (now : BitVec 64) (s : State), s.cfg.WF → MixInv s.cfg s.mix → tickAccepted now s →
    2 ≤ (activePorts now s).length →
    ∃ t, ∃ cut dropped : Bool, exec (.mixTick now) s = .next t ∧ t.resp = s.resp ++ [⟨.ok, 0, []⟩] ∧
      t.mix.bypass = none ∧
      t.fault = s.fault ||| (if cut then 0x4 else 0) ||| (if dropped then 0x2 else 0) ∧
      (cut = true ↔ ∃ i ∈ activePorts now s, tickInput s i ≠ offeredInput s i) ∧
      (dropped = true ↔ ∃ o, o < s.cfg.nports ∧ (s.port o).outEn = true ∧
        ∃ cap, s.cfg.mixOutqCap = some cap ∧ cap ≤ (s.port o).outq.length) ∧
      ∀ o, o < s.cfg.nports →
        ((s.port o).outEn = false → (t.port o).outq = (s.port o).outq) ∧
        ((s.port o).outEn = true →
          ∃ out, (t.port o).outq = (s.port o).outq ++ takeRoom s.cfg.mixOutqCap (s.port o).outq.length [out] ∧
            out.length = s.tickBytes ∧
            (25 ≤ s.cfg.accWidth →
              samplesOf out = (List.range s.tickSamples).map fun k =>
                BitVec.ofInt 16 (clampInt s.cfg (exactSum s (mixedFor now s o) k))))

/-- What a mix tick does to a channel (42_mixer.md R261, R263, R264, R267, R268): an active port's packets enter its
bufferizer, the fullness goes into the window's minimum, a whole tick of bytes is taken if it is there, and at a window's end
flow control skips the excess; any other port only loses the packets of a muted input. -/
def Obligations.MixTickChannelEffects : Prop :=
  ∀ (now : BitVec 64) (s : State), MixInv s.cfg s.mix → tickAccepted now s →
    2 ≤ (activePorts now s).length →
    ∃ t, exec (.mixTick now) s = .next t ∧
      (∀ i, i ∈ activePorts now s → ∀ (held : Bytes) (low : Nat),
        held = (if s.tickBytes ≤ (tickInput s i).length then (tickInput s i).drop s.tickBytes else tickInput s i) →
        low = (match (s.port i).minFull with
               | none => (tickInput s i).length
               | some m => min m (tickInput s i).length) →
        (t.port i).inq = [] ∧
        (t.port i).lastSeen = (if (s.port i).inq = [] then (s.port i).lastSeen else some now) ∧
        ((s.port i).lastFc = none →
          (t.port i).buf = held ∧ (t.port i).minFull = some low ∧ (t.port i).lastFc = some now) ∧
        (∀ start, (s.port i).lastFc = some start →
          (now.toNat : Int) - (start.toNat : Int) < s.cfg.fcWindowMs →
          (t.port i).buf = held ∧ (t.port i).minFull = some low ∧ (t.port i).lastFc = some start) ∧
        (∀ start, (s.port i).lastFc = some start →
          (s.cfg.fcWindowMs : Int) ≤ (now.toNat : Int) - (start.toNat : Int) →
          (t.port i).minFull = none ∧ (t.port i).lastFc = some now ∧
          (low ≤ s.fcThreshold → (t.port i).buf = held) ∧
          (s.fcThreshold < low →
            (t.port i).buf = held.drop (low - s.fcThreshold / 2 - (low - s.fcThreshold / 2) % (2 * s.mix.runNch.toNat))))) ∧
      ∀ i, i < s.cfg.nports → i ∉ activePorts now s →
        (t.port i).inq = [] ∧ (t.port i).buf = (s.port i).buf ∧ (t.port i).lastSeen = (s.port i).lastSeen ∧
        (t.port i).minFull = (s.port i).minFull ∧ (t.port i).lastFc = (s.port i).lastFc

/-- What is queued at a muted port makes no difference to an accepted tick: it is discarded unheard (42_mixer.md R261). -/
def Obligations.MutedInputIsUnheard : Prop :=
  ∀ (now : BitVec 64) (s : State) (p : Nat) (queued : List Bytes), tickAccepted now s → (s.port p).active = false →
    exec (.mixTick now) (s.mapPort p fun q => { q with inq := queued }) = exec (.mixTick now) s

/-- Sums and differences of at most 256 contributions are exact in the accumulator, whose 32 bits hold them; by the same
bounds 25 bits do (42_mixer.md R268 to R270; 00_scope.md R6). In an accumulator of any width every sample is a signed number
of that width; which one it is when the exact number does not fit is left free (notes/assumptions/13.md). -/
def Obligations.AccumulatorIsExact : Prop :=
  ∀ cfg : Config,
    (25 ≤ cfg.accWidth → ∀ (n : Nat) (cs : List (List Sample)), cs.length ≤ 256 → (∀ c ∈ cs, c.length = n) →
      (cs.foldl (addSamples cfg) (List.replicate n 0)).length = n ∧
      ∀ k, k < n →
        (cs.foldl (addSamples cfg) (List.replicate n 0)).getD k 0 = sampleSum cs k ∧
        (sampleSum cs k).natAbs ≤ 2 ^ 23 ∧
        ∀ c ∈ cs,
          (subSamples cfg (cs.foldl (addSamples cfg) (List.replicate n 0)) c).getD k 0 = sampleSum cs k - (c.getD k 0).toInt ∧
          (sampleSum cs k - (c.getD k 0).toInt).natAbs ≤ 2 ^ 23 + 2 ^ 15) ∧
    ∀ (w : Nat) (v : List Int) (c : List Sample) (x : Int), cfg.accWidth = w + 1 →
      x ∈ addSamples cfg v c ∨ x ∈ subSamples cfg v c → -(2 ^ w : Int) ≤ x ∧ x < (2 ^ w : Int)

/-- The clamp (42_mixer.md R272): an accumulator value becomes the `s16` nearest to it within the bounds, and no mixed output holds
the sample -32768 when the lower bound is above it. -/
def Obligations.MixedSamplesAreClamped : Prop :=
  ∀ c : Config, c.WF →
    (∀ x : Int,
      (clampSample c x).toInt = max c.clampMin (min c.clampMax x)) ∧
    ∀ v : List Int,
      (mixBytes c v).length = 2 * v.length ∧ samplesOf (mixBytes c v) = v.map (clampSample c) ∧
      (-32768 < c.clampMin → (0x8000 : Sample) ∉ samplesOf (mixBytes c v))

/-- What does not fit is cut off or dropped, with its fault bit, and nothing else changes: bytes at a bufferizer, a buffer at
an output queue (42_mixer.md R263, R271). -/
def Obligations.SummerOverflowIsFlagged : Prop :=
  ∀ (i : Nat) (d : Bytes) (s : State),
    ((∀ cap, s.cfg.mixBufCap = some cap → (s.port i).buf.length + d.length ≤ cap) →
      putBytes i d s = s.mapPort i fun q => { q with buf := q.buf ++ d }) ∧
    (∀ cap, s.cfg.mixBufCap = some cap → cap < (s.port i).buf.length + d.length →
      putBytes i d s =
        { s.mapPort i fun q => { q with buf := q.buf ++ d.take (cap - (s.port i).buf.length) } with
          fault := s.fault ||| 0x4 }) ∧
    ((∀ cap, s.cfg.mixOutqCap = some cap → (s.port i).outq.length < cap) →
      pushOut i d s = s.mapPort i fun q => { q with outq := q.outq ++ [d] }) ∧
    (∀ cap, s.cfg.mixOutqCap = some cap → cap ≤ (s.port i).outq.length →
      pushOut i d s = { s with fault := s.fault ||| 0x2 })

/-- The tick sizes (00_scope.md R7): with a rate that is a multiple of 8000, `N` is exact and a multiple of 8. -/
def Obligations.TickSizesAreExact : Prop :=
  ∀ s : State,
    s.tickBytes = 2 * s.tickSamples ∧ s.fcThreshold = s.cfg.fcThresholdTicks * s.tickBytes ∧
    (8000 ∣ s.mix.runRate.toNat →
      1000 * s.tickSamples = s.mix.runRate.toNat * s.mix.runNch.toNat * s.cfg.tickMs ∧ s.tickSamples % 8 = 0)
end

