-- ==== Sys2Proof/Laws/Decode.lean ====
section
/-! SUPPORT. What the pieces of the encoding do: the bits of a header and its fields, the opcode map, payload packing. -/

namespace Sys2Proof

/-! ### Headers -/

/-- The bits of an encoded header (30_encoding.md R111). -/
theorem getLsbD_header (o : Op) (idx : Byte) (imm : BitVec 16) (i : Nat) :
    (header o idx imm).getLsbD i =
      if i < 16 then imm.getLsbD i else if i < 24 then idx.getLsbD (i - 16) else o.opc.getLsbD (i - 24) := by
  have h : (o.opc ++ idx ++ imm : BitVec (8 + 8 + 16)).getLsbD i = _ := BitVec.getLsbD_append
  refine h.trans ?_
  rw [BitVec.getLsbD_append]
  by_cases h₁ : i < 16
  · simp [h₁]
  · by_cases h₂ : i < 24
    · simp [h₁, h₂, show i - 16 < 8 by omega]
    · simp [h₁, h₂, show ¬ i - 16 < 8 by omega, show i - 16 - 8 = i - 24 by omega]

@[simp] theorem headerOpc_header (o : Op) (idx : Byte) (imm : BitVec 16) : headerOpc (header o idx imm) = o.opc := by
  refine BitVec.eq_of_getLsbD_eq fun i hi => ?_
  simp only [headerOpc, BitVec.getLsbD_extractLsb', getLsbD_header, hi]
  simp [show ¬ 24 + i < 16 by omega]

@[simp] theorem headerIdx_header (o : Op) (idx : Byte) (imm : BitVec 16) : headerIdx (header o idx imm) = idx := by
  refine BitVec.eq_of_getLsbD_eq fun i hi => ?_
  simp only [headerIdx, BitVec.getLsbD_extractLsb', getLsbD_header, hi]
  simp [show 16 + i < 24 by omega]

@[simp] theorem headerImm_header (o : Op) (idx : Byte) (imm : BitVec 16) : headerImm (header o idx imm) = imm := by
  refine BitVec.eq_of_getLsbD_eq fun i hi => ?_
  simp [headerImm, getLsbD_header, hi]

@[simp] theorem headerM_header (o : Op) (m : Bool) (imm : BitVec 16) : headerM (header o (idxM m) imm) = m := by
  have h : headerM (header o (idxM m) imm) = (idxM m).getLsbD 0 := getLsbD_header o (idxM m) imm 16
  rw [h]
  cases m <;> decide

@[simp] theorem headerEn_header (o : Op) (idx : Byte) (en : Bool) : headerEn (header o idx (immEn en)) = en := by
  have h : headerEn (header o idx (immEn en)) = (immEn en).getLsbD 0 := getLsbD_header o idx (immEn en) 0
  rw [h]
  cases en <;> decide

@[simp] theorem ofHeader_header (o : Op) (idx : Byte) (imm : BitVec 16) : Op.ofHeader (header o idx imm) = some o := by
  cases o <;> simp [Op.ofHeader, Op.all, Op.opc]

/-- A header selects a row by its opcode alone. -/
theorem ofHeader_eq_some {h : Word} {o : Op} : Op.ofHeader h = some o ↔ headerOpc h = o.opc := by
  constructor
  · intro hf
    have := List.find?_some hf
    exact (beq_iff_eq.mp this).symm
  · intro ho
    simp only [Op.ofHeader, ho]
    cases o <;> decide

/-- A row's fixed bits are its own: the pattern has no bit outside the mask, and the mask holds the whole opcode. -/
theorem pattern_and_mask (o : Op) : o.pattern &&& o.mask = o.pattern := by cases o <;> decide

/-- A header with a row's fixed bits, bit by bit. -/
theorem matchesHeader_iff {o : Op} {h : Word} :
    o.matchesHeader h = true ↔ ∀ i, i < 32 → o.mask.getLsbD i = true → h.getLsbD i = o.pattern.getLsbD i := by
  simp only [Op.matchesHeader, beq_iff_eq]
  constructor
  · intro he i _ hm
    rw [← he]; simp [hm]
  · intro hb
    refine BitVec.eq_of_getLsbD_eq fun i hi => ?_
    rw [← pattern_and_mask o]
    by_cases hm : o.mask.getLsbD i = true
    · simp [hm, hb i hi hm]
    · simp [hm]

/-! ### Payload packing -/

/-- The bits of a payload word (30_encoding.md R113). -/
theorem getLsbD_bytesWord (a b c d : Byte) (i : Nat) : (bytesWord a b c d).getLsbD i =
    if i < 8 then d.getLsbD i else if i < 16 then c.getLsbD (i - 8) else if i < 24 then b.getLsbD (i - 16)
      else a.getLsbD (i - 24) := by
  have h : (a ++ b ++ c ++ d : BitVec (8 + 8 + 8 + 8)).getLsbD i = _ := BitVec.getLsbD_append
  refine h.trans ?_
  rw [BitVec.getLsbD_append, BitVec.getLsbD_append]
  by_cases h₁ : i < 8
  · simp [h₁]
  · by_cases h₂ : i < 16
    · simp [h₁, h₂, show i - 8 < 8 by omega]
    · by_cases h₃ : i < 24
      · simp [h₁, h₂, h₃, show ¬ i - 8 < 8 by omega, show i - 8 - 8 = i - 16 by omega, show i - 16 < 8 by omega]
      · simp [h₁, h₂, h₃, show ¬ i - 8 < 8 by omega, show ¬ i - 8 - 8 < 8 by omega,
          show i - 8 - 8 - 8 = i - 24 by omega]

/-- A word's bytes are the four it was made of. -/
@[simp] theorem wordBytes_bytesWord (a b c d : Byte) : wordBytes (bytesWord a b c d) = [a, b, c, d] := by
  simp only [wordBytes, List.cons.injEq, and_true]
  refine ⟨?_, ?_, ?_, ?_⟩ <;> refine BitVec.eq_of_getLsbD_eq fun i hi => ?_ <;>
    simp only [BitVec.getLsbD_extractLsb', getLsbD_bytesWord, hi, decide_true, Bool.true_and]
  · simp [show ¬ 24 + i < 8 by omega, show ¬ 24 + i < 16 by omega]
  · simp [show ¬ 16 + i < 8 by omega, show 16 + i < 24 by omega]
  · simp [show 8 + i < 16 by omega]
  · simp [hi]

/-- A word is made of its four bytes. -/
theorem bytesWord_of_wordBytes (w : Word) :
    bytesWord (w.extractLsb' 24 8) (w.extractLsb' 16 8) (w.extractLsb' 8 8) (w.extractLsb' 0 8) = w := by
  refine BitVec.eq_of_getLsbD_eq fun i hi => ?_
  rw [getLsbD_bytesWord]
  simp only [BitVec.getLsbD_extractLsb']
  by_cases h₁ : i < 8
  · simp [h₁]
  · by_cases h₂ : i < 16
    · simp [h₁, h₂, show i - 8 < 8 by omega, show 8 + (i - 8) = i by omega]
    · by_cases h₃ : i < 24
      · simp [h₁, h₂, h₃, show i - 16 < 8 by omega, show 16 + (i - 16) = i by omega]
      · simp [h₁, h₂, h₃, show i - 24 < 8 by omega, show 24 + (i - 24) = i by omega]

@[simp] theorem length_wordBytes (w : Word) : (wordBytes w).length = 4 := rfl

theorem length_packBytes (p : Bytes) : (packBytes p).length = payloadWords p.length := by
  induction p using packBytes.induct <;> simp_all [packBytes, payloadWords]
  omega

/-- Packing loses nothing. -/
theorem unpackBytes_packBytes (p : Bytes) : unpackBytes p.length (packBytes p) = p := by
  induction p using packBytes.induct <;> simp_all [packBytes, unpackBytes]

theorem length_flatMap_wordBytes (ws : List Word) : (ws.flatMap wordBytes).length = 4 * ws.length := by
  induction ws with
  | nil => rfl
  | cons w ws ih => simp [ih]; omega

/-- Enough words give all the bytes asked for. -/
theorem length_unpackBytes {n : Nat} {ws : List Word} (h : n ≤ 4 * ws.length) : (unpackBytes n ws).length = n := by
  rw [unpackBytes, List.length_take, length_flatMap_wordBytes, Nat.min_eq_left h]

/-! ### Fetching -/

/-- What `fetch` answers when a whole command is at the port: the decoder's answer on exactly its words. -/
theorem fetch_of_length {ws : List Word} {n : Nat} (hn : commandLength ws = some n) (hl : n ≤ ws.length) :
    fetch ws = match decodeCommand (ws.take n) with
               | .ok i => .decoded i (ws.drop n)
               | .error e => .illegal e (ws.drop n) := by
  unfold fetch
  rw [hn]
  exact if_neg (Nat.not_lt.mpr hl)

/-- The words of a fetched command are the first at the port, as many as its length says. -/
theorem fetch_eq_decoded {ws rest : List Word} {i : Instr} (h : fetch ws = .decoded i rest) :
    ∃ n, commandLength ws = some n ∧ n ≤ ws.length ∧ decodeCommand (ws.take n) = .ok i ∧ rest = ws.drop n := by
  unfold fetch at h
  split at h
  · cases h
  · rename_i n hn
    split at h
    · cases h
    · rename_i hl
      split at h
      · rename_i j hj
        cases h
        exact ⟨n, hn, Nat.le_of_not_lt hl, hj, rfl⟩
      · cases h

/-- The words of an illegal command likewise. -/
theorem fetch_eq_illegal {ws rest : List Word} {e : IllegalEncoding} (h : fetch ws = .illegal e rest) :
    ∃ n, commandLength ws = some n ∧ n ≤ ws.length ∧ decodeCommand (ws.take n) = .error e ∧ rest = ws.drop n := by
  unfold fetch at h
  split at h
  · cases h
  · rename_i n hn
    split at h
    · cases h
    · rename_i hl
      split at h
      · cases h
      · rename_i e' he
        cases h
        exact ⟨n, hn, Nat.le_of_not_lt hl, he, rfl⟩

end Sys2Proof
end

