-- ==== Sys2Proof/Laws/State.lean ====
section
/-! SUPPORT. One lemma per field per update of the state, so that no proof unfolds a record update. -/

namespace Sys2Proof.Machine

/-! ### `respond` -/

@[simp] theorem State.respond_cfg (r : Response) (s : State) : (s.respond r).cfg = s.cfg := rfl
@[simp] theorem State.respond_cmd (r : Response) (s : State) : (s.respond r).cmd = s.cmd := rfl
@[simp] theorem State.respond_resp (r : Response) (s : State) : (s.respond r).resp = s.resp ++ [r] := rfl
@[simp] theorem State.respond_fault (r : Response) (s : State) : (s.respond r).fault = s.fault := rfl
@[simp] theorem State.respond_unp (r : Response) (s : State) : (s.respond r).unp = s.unp := rfl
@[simp] theorem State.respond_mix (r : Response) (s : State) : (s.respond r).mix = s.mix := rfl

/-! ### `reject` -/

@[simp] theorem State.reject_cfg (code : RespCode) (s : State) : (s.reject code).cfg = s.cfg := rfl
@[simp] theorem State.reject_cmd (code : RespCode) (s : State) : (s.reject code).cmd = s.cmd := rfl
@[simp] theorem State.reject_resp (code : RespCode) (s : State) : (s.reject code).resp = s.resp ++ [⟨code, 0, []⟩] := rfl
@[simp] theorem State.reject_fault (code : RespCode) (s : State) : (s.reject code).fault = s.fault := rfl
@[simp] theorem State.reject_unp (code : RespCode) (s : State) : (s.reject code).unp = s.unp := rfl
@[simp] theorem State.reject_mix (code : RespCode) (s : State) : (s.reject code).mix = s.mix := rfl

/-! ### `setFault` -/

@[simp] theorem State.setFault_cfg (bit : BitVec 32) (s : State) : (s.setFault bit).cfg = s.cfg := rfl
@[simp] theorem State.setFault_cmd (bit : BitVec 32) (s : State) : (s.setFault bit).cmd = s.cmd := rfl
@[simp] theorem State.setFault_resp (bit : BitVec 32) (s : State) : (s.setFault bit).resp = s.resp := rfl
@[simp] theorem State.setFault_fault (bit : BitVec 32) (s : State) : (s.setFault bit).fault = s.fault ||| bit := rfl
@[simp] theorem State.setFault_unp (bit : BitVec 32) (s : State) : (s.setFault bit).unp = s.unp := rfl
@[simp] theorem State.setFault_mix (bit : BitVec 32) (s : State) : (s.setFault bit).mix = s.mix := rfl

/-! ### `mapUnp` -/

@[simp] theorem State.mapUnp_cfg (f : Unp → Unp) (s : State) : (s.mapUnp f).cfg = s.cfg := rfl
@[simp] theorem State.mapUnp_cmd (f : Unp → Unp) (s : State) : (s.mapUnp f).cmd = s.cmd := rfl
@[simp] theorem State.mapUnp_resp (f : Unp → Unp) (s : State) : (s.mapUnp f).resp = s.resp := rfl
@[simp] theorem State.mapUnp_fault (f : Unp → Unp) (s : State) : (s.mapUnp f).fault = s.fault := rfl
@[simp] theorem State.mapUnp_unp (f : Unp → Unp) (s : State) : (s.mapUnp f).unp = f s.unp := rfl
@[simp] theorem State.mapUnp_mix (f : Unp → Unp) (s : State) : (s.mapUnp f).mix = s.mix := rfl

/-! ### `mapMix` -/

@[simp] theorem State.mapMix_cfg (f : Mix → Mix) (s : State) : (s.mapMix f).cfg = s.cfg := rfl
@[simp] theorem State.mapMix_cmd (f : Mix → Mix) (s : State) : (s.mapMix f).cmd = s.cmd := rfl
@[simp] theorem State.mapMix_resp (f : Mix → Mix) (s : State) : (s.mapMix f).resp = s.resp := rfl
@[simp] theorem State.mapMix_fault (f : Mix → Mix) (s : State) : (s.mapMix f).fault = s.fault := rfl
@[simp] theorem State.mapMix_unp (f : Mix → Mix) (s : State) : (s.mapMix f).unp = s.unp := rfl
@[simp] theorem State.mapMix_mix (f : Mix → Mix) (s : State) : (s.mapMix f).mix = f s.mix := rfl

/-! ### `mapPort` -/

@[simp] theorem State.mapPort_cfg (i : Nat) (f : Port → Port) (s : State) : (s.mapPort i f).cfg = s.cfg := rfl
@[simp] theorem State.mapPort_cmd (i : Nat) (f : Port → Port) (s : State) : (s.mapPort i f).cmd = s.cmd := rfl
@[simp] theorem State.mapPort_resp (i : Nat) (f : Port → Port) (s : State) : (s.mapPort i f).resp = s.resp := rfl
@[simp] theorem State.mapPort_fault (i : Nat) (f : Port → Port) (s : State) : (s.mapPort i f).fault = s.fault := rfl
@[simp] theorem State.mapPort_unp (i : Nat) (f : Port → Port) (s : State) : (s.mapPort i f).unp = s.unp := rfl
@[simp] theorem State.mapPort_mix (i : Nat) (f : Port → Port) (s : State) : (s.mapPort i f).mix = { s.mix with ports := s.mix.ports.modify i f } := rfl

/-! ### `mapPorts` -/

@[simp] theorem State.mapPorts_cfg (f : Port → Port) (s : State) : (s.mapPorts f).cfg = s.cfg := rfl
@[simp] theorem State.mapPorts_cmd (f : Port → Port) (s : State) : (s.mapPorts f).cmd = s.cmd := rfl
@[simp] theorem State.mapPorts_resp (f : Port → Port) (s : State) : (s.mapPorts f).resp = s.resp := rfl
@[simp] theorem State.mapPorts_fault (f : Port → Port) (s : State) : (s.mapPorts f).fault = s.fault := rfl
@[simp] theorem State.mapPorts_unp (f : Port → Port) (s : State) : (s.mapPorts f).unp = s.unp := rfl
@[simp] theorem State.mapPorts_mix (f : Port → Port) (s : State) : (s.mapPorts f).mix = { s.mix with ports := s.mix.ports.map f } := rfl

/-! ### `hostWrite` -/

@[simp] theorem State.hostWrite_cfg (ws : List Word) (s : State) : (s.hostWrite ws).cfg = s.cfg := rfl
@[simp] theorem State.hostWrite_cmd (ws : List Word) (s : State) : (s.hostWrite ws).cmd = s.cmd ++ ws := rfl
@[simp] theorem State.hostWrite_resp (ws : List Word) (s : State) : (s.hostWrite ws).resp = s.resp := rfl
@[simp] theorem State.hostWrite_fault (ws : List Word) (s : State) : (s.hostWrite ws).fault = s.fault := rfl
@[simp] theorem State.hostWrite_unp (ws : List Word) (s : State) : (s.hostWrite ws).unp = s.unp := rfl
@[simp] theorem State.hostWrite_mix (ws : List Word) (s : State) : (s.hostWrite ws).mix = s.mix := rfl

/-! ### Reading a port -/

@[simp] theorem State.port_respond (r : Response) (s : State) (i : Nat) : (s.respond r).port i = s.port i := rfl
@[simp] theorem State.port_reject (code : RespCode) (s : State) (i : Nat) : (s.reject code).port i = s.port i := rfl
@[simp] theorem State.port_setFault (bit : BitVec 32) (s : State) (i : Nat) : (s.setFault bit).port i = s.port i := rfl
@[simp] theorem State.port_mapUnp (f : Unp → Unp) (s : State) (i : Nat) : (s.mapUnp f).port i = s.port i := rfl

theorem State.port_eq_of_ports {s t : State} (h : t.mix.ports = s.mix.ports) (i : Nat) : t.port i = s.port i := by
  simp [State.port, h]

/-- Outside the table a port reads as after reset. -/
theorem State.port_of_le {s : State} {i : Nat} (h : s.mix.ports.length ≤ i) : s.port i = Port.reset := by
  simp [State.port, List.getD, List.getElem?_eq_none h]

theorem State.port_mem {s : State} {i : Nat} (h : i < s.mix.ports.length) : s.port i ∈ s.mix.ports := by
  simp [State.port, List.getD, List.getElem?_eq_getElem h]

/-- A port of the table is some port by its index. -/
theorem State.exists_port_of_mem {s : State} {q : Port} (h : q ∈ s.mix.ports) :
    ∃ i, i < s.mix.ports.length ∧ s.port i = q := by
  obtain ⟨i, hi, rfl⟩ := List.getElem_of_mem h
  exact ⟨i, hi, by simp [State.port, List.getD, List.getElem?_eq_getElem hi]⟩

/-- Changing port `i` changes port `i`. -/
theorem State.port_mapPort_self {s : State} {i : Nat} (f : Port → Port) (h : i < s.mix.ports.length) :
    (s.mapPort i f).port i = f (s.port i) := by
  simp [State.port, List.getD, List.getElem?_eq_getElem h]

/-- Changing port `i` leaves every other port alone. -/
theorem State.port_mapPort_ne {s : State} {i j : Nat} (f : Port → Port) (h : i ≠ j) :
    (s.mapPort i f).port j = s.port j := by
  simp [State.port, List.getD, h]

/-- A field that the change keeps is kept at every port. -/
theorem State.port_mapPort_keep {α : Type} (g : Port → α) {s : State} {i : Nat} {f : Port → Port}
    (h : ∀ q, g (f q) = g q) (j : Nat) : g ((s.mapPort i f).port j) = g (s.port j) := by
  by_cases hij : i = j
  · subst hij
    by_cases hi : i < s.mix.ports.length
    · rw [State.port_mapPort_self f hi, h]
    · have hi := Nat.le_of_not_lt hi
      rw [State.port_of_le hi, State.port_of_le (s := s.mapPort i f) (by simpa using hi)]
  · rw [State.port_mapPort_ne f hij]

/-- Changing every port changes each in the table. -/
theorem State.port_mapPorts {s : State} {i : Nat} (f : Port → Port) (h : i < s.mix.ports.length) :
    (s.mapPorts f).port i = f (s.port i) := by
  simp [State.port, List.getD, List.getElem?_eq_getElem h]

/-- A change that keeps a port as after reset reads at every index. -/
theorem State.port_mapPorts_of_reset {s : State} (i : Nat) {f : Port → Port} (hf : f Port.reset = Port.reset) :
    (s.mapPorts f).port i = f (s.port i) := by
  by_cases hi : i < s.mix.ports.length
  · exact State.port_mapPorts f hi
  · have hi := Nat.le_of_not_lt hi
    rw [State.port_of_le hi, State.port_of_le (s := s.mapPorts f) (by simpa using hi), hf]

end Sys2Proof.Machine
end

