-- ==== Sys2Proof/Laws/Ops.lean ====
section
/-! SUPPORT. What each shared operation of Ops.lean can do, said once. -/

namespace Sys2Proof.Machine

/-! ### Ending a command -/

/-- A finished command gives one `OK` response and changes nothing else. -/
theorem finish_eq_next (value : Word) (payload : Bytes) (s : State) :
    finish value payload s = .next { s with resp := s.resp ++ [⟨.ok, value, payload⟩] } := rfl

/-- A rejected command gives one response with value 0 and no payload, and changes nothing else (60_exceptions.md R304). -/
theorem raise_eq_next (code : RespCode) (s : State) :
    raise code s = .next { s with resp := s.resp ++ [⟨code, 0, []⟩] } := rfl

/-- A per-port command runs exactly when its port is in range. -/
theorem withPort_of_lt {port : Byte} {s : State} {run : Nat → Outcome} (h : port.toNat < s.cfg.nports) :
    withPort port s run = run port.toNat := if_pos h

/-- And is illegal otherwise. -/
theorem withPort_of_le {port : Byte} {s : State} {run : Nat → Outcome} (h : s.cfg.nports ≤ port.toNat) :
    withPort port s run = .next { s with resp := s.resp ++ [⟨.illegal, 0, []⟩] } := if_neg (Nat.not_lt.mpr h)

/-! ### Capacities -/

@[simp] theorem fits_none (n : Nat) : fits none n = true := rfl

@[simp] theorem fits_some (k n : Nat) : fits (some k) n = decide (n ≤ k) := rfl

/-- An amount fits exactly when it is within the capacity there is. -/
theorem fits_iff {cap : Option Nat} {n : Nat} : fits cap n = true ↔ ∀ k, cap = some k → n ≤ k := by
  cases cap <;> simp

/-- An amount does not fit exactly when there is a capacity below it. -/
theorem not_fits_iff {cap : Option Nat} {n : Nat} : fits cap n = false ↔ ∃ k, cap = some k ∧ k < n := by
  cases cap <;> simp

/-- What fits leaves room for less. -/
theorem fits_of_le {cap : Option Nat} {m n : Nat} (hn : fits cap n = true) (h : m ≤ n) : fits cap m = true :=
  fits_iff.mpr fun k hk => Nat.le_trans h (fits_iff.mp hn k hk)

/-! ### The fault register -/

/-- Setting a bit clears none. -/
theorem setFault_sticky (bit : BitVec 32) (s : State) : s.fault &&& (s.setFault bit).fault = s.fault := by
  refine BitVec.eq_of_getLsbD_eq fun i hi => ?_
  cases h : s.fault.getLsbD i <;> simp [h]

/-- The three bits keep the reserved bits of `FAULT` at 0 (10_state.md R24). -/
theorem setFault_legal {bit : BitVec 32} {s : State} (hb : bit &&& 0xFFFFFFF8 = 0) (hs : faultBitsLegal s.fault) :
    faultBitsLegal (s.setFault bit).fault := by
  show (s.fault ||| bit) &&& 0xFFFFFFF8 = 0
  rw [BitVec.and_comm, BitVec.and_or_distrib_left, BitVec.and_comm, show s.fault &&& 0xFFFFFFF8 = 0 from hs,
    BitVec.and_comm, hb]
  decide

/-! ### Ports -/

/-- Two changes of one port are one change. -/
theorem mapPort_mapPort (i : Nat) (f g : Port → Port) (s : State) :
    (s.mapPort i f).mapPort i g = s.mapPort i fun q => g (f q) := by
  simp [State.mapPort, State.mapMix, List.modify_modify_eq, Function.comp_def]

/-- A change that keeps the port changes nothing. -/
theorem mapPort_id (i : Nat) (s : State) : (s.mapPort i fun q => q) = s := by
  have h : s.mix.ports.modify i (fun q => q) = s.mix.ports := List.modify_id ..
  simp only [State.mapPort, State.mapMix, h]

/-- Only what a change does to the port it finds matters. -/
theorem mapPort_congr {i : Nat} {f g : Port → Port} {s : State} (hi : i < s.mix.ports.length)
    (h : f (s.port i) = g (s.port i)) : s.mapPort i f = s.mapPort i g := by
  have hp : s.mix.ports[i]? = some (s.port i) := by
    simp [State.port, List.getD, List.getElem?_eq_getElem hi]
  have : s.mix.ports.modify i f = s.mix.ports.modify i g := by
    refine List.ext_getElem? fun j => ?_
    simp only [List.getElem?_modify]
    by_cases hj : i = j
    · subst hj
      simp [hp, h]
    · simp [hj]
  simp only [State.mapPort, State.mapMix, this]

/-- The number of ports never changes. -/
@[simp] theorem length_ports_mapPort (i : Nat) (f : Port → Port) (s : State) :
    (s.mapPort i f).mix.ports.length = s.mix.ports.length := by simp

@[simp] theorem length_ports_mapPorts (f : Port → Port) (s : State) :
    (s.mapPorts f).mix.ports.length = s.mix.ports.length := by simp

/-- A port after a change of port `i`: the changed one, or the old one. -/
theorem port_mapPort (i j : Nat) (f : Port → Port) (s : State) (hj : j < s.mix.ports.length) :
    (s.mapPort i f).port j = if i = j then f (s.port j) else s.port j := by
  split
  · next h => subst h; exact State.port_mapPort_self f hj
  · next h => exact State.port_mapPort_ne f h

end Sys2Proof.Machine
end

