-- ==== Sys2Proof/Laws/Tick.lean ====
section
/-! SUPPORT. What the procedures of a tick can do, said once: outputs, bufferizers, and the tick's frame. -/

namespace Sys2Proof.Machine

/-! ### The frame of a tick's procedures -/

/-- `t` is `s` but for the ports' contents and the fault register. -/
structure SameButPorts (s t : State) : Prop where
  cfg : t.cfg = s.cfg
  cmd : t.cmd = s.cmd
  resp : t.resp = s.resp
  unp : t.unp = s.unp
  mix : t.mix = { s.mix with ports := t.mix.ports }
  length : t.mix.ports.length = s.mix.ports.length

theorem SameButPorts.refl (s : State) : SameButPorts s s := ⟨rfl, rfl, rfl, rfl, rfl, rfl⟩

theorem SameButPorts.trans {s t u : State} (h : SameButPorts s t) (h' : SameButPorts t u) : SameButPorts s u :=
  ⟨h'.cfg.trans h.cfg, h'.cmd.trans h.cmd, h'.resp.trans h.resp, h'.unp.trans h.unp, by rw [h'.mix, h.mix],
    h'.length.trans h.length⟩

theorem SameButPorts.rate {s t : State} (h : SameButPorts s t) : t.mix.rate = s.mix.rate := by rw [h.mix]
theorem SameButPorts.nch {s t : State} (h : SameButPorts s t) : t.mix.nch = s.mix.nch := by rw [h.mix]
theorem SameButPorts.conf {s t : State} (h : SameButPorts s t) : t.mix.conf = s.mix.conf := by rw [h.mix]
theorem SameButPorts.running {s t : State} (h : SameButPorts s t) : t.mix.running = s.mix.running := by rw [h.mix]
theorem SameButPorts.lastNow {s t : State} (h : SameButPorts s t) : t.mix.lastNow = s.mix.lastNow := by rw [h.mix]
theorem SameButPorts.bypass {s t : State} (h : SameButPorts s t) : t.mix.bypass = s.mix.bypass := by rw [h.mix]
theorem SameButPorts.runRate {s t : State} (h : SameButPorts s t) : t.mix.runRate = s.mix.runRate := by rw [h.mix]
theorem SameButPorts.runNch {s t : State} (h : SameButPorts s t) : t.mix.runNch = s.mix.runNch := by rw [h.mix]

theorem sameButPorts_mapPort (i : Nat) (f : Port → Port) (s : State) : SameButPorts s (s.mapPort i f) :=
  ⟨rfl, rfl, rfl, rfl, rfl, length_ports_mapPort i f s⟩

theorem sameButPorts_mapPorts (f : Port → Port) (s : State) : SameButPorts s (s.mapPorts f) :=
  ⟨rfl, rfl, rfl, rfl, rfl, length_ports_mapPorts f s⟩

theorem sameButPorts_setFault (bit : BitVec 32) (s : State) : SameButPorts s (s.setFault bit) :=
  ⟨rfl, rfl, rfl, rfl, rfl, rfl⟩

theorem sameButPorts_foldl {α : Type} {f : State → α → State} (h : ∀ s a, SameButPorts s (f s a)) (xs : List α) (s : State) :
    SameButPorts s (xs.foldl f s) := by
  induction xs generalizing s with
  | nil => exact .refl s
  | cons x xs ih => exact (h s x).trans (ih _)

theorem pushOut_frame (o : Nat) (buf : Bytes) (s : State) : SameButPorts s (pushOut o buf s) := by
  unfold pushOut
  split
  · exact sameButPorts_mapPort ..
  · exact sameButPorts_setFault ..

theorem forwardTo_frame (pkts : List Bytes) (o : Nat) (s : State) : SameButPorts s (forwardTo pkts s o) :=
  sameButPorts_foldl (fun w d => pushOut_frame o d w) pkts s

theorem putBytes_frame (i : Nat) (d : Bytes) (s : State) : SameButPorts s (putBytes i d s) := by
  unfold putBytes
  dsimp only
  split
  · exact sameButPorts_mapPort ..
  · exact (sameButPorts_mapPort ..).trans (sameButPorts_setFault ..)

theorem drainInput_frame (i : Nat) (s : State) : SameButPorts s (drainInput i s) :=
  (sameButPorts_mapPort ..).trans (sameButPorts_foldl (fun w d => putBytes_frame i d w) _ _)

theorem accumulate_frame (i : Nat) (r : MixRun) : SameButPorts r.st (accumulate i r).st := by
  unfold accumulate
  dsimp only
  split
  · exact sameButPorts_mapPort ..
  · exact .refl _

theorem mixPort_frame (now : BitVec 64) (r : MixRun) (i : Nat) : SameButPorts r.st (mixPort now r i).st :=
  ((drainInput_frame i r.st).trans (sameButPorts_mapPort ..)).trans
    ((accumulate_frame i { r with st := (drainInput i r.st).mapPort i sampleFullness }).trans (sameButPorts_mapPort ..))

theorem foldl_mixPort_frame (now : BitVec 64) (act : List Nat) (r : MixRun) :
    SameButPorts r.st (act.foldl (mixPort now) r).st := by
  induction act generalizing r with
  | nil => exact .refl _
  | cons i act ih => exact (mixPort_frame now r i).trans (ih _)

theorem dispatchOutputs_frame (r : MixRun) : SameButPorts r.st (dispatchOutputs r) := by
  refine sameButPorts_foldl (fun w o => ?_) _ _
  split
  · exact pushOut_frame ..
  · exact .refl _

/-- A tick's mix changes the bypass, the ports and the fault register alone. -/
theorem mixTick_frame (act : List Nat) (now : BitVec 64) (s : State) :
    SameButPorts (s.mapMix fun m => { m with bypass := none }) (mixTick act now s) :=
  (foldl_mixPort_frame now act ⟨_, _, _⟩).trans (dispatchOutputs_frame _)

/-- So does a tick in bypass. -/
theorem bypassTick_frame (p : Nat) (s : State) :
    SameButPorts (s.mapMix fun m => { m with bypass := some p }) (bypassTick p s) := by
  have drained : SameButPorts (s.mapMix fun m => { m with bypass := some p })
      (((if s.mix.bypass = some p then s else s.mapPort p fun q => { q with buf := [] }).mapMix fun m =>
        { m with bypass := some p }).mapPort p fun q => { q with inq := [] }) := by
    refine SameButPorts.trans ?_ (sameButPorts_mapPort ..)
    split
    · exact .refl _
    · exact ⟨rfl, rfl, rfl, rfl, rfl, length_ports_mapPort ..⟩
  exact drained.trans (sameButPorts_foldl (fun w o => forwardTo_frame _ o w) _ _)

/-- A whole tick takes the time and may change the bypass, the ports and the fault register, nothing else. -/
theorem tickSteps_frame (now : BitVec 64) (s : State) :
    ∃ bypass, SameButPorts (s.mapMix fun m => { m with lastNow := some now, bypass := bypass }) (tickSteps now s) := by
  have seen : ∀ b, SameButPorts (s.mapMix fun m => { m with lastNow := some now, bypass := b })
      (((((s.mapMix fun m => { m with lastNow := some now }).mapPorts discardIfMuted).mapPorts (noteSeen now)).mapMix
        fun m => { m with bypass := b })) := by
    intro b
    refine ⟨rfl, rfl, rfl, rfl, rfl, ?_⟩
    simp
  unfold tickSteps
  dsimp only
  split
  · exact ⟨none, seen none⟩
  · exact ⟨some _, (seen _).trans (bypassTick_frame ..)⟩
  · exact ⟨none, (seen none).trans (mixTick_frame ..)⟩

/-! ### Queues with a capacity -/

theorem takeRoom_nil {α : Type} (cap : Option Nat) (held : Nat) : takeRoom cap held ([] : List α) = [] := by
  cases cap <;> simp [takeRoom]

/-- Entries that fit are all let in. -/
theorem takeRoom_of_fits {α : Type} {cap : Option Nat} {held : Nat} {xs : List α}
    (h : fits cap (held + xs.length) = true) : takeRoom cap held xs = xs := by
  cases cap with
  | none => rfl
  | some k => exact List.take_of_length_le (by simp at h; omega)

/-- Letting entries in one after another. -/
theorem takeRoom_cons {α : Type} (cap : Option Nat) (held : Nat) (x : α) (xs : List α) :
    takeRoom cap held (x :: xs) =
      if fits cap (held + 1) then x :: takeRoom cap (held + 1) xs else [] := by
  cases cap with
  | none => rfl
  | some k =>
    by_cases h : held + 1 ≤ k
    · simp [takeRoom, h, show k - held = k - (held + 1) + 1 by omega]
    · simp [takeRoom, h, show k - held = 0 by omega]

/-- What an output does to the ports and the fault register: the buffer enters the queue, or is dropped with bit 1. -/
theorem pushOut_cases (o : Nat) (buf : Bytes) (s : State) :
    (fits s.cfg.mixOutqCap ((s.port o).outq.length + 1) = true ∧
      pushOut o buf s = s.mapPort o fun q => { q with outq := q.outq ++ [buf] }) ∨
    (fits s.cfg.mixOutqCap ((s.port o).outq.length + 1) = false ∧ pushOut o buf s = s.setFault mixOutqOvf) := by
  unfold pushOut
  split
  · next h => exact .inl ⟨h, rfl⟩
  · next h => exact .inr ⟨by simpa using h, rfl⟩

/-- Setting a fault bit again changes nothing. -/
theorem setFault_setFault (bit : BitVec 32) (s : State) : (s.setFault bit).setFault bit = s.setFault bit := by
  simp [State.setFault, BitVec.or_assoc]

/-- Forwarding packets to one output: those that fit enter its queue in order; any other sets bit 1. -/
theorem forwardTo_eq (pkts : List Bytes) (o : Nat) (s : State) (ho : o < s.mix.ports.length) :
    forwardTo pkts s o =
      (if takeRoom s.cfg.mixOutqCap (s.port o).outq.length pkts = pkts then id else State.setFault mixOutqOvf)
        (s.mapPort o fun q => { q with outq := q.outq ++ takeRoom s.cfg.mixOutqCap (s.port o).outq.length pkts }) := by
  induction pkts generalizing s with
  | nil => simp only [takeRoom_nil, List.append_nil, if_true, id]; exact (mapPort_id o s).symm
  | cons d pkts ih =>
    rw [forwardTo, List.foldl_cons]
    rcases pushOut_cases o d s with ⟨hf, hp⟩ | ⟨hf, hp⟩
    · rw [hp]
      refine (ih _ (by simpa using ho)).trans ?_
      rw [State.port_mapPort_self _ ho, mapPort_mapPort]
      simp [takeRoom_cons, hf]
    · have full : ∀ (xs : List Bytes) (w : State), fits w.cfg.mixOutqCap ((w.port o).outq.length + 1) = false →
          xs.foldl (fun w d => pushOut o d w) (w.setFault mixOutqOvf) = w.setFault mixOutqOvf := by
        intro xs w hw
        induction xs with
        | nil => rfl
        | cons x xs ihx =>
          rw [List.foldl_cons]
          rcases pushOut_cases o x (w.setFault mixOutqOvf) with ⟨h, _⟩ | ⟨_, h⟩
          · exact absurd h (by simp [hw])
          · rw [h, setFault_setFault]; exact ihx
      rw [hp, full pkts s hf]
      have hn : ¬ (takeRoom s.cfg.mixOutqCap (s.port o).outq.length (d :: pkts) = d :: pkts) := by
        simp [takeRoom_cons, hf]
      rw [if_neg hn, takeRoom_cons, hf]
      simp only [Bool.false_eq_true, if_false, List.append_nil]
      rw [mapPort_id]

/-! ### Bufferizers -/

/-- What is let in within the capacity stays within it. -/
theorem fits_takeRoom {cap : Option Nat} {held : Nat} (xs : Bytes) (h : fits cap held = true) :
    fits cap (held + (takeRoom cap held xs).length) = true := by
  cases cap with
  | none => rfl
  | some k => simp [takeRoom] at h ⊢; omega

/-- A bufferizer within its capacity takes what there is room for; a byte cut off sets bit 2. -/
theorem putBytes_eq (i : Nat) (d : Bytes) (s : State) (hb : fits s.cfg.mixBufCap (s.port i).buf.length = true) :
    putBytes i d s =
      (if takeRoom s.cfg.mixBufCap (s.port i).buf.length d = d then id else State.setFault mixBufOvf)
        (s.mapPort i fun q => { q with buf := q.buf ++ takeRoom s.cfg.mixBufCap (s.port i).buf.length d }) := by
  unfold putBytes
  dsimp only
  split
  · next h => rw [takeRoom_of_fits h]; simp
  · next h =>
    obtain ⟨k, hk, hlt⟩ := not_fits_iff.mp (by simpa using h)
    have hle : (s.port i).buf.length ≤ k := fits_iff.mp hb k hk
    have hn : ¬ (takeRoom s.cfg.mixBufCap (s.port i).buf.length d = d) := by
      rw [hk, takeRoom]
      intro he
      have := congrArg List.length he
      rw [List.length_take] at this
      omega
    rw [if_neg hn, hk]
    rfl

/-- Taking in two strings one after the other, or at once, is the same. -/
theorem takeRoom_append (cap : Option Nat) (held : Nat) (xs ys : Bytes) :
    takeRoom cap held (xs ++ ys) =
      takeRoom cap held xs ++ takeRoom cap (held + (takeRoom cap held xs).length) ys := by
  cases cap with
  | none => rfl
  | some k =>
    simp only [takeRoom, List.take_append, List.length_take]
    congr 2
    omega

/-- All of two strings is taken in exactly when all of each is. -/
theorem takeRoom_append_eq (cap : Option Nat) (held : Nat) (xs ys : Bytes) :
    takeRoom cap held (xs ++ ys) = xs ++ ys ↔
      takeRoom cap held xs = xs ∧ takeRoom cap (held + (takeRoom cap held xs).length) ys = ys := by
  rw [takeRoom_append]
  constructor
  · intro h
    have hl := congrArg List.length h
    have h₁ : (takeRoom cap held xs).length ≤ xs.length := by
      cases cap <;> simp [takeRoom]
    have h₂ : (takeRoom cap (held + (takeRoom cap held xs).length) ys).length ≤ ys.length := by
      cases cap <;> simp [takeRoom]
    rw [List.length_append, List.length_append] at hl
    exact List.append_inj h (by omega)
  · rintro ⟨h₁, h₂⟩
    rw [h₂, h₁]

/-- Packets put one by one, or as one string. -/
theorem foldl_putBytes_eq (i : Nat) (ds : List Bytes) (s : State) (hi : i < s.mix.ports.length)
    (hb : fits s.cfg.mixBufCap (s.port i).buf.length = true) :
    ds.foldl (fun w d => putBytes i d w) s =
      (if takeRoom s.cfg.mixBufCap (s.port i).buf.length ds.flatten = ds.flatten then id else State.setFault mixBufOvf)
        (s.mapPort i fun q => { q with buf := q.buf ++ takeRoom s.cfg.mixBufCap (s.port i).buf.length ds.flatten }) := by
  induction ds generalizing s with
  | nil =>
    simp only [List.flatten_nil, takeRoom_nil, List.append_nil, if_true, id, List.foldl_nil]
    exact (mapPort_id i s).symm
  | cons d ds ih =>
    have hcfg : (putBytes i d s).cfg = s.cfg := (putBytes_frame i d s).cfg
    have hbuf : ((putBytes i d s).port i).buf =
        (s.port i).buf ++ takeRoom s.cfg.mixBufCap (s.port i).buf.length d := by
      rw [putBytes_eq i d s hb]
      split <;> simp [State.port_mapPort_self _ hi]
    rw [List.foldl_cons, ih (putBytes i d s) (by rw [(putBytes_frame i d s).length]; exact hi)
      (by rw [hcfg, hbuf, List.length_append]; exact fits_takeRoom d hb)]
    rw [hcfg, hbuf, putBytes_eq i d s hb, List.length_append]
    have happ := takeRoom_append s.cfg.mixBufCap (s.port i).buf.length d ds.flatten
    have heq := takeRoom_append_eq s.cfg.mixBufCap (s.port i).buf.length d ds.flatten
    rw [List.flatten_cons, happ]
    rw [happ] at heq
    by_cases h₁ : takeRoom s.cfg.mixBufCap (s.port i).buf.length d = d
    · by_cases h₂ : takeRoom s.cfg.mixBufCap ((s.port i).buf.length +
          (takeRoom s.cfg.mixBufCap (s.port i).buf.length d).length) ds.flatten = ds.flatten
      · rw [if_pos h₁, if_pos h₂, if_pos (heq.mpr ⟨h₁, h₂⟩), id, id, id, mapPort_mapPort]
        simp only [List.append_assoc]
      · rw [if_pos h₁, if_neg h₂, if_neg fun h => h₂ (heq.mp h).2, id, mapPort_mapPort]
        simp only [List.append_assoc]
    · rw [if_neg h₁, if_neg fun h => h₁ (heq.mp h).1]
      split
      · exact congrArg (State.setFault mixBufOvf) ((mapPort_mapPort ..).trans (by simp only [List.append_assoc]))
      · refine (setFault_setFault mixBufOvf _).trans (congrArg (State.setFault mixBufOvf)
          ((mapPort_mapPort ..).trans (by simp only [List.append_assoc])))

/-- Draining an input: the packets that fit enter the bufferizer in order, cut at its capacity, and the queue is empty. -/
theorem drainInput_eq (i : Nat) (s : State) (hi : i < s.mix.ports.length)
    (hb : fits s.cfg.mixBufCap (s.port i).buf.length = true) :
    drainInput i s =
      (if takeRoom s.cfg.mixBufCap (s.port i).buf.length (s.port i).inq.flatten = (s.port i).inq.flatten
        then id else State.setFault mixBufOvf)
        (s.mapPort i fun q =>
          { q with
            inq := []
            buf := q.buf ++ takeRoom s.cfg.mixBufCap (s.port i).buf.length (s.port i).inq.flatten }) := by
  have hbuf : ((s.mapPort i fun q => { q with inq := [] }).port i).buf = (s.port i).buf := by
    rw [State.port_mapPort_self _ hi]
  rw [drainInput, foldl_putBytes_eq i _ _ (by simpa using hi) (by rw [hbuf]; exact hb), hbuf, mapPort_mapPort]
  rfl

/-- With the words of the statements: port `i` then holds the tick's input, and bit 2 tells that some was cut off. -/
theorem drainInput_eq_tickInput (i : Nat) (s : State) (hi : i < s.mix.ports.length)
    (hb : fits s.cfg.mixBufCap (s.port i).buf.length = true) :
    drainInput i s =
      (if tickInput s i = offeredInput s i then id else State.setFault mixBufOvf)
        (s.mapPort i fun q => { q with inq := [], buf := tickInput s i }) := by
  have hin : tickInput s i =
      (s.port i).buf ++ takeRoom s.cfg.mixBufCap (s.port i).buf.length (s.port i).inq.flatten := by
    unfold tickInput offeredInput
    rw [takeRoom_append, takeRoom_of_fits (by simpa using hb)]
    simp
  have hiff : tickInput s i = offeredInput s i ↔
      takeRoom s.cfg.mixBufCap (s.port i).buf.length (s.port i).inq.flatten = (s.port i).inq.flatten := by
    rw [hin, offeredInput]
    exact List.append_right_inj _
  have hport : (s.mapPort i fun q =>
      { q with
        inq := []
        buf := q.buf ++ takeRoom s.cfg.mixBufCap (s.port i).buf.length (s.port i).inq.flatten }) =
      s.mapPort i fun q => { q with inq := [], buf := tickInput s i } := by
    refine mapPort_congr hi ?_
    rw [← hin]
  rw [drainInput_eq i s hi hb, hport]
  by_cases h : tickInput s i = offeredInput s i
  · rw [if_pos h, if_pos (hiff.mp h)]
  · rw [if_neg h, if_neg fun h' => h (hiff.mpr h')]

end Sys2Proof.Machine
end

