-- ==== Sys2Proof/Laws/Mix.lean ====
section
/-! SUPPORT. What a mix tick does, said once: one port's turn, all turns, and the outputs. -/

namespace Sys2Proof.Machine

/-! ### One port's turn -/

/-- The bytes a port has for the tick depend on that port alone. -/
theorem tickInput_congr {s t : State} {i : Nat} (hc : t.cfg = s.cfg) (hp : t.port i = s.port i) :
    tickInput t i = tickInput s i := by
  simp [tickInput, offeredInput, hc, hp]

theorem offeredInput_congr {s t : State} {i : Nat} (hp : t.port i = s.port i) : offeredInput t i = offeredInput s i := by
  simp [offeredInput, hp]

/-- The tick sizes depend on the parameters and the latched rate and channel count. -/
theorem SameButPorts.tickSamples {s t : State} (h : SameButPorts s t) : t.tickSamples = s.tickSamples := by
  simp only [State.tickSamples, h.cfg]; rw [h.mix]

theorem SameButPorts.tickBytes {s t : State} (h : SameButPorts s t) : t.tickBytes = s.tickBytes := by
  rw [State.tickBytes, h.tickSamples]; rfl

theorem SameButPorts.fcThreshold {s t : State} (h : SameButPorts s t) : t.fcThreshold = s.fcThreshold := by
  rw [State.fcThreshold, h.tickBytes, h.cfg]; rfl

/-- A port has a whole tick of bytes. -/
def contributes (s : State) (i : Nat) : Bool := decide (s.tickBytes ≤ (tickInput s i).length)

/-- The samples a contributor adds, `C[i]` (42_mixer.md R268). -/
def tickSamplesOf (s : State) (i : Nat) : List Sample := samplesOf ((tickInput s i).take s.tickBytes)

/-- A channel after its turn in a mix tick (42_mixer.md R264, R267, R268). -/
def channelAfterMix (now : BitVec 64) (s : State) (i : Nat) : Port :=
  flowControl s.cfg.fcWindowMs s.fcThreshold s.mix.runNch.toNat now
    { s.port i with
      inq := []
      buf := if contributes s i then (tickInput s i).drop s.tickBytes else tickInput s i
      minFull := some (match (s.port i).minFull with
                       | none => (tickInput s i).length
                       | some m => min m (tickInput s i).length) }

/-- What port `i`'s turn leaves: its channel, the sum with its samples, and bit 2 when bytes were cut off. -/
theorem mixPort_eq (now : BitVec 64) (r : MixRun) (i : Nat) (hi : i < r.st.mix.ports.length)
    (hb : fits r.st.cfg.mixBufCap (r.st.port i).buf.length = true) :
    mixPort now r i =
      { st := (if tickInput r.st i = offeredInput r.st i then id else State.setFault mixBufOvf)
          (r.st.mapPort i fun _ => channelAfterMix now r.st i)
        sum := if contributes r.st i then addSamples r.st.cfg r.sum (tickSamplesOf r.st i) else r.sum
        contrib := if contributes r.st i then r.contrib ++ [(i, tickSamplesOf r.st i)] else r.contrib } := by
  have turn : ∀ w : State, SameButPorts r.st w → i < w.mix.ports.length →
      w.port i = { r.st.port i with inq := [], buf := tickInput r.st i } →
      (let added := accumulate i { r with st := w.mapPort i sampleFullness }
       ({ added with
          st := added.st.mapPort i
            (flowControl added.st.cfg.fcWindowMs added.st.fcThreshold added.st.mix.runNch.toNat now) } : MixRun)) =
        { st := w.mapPort i fun _ => channelAfterMix now r.st i
          sum := if contributes r.st i then addSamples r.st.cfg r.sum (tickSamplesOf r.st i) else r.sum
          contrib := if contributes r.st i then r.contrib ++ [(i, tickSamplesOf r.st i)] else r.contrib } := by
    intro w hw hl hp
    have hf : (w.mapPort i sampleFullness).port i =
        { r.st.port i with
          inq := []
          buf := tickInput r.st i
          minFull := some (match (r.st.port i).minFull with
                           | none => (tickInput r.st i).length
                           | some m => min m (tickInput r.st i).length) } := by
      rw [State.port_mapPort_self _ hl, hp]; rfl
    have hs := hw.trans (sameButPorts_mapPort i sampleFullness w)
    have hbytes : (w.mapPort i sampleFullness).tickBytes = r.st.tickBytes := hs.tickBytes
    unfold accumulate
    dsimp only
    rw [hbytes, hf]
    dsimp only
    by_cases hcon : r.st.tickBytes ≤ (tickInput r.st i).length
    · have hc : contributes r.st i = true := by simpa [contributes] using hcon
      rw [if_pos hcon]
      have hs' := hs.trans (sameButPorts_mapPort i (fun q => { q with buf := q.buf.drop r.st.tickBytes })
        (w.mapPort i sampleFullness))
      simp only [hc, if_true]
      rw [MixRun.mk.injEq]
      refine ⟨?_, congrArg (fun c => addSamples c r.sum (tickSamplesOf r.st i)) hs.cfg, rfl⟩
      rw [hs'.cfg, hs'.fcThreshold, hs'.runNch, mapPort_mapPort, mapPort_mapPort]
      refine mapPort_congr hl ?_
      rw [hp]
      simp only [channelAfterMix, hc, if_true]
      rfl
    · have hc : contributes r.st i = false := by simpa [contributes] using hcon
      rw [if_neg hcon]
      simp only [hc, Bool.false_eq_true, if_false]
      rw [MixRun.mk.injEq]
      refine ⟨?_, rfl, rfl⟩
      rw [hs.cfg, hs.fcThreshold, hs.runNch, mapPort_mapPort]
      refine mapPort_congr hl ?_
      rw [hp]
      simp only [channelAfterMix, hc, Bool.false_eq_true, if_false]
      rfl
  unfold mixPort
  rw [drainInput_eq_tickInput i r.st hi hb]
  have hmap : SameButPorts r.st (r.st.mapPort i fun q => { q with inq := [], buf := tickInput r.st i }) :=
    sameButPorts_mapPort ..
  by_cases hcut : tickInput r.st i = offeredInput r.st i
  · simp only [if_pos hcut]
    refine (turn _ hmap (by simpa using hi) (State.port_mapPort_self _ hi)).trans ?_
    rw [id, mapPort_mapPort]
  · simp only [if_neg hcut]
    refine (turn _ (hmap.trans (sameButPorts_setFault ..)) (by simpa using hi) (State.port_mapPort_self _ hi)).trans ?_
    rw [MixRun.mk.injEq]
    exact ⟨congrArg (State.setFault mixBufOvf) (mapPort_mapPort ..), rfl, rfl⟩

/-! ### All turns -/

/-- The turns of distinct ports do not disturb each other. -/
theorem foldl_mixPort_eq (now : BitVec 64) (act : List Nat) (r : MixRun) (hd : act.Nodup)
    (ha : ∀ i ∈ act, i < r.st.mix.ports.length ∧ fits r.st.cfg.mixBufCap (r.st.port i).buf.length = true) :
    (∀ j, j ∉ act → (act.foldl (mixPort now) r).st.port j = r.st.port j) ∧
    (∀ i ∈ act, (act.foldl (mixPort now) r).st.port i = channelAfterMix now r.st i) ∧
    (act.foldl (mixPort now) r).sum =
      ((act.filter (contributes r.st)).map (tickSamplesOf r.st)).foldl (addSamples r.st.cfg) r.sum ∧
    (act.foldl (mixPort now) r).contrib =
      r.contrib ++ (act.filter (contributes r.st)).map (fun i => (i, tickSamplesOf r.st i)) ∧
    (act.foldl (mixPort now) r).st.fault =
      r.st.fault ||| (if ∃ i ∈ act, tickInput r.st i ≠ offeredInput r.st i then mixBufOvf else 0) := by
  induction act generalizing r with
  | nil => simp
  | cons i act ih =>
    have hi := ha i (by simp)
    have hne : ∀ j ∈ act, i ≠ j := fun j hj he => (List.nodup_cons.mp hd).1 (he ▸ hj)
    have hs : SameButPorts r.st (mixPort now r i).st := mixPort_frame now r i
    have heq := mixPort_eq now r i hi.1 hi.2
    have hst : ∀ j, i ≠ j → (mixPort now r i).st.port j = r.st.port j := by
      intro j hj
      rw [heq]
      dsimp only
      split <;> exact State.port_mapPort_ne _ hj
    have hself : (mixPort now r i).st.port i = channelAfterMix now r.st i := by
      rw [heq]
      dsimp only
      split <;> exact State.port_mapPort_self _ hi.1
    have hin : ∀ j ∈ act, tickInput (mixPort now r i).st j = tickInput r.st j := fun j hj =>
      tickInput_congr hs.cfg (hst j (hne j hj))
    have hcon : ∀ j ∈ act, contributes (mixPort now r i).st j = contributes r.st j := fun j hj => by
      simp only [contributes, hin j hj, hs.tickBytes]
    have hsam : ∀ j ∈ act, tickSamplesOf (mixPort now r i).st j = tickSamplesOf r.st j := fun j hj => by
      simp only [tickSamplesOf, hin j hj, hs.tickBytes]
    have hchan : ∀ j ∈ act, channelAfterMix now (mixPort now r i).st j = channelAfterMix now r.st j := fun j hj => by
      simp only [channelAfterMix, hin j hj, hcon j hj, hst j (hne j hj), hs.tickBytes, hs.fcThreshold, hs.runNch, hs.cfg]
    have hfil : act.filter (contributes (mixPort now r i).st) = act.filter (contributes r.st) :=
      List.filter_congr hcon
    have hmem : ∀ j ∈ act.filter (contributes r.st), j ∈ act := fun j hj => (List.mem_filter.mp hj).1
    obtain ⟨h₁, h₂, h₃, h₄, h₅⟩ := ih (mixPort now r i) (List.nodup_cons.mp hd).2 fun j hj =>
      ⟨by rw [hs.length]; exact (ha j (by simp [hj])).1, by
        rw [hs.cfg, hst j (hne j hj)]; exact (ha j (by simp [hj])).2⟩
    simp only [List.foldl_cons]
    refine ⟨fun j hj => ?_, fun j hj => ?_, ?_, ?_, ?_⟩
    · rw [h₁ j fun h => hj (by simp [h]), hst j fun h => hj (by simp [h])]
    · rcases List.mem_cons.mp hj with rfl | hj
      · rw [h₁ j (List.nodup_cons.mp hd).1, hself]
      · rw [h₂ j hj, hchan j hj]
    · rw [h₃, hfil, List.map_congr_left fun j hj => hsam j (hmem j hj), hs.cfg, heq]
      cases h : contributes r.st i <;> simp [h]
    · rw [h₄, hfil, List.map_congr_left fun j hj => by rw [hsam j (hmem j hj)], heq]
      cases h : contributes r.st i <;> simp [h]
    · rw [h₅]
      have hcut : (∃ j ∈ act, tickInput (mixPort now r i).st j ≠ offeredInput (mixPort now r i).st j) ↔
          ∃ j ∈ act, tickInput r.st j ≠ offeredInput r.st j := by
        refine exists_congr fun j => and_congr_right fun hj => ?_
        rw [hin j hj, offeredInput_congr (hst j (hne j hj))]
      rw [if_congr hcut rfl rfl]
      have hfault : (mixPort now r i).st.fault =
          r.st.fault ||| (if tickInput r.st i ≠ offeredInput r.st i then mixBufOvf else 0) := by
        rw [heq]
        by_cases h : tickInput r.st i = offeredInput r.st i <;> simp [h]
      rw [hfault]
      by_cases h₁ : tickInput r.st i = offeredInput r.st i <;>
        by_cases h₂ : ∃ j ∈ act, tickInput r.st j ≠ offeredInput r.st j <;>
          simp [h₁, h₂, BitVec.or_assoc]

/-! ### Outputs -/

/-- One buffer to each of distinct outputs: those that fit enter their queues, any other sets bit 1. -/
theorem foldl_pushOut_eq (en : Nat → Bool) (b : Nat → Bytes) (os : List Nat) (s : State) (hd : os.Nodup)
    (ho : ∀ o ∈ os, o < s.mix.ports.length) :
    (∀ j, (os.foldl (fun w o => if en o then pushOut o (b o) w else w) s).port j =
      if j ∈ os ∧ en j = true
      then { s.port j with outq := (s.port j).outq ++ takeRoom s.cfg.mixOutqCap (s.port j).outq.length [b j] }
      else s.port j) ∧
    (os.foldl (fun w o => if en o then pushOut o (b o) w else w) s).fault =
      s.fault ||| (if ∃ o ∈ os, en o = true ∧ fits s.cfg.mixOutqCap ((s.port o).outq.length + 1) = false
        then mixOutqOvf else 0) := by
  induction os generalizing s with
  | nil => simp
  | cons o os ih =>
    have hnot : o ∉ os := (List.nodup_cons.mp hd).1
    simp only [List.foldl_cons]
    cases he : en o
    · obtain ⟨h₁, h₂⟩ := ih s (List.nodup_cons.mp hd).2 fun j hj => ho j (by simp [hj])
      simp only [Bool.false_eq_true, if_false]
      refine ⟨fun j => ?_, ?_⟩
      · rw [h₁ j]
        by_cases hj : j = o
        · subst hj; simp [he]
        · simp [hj]
      · rw [h₂]; simp [he]
    · simp only [if_true]
      have hs := pushOut_frame o (b o) s
      obtain ⟨h₁, h₂⟩ := ih (pushOut o (b o) s) (List.nodup_cons.mp hd).2 fun j hj => by
        rw [hs.length]; exact ho j (by simp [hj])
      have hne : ∀ j, j ≠ o → (pushOut o (b o) s).port j = s.port j := by
        intro j hj
        rcases pushOut_cases o (b o) s with ⟨_, h⟩ | ⟨_, h⟩ <;> rw [h]
        · exact State.port_mapPort_ne _ (Ne.symm hj)
        · rfl
      have hself : (pushOut o (b o) s).port o =
          { s.port o with outq := (s.port o).outq ++ takeRoom s.cfg.mixOutqCap (s.port o).outq.length [b o] } := by
        rcases pushOut_cases o (b o) s with ⟨hf, h⟩ | ⟨hf, h⟩ <;> rw [h]
        · rw [State.port_mapPort_self _ (ho o (by simp)), takeRoom_of_fits (by simpa using hf)]
        · rw [takeRoom_cons, hf]; simp
      refine ⟨fun j => ?_, ?_⟩
      · rw [h₁ j]
        by_cases hj : j = o
        · subst hj; rw [if_neg (by simp [hnot]), if_pos (by simp [he]), hself]
        · simp [hj, hne j hj, hs.cfg]
      · rw [h₂, hs.cfg]
        have hex : (∃ j ∈ os, en j = true ∧ fits s.cfg.mixOutqCap (((pushOut o (b o) s).port j).outq.length + 1) = false) ↔
            ∃ j ∈ os, en j = true ∧ fits s.cfg.mixOutqCap ((s.port j).outq.length + 1) = false :=
          exists_congr fun j => and_congr_right fun hj => by rw [hne j fun h => hnot (h ▸ hj)]
        rw [if_congr hex rfl rfl]
        rcases pushOut_cases o (b o) s with ⟨hf, h⟩ | ⟨hf, h⟩ <;> rw [h]
        · simp [he, hf]
        · by_cases h₂ : ∃ j ∈ os, en j = true ∧ fits s.cfg.mixOutqCap ((s.port j).outq.length + 1) = false <;>
            simp [he, hf, h₂, BitVec.or_assoc]

/-- The outputs of a mix tick: every enabled one gets its buffer. -/
theorem dispatchOutputs_eq (r : MixRun) (hl : r.st.mix.ports.length = r.st.cfg.nports) :
    (∀ j, j < r.st.cfg.nports → (dispatchOutputs r).port j =
      if (r.st.port j).outEn = true
      then { r.st.port j with
        outq := (r.st.port j).outq ++ takeRoom r.st.cfg.mixOutqCap (r.st.port j).outq.length [outputBuffer r j] }
      else r.st.port j) ∧
    (dispatchOutputs r).fault =
      r.st.fault ||| (if ∃ o, o < r.st.cfg.nports ∧ (r.st.port o).outEn = true ∧
          fits r.st.cfg.mixOutqCap ((r.st.port o).outq.length + 1) = false then mixOutqOvf else 0) := by
  obtain ⟨h₁, h₂⟩ := foldl_pushOut_eq (fun o => (r.st.port o).outEn) (outputBuffer r) r.st.portList r.st
    List.nodup_range (fun o ho => by rw [hl]; exact List.mem_range.mp ho)
  refine ⟨fun j hj => ?_, ?_⟩
  · refine (h₁ j).trans ?_
    simp [State.portList, hj]
  · refine h₂.trans ?_
    simp [State.portList]

/-! ### Bypass -/

/-- Packets forwarded to distinct outputs: each queue takes those that fit, in order; any other sets bit 1. -/
theorem foldl_forwardTo_eq (pkts : List Bytes) (os : List Nat) (s : State) (hd : os.Nodup)
    (ho : ∀ o ∈ os, o < s.mix.ports.length) :
    (∀ j, (os.foldl (forwardTo pkts) s).port j =
      if j ∈ os
      then { s.port j with outq := (s.port j).outq ++ takeRoom s.cfg.mixOutqCap (s.port j).outq.length pkts }
      else s.port j) ∧
    (os.foldl (forwardTo pkts) s).fault =
      s.fault ||| (if ∃ o ∈ os, takeRoom s.cfg.mixOutqCap (s.port o).outq.length pkts ≠ pkts then mixOutqOvf else 0) := by
  induction os generalizing s with
  | nil => simp
  | cons o os ih =>
    have hnot : o ∉ os := (List.nodup_cons.mp hd).1
    have hs := forwardTo_frame pkts o s
    have heq := forwardTo_eq pkts o s (ho o (by simp))
    obtain ⟨h₁, h₂⟩ := ih (forwardTo pkts s o) (List.nodup_cons.mp hd).2 fun j hj => by
      rw [hs.length]; exact ho j (by simp [hj])
    have hne : ∀ j, j ≠ o → (forwardTo pkts s o).port j = s.port j := by
      intro j hj
      rw [heq]
      split <;> exact State.port_mapPort_ne _ (Ne.symm hj)
    have hself : (forwardTo pkts s o).port o =
        { s.port o with outq := (s.port o).outq ++ takeRoom s.cfg.mixOutqCap (s.port o).outq.length pkts } := by
      rw [heq]
      split <;> exact State.port_mapPort_self _ (ho o (by simp))
    simp only [List.foldl_cons]
    refine ⟨fun j => ?_, ?_⟩
    · rw [h₁ j]
      by_cases hj : j = o
      · subst hj; rw [if_neg hnot, if_pos (by simp), hself]
      · simp [hj, hne j hj, hs.cfg]
    · rw [h₂, hs.cfg]
      have hex : (∃ j ∈ os, takeRoom s.cfg.mixOutqCap ((forwardTo pkts s o).port j).outq.length pkts ≠ pkts) ↔
          ∃ j ∈ os, takeRoom s.cfg.mixOutqCap (s.port j).outq.length pkts ≠ pkts :=
        exists_congr fun j => and_congr_right fun hj => by rw [hne j fun h => hnot (h ▸ hj)]
      rw [if_congr hex rfl rfl, heq]
      by_cases h₁ : takeRoom s.cfg.mixOutqCap (s.port o).outq.length pkts = pkts <;>
        by_cases h₂ : ∃ j ∈ os, takeRoom s.cfg.mixOutqCap (s.port j).outq.length pkts ≠ pkts <;>
          simp [h₁, h₂, BitVec.or_assoc]

end Sys2Proof.Machine
end

