-- ==== Sys2Proof/Laws/PerInstr.lean ====
section
/-! SUPPORT. Lemmas made per instruction: the header of every encoded command has its row's fixed bits (30_encoding.md R115)
and the row's length is the length of the encoding (R116). -/

namespace Sys2Proof.Laws

/-- The row of a command. -/
def rowOf : Instr → Op
  | .unpPacket _ _ _ _ => .unpPacket
  | .unpSetSps _ => .unpSetSps
  | .unpSetPps _ => .unpSetPps
  | .unpReset => .unpReset
  | .unpPop => .unpPop
  | .mixPreprocess => .mixPreprocess
  | .mixTick _ => .mixTick
  | .mixPostprocess => .mixPostprocess
  | .mixSetRate _ => .mixSetRate
  | .mixGetRate => .mixGetRate
  | .mixSetNch _ => .mixSetNch
  | .mixGetNch => .mixGetNch
  | .mixSetConf _ => .mixSetConf
  | .mixSetActive _ _ => .mixSetActive
  | .mixSetOutput _ _ => .mixSetOutput
  | .mixSetMaster _ => .mixSetMaster
  | .mixPush _ _ => .mixPush
  | .mixPop _ => .mixPop
  | .sysFault => .sysFault

/-- A header's bits are decided one by one against the row's mask and pattern. -/
theorem matches_header {o : Op} {idx : Byte} {imm : BitVec 16}
    (h : ∀ i, i < 32 → o.mask.getLsbD i = true →
      (if i < 16 then imm.getLsbD i else if i < 24 then idx.getLsbD (i - 16) else o.opc.getLsbD (i - 24)) =
        o.pattern.getLsbD i) : o.matchesHeader (header o idx imm) = true :=
  matchesHeader_iff.mpr fun i hi hm => by rw [getLsbD_header]; exact h i hi hm

namespace EncodedHeader

/-- The encoding begins with a header that has its row's fixed bits. -/
def Statement (i : Instr) : Prop :=
  ∃ idx imm ops, encode i = header (rowOf i) idx imm :: ops ∧ (rowOf i).matchesHeader (header (rowOf i) idx imm) = true

theorem unpPacket (seq : BitVec 16) (ts : BitVec 32) (m : Bool) (p : Bytes) : Statement (.unpPacket seq ts m p) :=
  ⟨idxM m, seq, _, rfl, matches_header fun i hi => by
    interval_cases i <;> simp [rowOf, Op.mask, Op.pattern, Op.opc, idxM]⟩

theorem unpSetSps (p : Bytes) : Statement (.unpSetSps p) :=
  ⟨0, BitVec.ofNat 16 p.length, _, rfl, matches_header fun i hi => by
    interval_cases i <;> simp [rowOf, Op.mask, Op.pattern, Op.opc]⟩

theorem unpSetPps (p : Bytes) : Statement (.unpSetPps p) :=
  ⟨0, BitVec.ofNat 16 p.length, _, rfl, matches_header fun i hi => by
    interval_cases i <;> simp [rowOf, Op.mask, Op.pattern, Op.opc]⟩

theorem unpReset : Statement .unpReset := ⟨0, 0, [], rfl, by decide⟩
theorem unpPop : Statement .unpPop := ⟨0, 0, [], rfl, by decide⟩
theorem mixPreprocess : Statement .mixPreprocess := ⟨0, 0, [], rfl, by decide⟩
theorem mixTick (now : BitVec 64) : Statement (.mixTick now) :=
  ⟨0, 0, _, rfl, show Op.mixTick.matchesHeader (header .mixTick 0 0) = true by decide⟩
theorem mixPostprocess : Statement .mixPostprocess := ⟨0, 0, [], rfl, by decide⟩
theorem mixSetRate (r : BitVec 32) : Statement (.mixSetRate r) :=
  ⟨0, 0, _, rfl, show Op.mixSetRate.matchesHeader (header .mixSetRate 0 0) = true by decide⟩
theorem mixGetRate : Statement .mixGetRate := ⟨0, 0, [], rfl, by decide⟩

theorem mixSetNch (n : BitVec 16) : Statement (.mixSetNch n) :=
  ⟨0, n, _, rfl, matches_header fun i hi => by
    interval_cases i <;> simp [rowOf, Op.mask, Op.pattern, Op.opc]⟩

theorem mixGetNch : Statement .mixGetNch := ⟨0, 0, [], rfl, by decide⟩
theorem mixSetConf (en : Bool) : Statement (.mixSetConf en) := ⟨0, immEn en, _, rfl, by cases en <;> decide⟩

theorem mixSetActive (port : Byte) (en : Bool) : Statement (.mixSetActive port en) :=
  ⟨port, immEn en, _, rfl, matches_header fun i hi => by
    interval_cases i <;> simp [rowOf, Op.mask, Op.pattern, Op.opc, immEn]⟩

theorem mixSetOutput (port : Byte) (en : Bool) : Statement (.mixSetOutput port en) :=
  ⟨port, immEn en, _, rfl, matches_header fun i hi => by
    interval_cases i <;> simp [rowOf, Op.mask, Op.pattern, Op.opc, immEn]⟩

theorem mixSetMaster (port : Byte) : Statement (.mixSetMaster port) :=
  ⟨port, 0, _, rfl, matches_header fun i hi => by
    interval_cases i <;> simp [rowOf, Op.mask, Op.pattern, Op.opc]⟩

theorem mixPush (port : Byte) (d : Bytes) : Statement (.mixPush port d) :=
  ⟨port, BitVec.ofNat 16 d.length, _, rfl, matches_header fun i hi => by
    interval_cases i <;> simp [rowOf, Op.mask, Op.pattern, Op.opc]⟩

theorem mixPop (port : Byte) : Statement (.mixPop port) :=
  ⟨port, 0, _, rfl, matches_header fun i hi => by
    interval_cases i <;> simp [rowOf, Op.mask, Op.pattern, Op.opc]⟩

theorem sysFault : Statement .sysFault := ⟨0, 0, [], rfl, by decide⟩

end EncodedHeader

end Sys2Proof.Laws
end

