-- ==== Sys2Proof/Laws/Unp.lean ====
section
/-! SUPPORT. What the procedures of the reassembler can do, said once: the aggregator, parameter sets, storing a NALU, a
frame's output, and the steps of `UNP.PACKET`. -/

namespace Sys2Proof.Machine

/-! ### The FU-A aggregator -/

/-- The aggregator touches its own two registers alone. -/
theorem aggFeed_frame (maxNalu : Nat) (p : Bytes) (u : Unp) :
    ∃ active buf, (aggFeed maxNalu p u).unp = { u with aggActive := active, aggBuf := buf } := by
  unfold aggFeed aggStart aggContinue aggDrop aggReset
  split
  · split
    · split <;> exact ⟨_, _, rfl⟩
    · split
      · dsimp only; split <;> exact ⟨_, _, rfl⟩
      · split
        · exact ⟨_, _, rfl⟩
        · split
          · exact ⟨_, _, rfl⟩
          · dsimp only; split
            · exact ⟨_, _, rfl⟩
            · split <;> exact ⟨_, _, rfl⟩
  · split <;> exact ⟨_, _, rfl⟩

/-- Dropping a partial NALU leaves the aggregator idle. -/
theorem aggDrop_eq (u : Unp) : aggDrop u = { u with aggActive := false, aggBuf := if u.aggActive then [] else u.aggBuf } := by
  unfold aggDrop aggReset
  cases h : u.aggActive
  · cases u; simp_all
  · rfl

/-- So does dropping it with the corruption it causes, which is marked exactly when there was one. -/
theorem dropPartial_eq (u : Unp) :
    dropPartial u = { u with
      aggActive := false, aggBuf := if u.aggActive then [] else u.aggBuf
      acc := u.acc ||| flagIf u.aggActive frameCorrupted } := by
  unfold dropPartial accSet aggReset flagIf
  cases h : u.aggActive
  · cases u; simp_all
  · rfl

/-! ### Parameter sets and stored NALUs -/

/-- A set is news unless it repeats the last noted one, and the first one if the parameters say so. -/
theorem psNews_eq (c : Config) (k : PsKind) (last : Option Bytes) (n : Bytes) :
    psNews c k last n = if last = some n ∨ (last = none ∧ c.firstPsNew = false) then 0 else newPs k := by
  cases last with
  | none => cases h : c.firstPsNew <;> simp [psNews, flagIf, h]
  | some old =>
    by_cases h : old = n
    · simp [psNews, flagIf, h]
    · simp [psNews, flagIf, h, Ne.symm h]

/-- Noting a parameter set changes the pending status and the kind's `LAST` alone. -/
theorem psNote_eq (c : Config) (k : PsKind) (n : Bytes) (u : Unp) :
    psNote c k n u =
      Unp.setPs { u with acc := u.acc ||| psNews c k (u.ps k).last n } k { u.ps k with last := some n } := by
  cases k <;> rfl

/-- Storing a parameter set changes the pending status and the kind's registers, whatever they were. -/
theorem psStore_eq (c : Config) (k : PsKind) (n : Bytes) (u : Unp) :
    psStore c k n u =
      Unp.setPs { u with acc := u.acc ||| psNews c k (u.ps k).last n } k ⟨some n, .inBand, false, some n⟩ := by
  cases k <;> rfl

/-- A NALU that is no parameter set is appended to the reassembly queue, nothing else. -/
theorem storeNal_plain {c : Config} {n : Bytes} {u : Unp} (hs : nalType n ≠ typeSps) (hp : nalType n ≠ typePps) :
    storeNal c n u = { u with rq := u.rq ++ [n] } := by
  simp [storeNal, hs, hp]

/-- A parameter set is appended like any NALU, and becomes the live one of its kind. -/
theorem storeNal_ps {c : Config} {k : PsKind} {n : Bytes} {u : Unp} (h : nalType n = psType k) :
    storeNal c n u = { psStore c k n u with rq := (psStore c k n u).rq ++ [n] } := by
  cases k
  · simp [storeNal, h, psType, typeSps, typePps]
  · simp [storeNal, h, psType, typeSps, typePps]

/-- In every case the queue grows by that NALU, and only the pending status and the parameter sets may change with it. -/
theorem storeNal_frame (c : Config) (n : Bytes) (u : Unp) :
    ∃ acc sps pps, storeNal c n u = { u with acc := acc, sps := sps, pps := pps, rq := u.rq ++ [n] } := by
  by_cases hs : nalType n = typeSps
  · rw [storeNal_ps (k := .sps) hs, psStore_eq]; exact ⟨_, _, _, rfl⟩
  · by_cases hp : nalType n = typePps
    · rw [storeNal_ps (k := .pps) hp, psStore_eq]; exact ⟨_, _, _, rfl⟩
    · rw [storeNal_plain hs hp]; exact ⟨_, _, _, rfl⟩

/-- The units of an aggregate enter the queue in order. -/
theorem foldl_storeNal_frame (c : Config) (ns : List Bytes) (u : Unp) :
    ∃ acc sps pps, ns.foldl (fun w n => storeNal c n w) u =
      { u with acc := acc, sps := sps, pps := pps, rq := u.rq ++ ns } := by
  induction ns generalizing u with
  | nil => exact ⟨u.acc, u.sps, u.pps, by cases u; simp⟩
  | cons n ns ih =>
    obtain ⟨a, b, d, h⟩ := storeNal_frame c n u
    obtain ⟨a', b', d', h'⟩ := ih (storeNal c n u)
    exact ⟨a', b', d', by rw [List.foldl_cons, h', h]; simp⟩

/-- Without parameter sets among them, nothing else changes. -/
theorem foldl_storeNal_plain {c : Config} {ns : List Bytes} {u : Unp}
    (h : ∀ n ∈ ns, nalType n ≠ typeSps ∧ nalType n ≠ typePps) :
    ns.foldl (fun w n => storeNal c n w) u = { u with rq := u.rq ++ ns } := by
  induction ns generalizing u with
  | nil => cases u; simp
  | cons n ns ih =>
    have hn := h n (by simp)
    rw [List.foldl_cons, ih fun m hm => h m (by simp [hm]), storeNal_plain hn.1 hn.2]
    simp

/-- The news of sets stored in two goes. -/
theorem raisesNew_append (f : Bool) (last : Option Bytes) (xs ys : List Bytes) :
    raisesNew f last (xs ++ ys) = (raisesNew f last xs || raisesNew f (xs.getLast?.or last) ys) := by
  induction xs generalizing last with
  | nil => cases last <;> rfl
  | cons x xs ih =>
    have hl : (x :: xs).getLast?.or last = xs.getLast?.or (some x) := by
      rw [List.getLast?_cons]; cases xs.getLast? <;> rfl
    cases last <;> simp only [List.cons_append, raisesNew, ih, hl, Bool.or_assoc]

/-- The registers of a kind after sets stored in two goes. -/
theorem trackedSet_append (r : ParamSet) (xs ys : List Bytes) : trackedSet r (xs ++ ys) = trackedSet (trackedSet r xs) ys := by
  unfold trackedSet
  rw [List.getLast?_append]
  cases ys.getLast? <;> rfl

/-- The set last noted is the last one stored, if one was. -/
theorem trackedSet_last (r : ParamSet) (xs : List Bytes) : (trackedSet r xs).last = xs.getLast?.or r.last := by
  unfold trackedSet
  cases xs.getLast? <;> rfl

/-- Bits set in two goes. -/
theorem flagIf_or (a b : Bool) (f : Status) : flagIf (a || b) f = flagIf a f ||| flagIf b f := by
  cases a <;> cases b <;> simp [flagIf]

/-- The news of one set, as the meaning reckons it. -/
theorem psNews_eq_raisesNew (c : Config) (k : PsKind) (last : Option Bytes) (n : Bytes) :
    psNews c k last n = flagIf (raisesNew c.firstPsNew last [n]) (newPs k) := by
  cases last <;> simp [psNews, raisesNew]

/-- One NALU is stored as the statements say. -/
theorem storeNal_eq (c : Config) (n : Bytes) (u : Unp) : storeNal c n u = withStored c [n] u := by
  have filter_one : ∀ t : BitVec 5, [n].filter (fun m => nalType m == t) = if nalType n = t then [n] else [] := by
    intro t
    by_cases h : nalType n = t <;> simp [h]
  have or_none : ∀ x : Status, x ||| 0 = x := fun _ => BitVec.or_zero
  unfold withStored
  rw [filter_one, filter_one]
  by_cases hs : nalType n = 7
  · have hp : nalType n ≠ 8 := by rw [hs]; decide
    rw [storeNal_ps (k := .sps) hs, psStore_eq, psNews_eq_raisesNew, if_pos hs, if_neg hp]
    simp only [Unp.setPs, Unp.ps, trackedSet, raisesNew, flagIf, Bool.false_eq_true, if_false, or_none]
    rfl
  · by_cases hp : nalType n = 8
    · rw [storeNal_ps (k := .pps) hp, psStore_eq, psNews_eq_raisesNew, if_neg hs, if_pos hp]
      simp only [Unp.setPs, Unp.ps, trackedSet, raisesNew, flagIf, Bool.false_eq_true, if_false, or_none]
      rfl
    · rw [storeNal_plain hs hp, if_neg hs, if_neg hp]
      simp only [trackedSet, raisesNew, flagIf, Bool.false_eq_true, if_false, or_none]
      rfl

/-- NALUs stored in two goes. -/
theorem withStored_append (c : Config) (xs ys : List Bytes) (u : Unp) :
    withStored c (xs ++ ys) u = withStored c ys (withStored c xs u) := by
  simp only [withStored, List.filter_append, raisesNew_append, trackedSet_append, trackedSet_last, flagIf_or, List.append_assoc]
  congr 1
  ac_rfl

/-- NALUs stored one by one are stored as the statements say. -/
theorem foldl_storeNal_eq (c : Config) (ns : List Bytes) (u : Unp) :
    ns.foldl (fun w n => storeNal c n w) u = withStored c ns u := by
  induction ns generalizing u with
  | nil => cases u; simp [withStored, trackedSet, raisesNew, flagIf]
  | cons n ns ih => rw [List.foldl_cons, ih, storeNal_eq, ← withStored_append, List.singleton_append]

/-- Whatever the payload, the reassembly queue only grows, and the references and the output queue stay. -/
theorem dispatchPayload_frame (c : Config) (p : Bytes) (u : Unp) :
    ∃ new active buf acc sps pps, dispatchPayload c p u =
      { u with rq := u.rq ++ new, aggActive := active, aggBuf := buf, acc := acc, sps := sps, pps := pps } := by
  unfold dispatchPayload
  split
  · rw [aggDrop_eq]; exact ⟨[], _, _, _, _, _, by rw [List.append_nil]; rfl⟩
  · split
    · obtain ⟨a, b, h⟩ := aggFeed_frame c.maxNalu p u
      unfold takeAgg
      rw [h]
      dsimp only
      split
      · exact ⟨[], _, _, _, _, _, by rw [List.append_nil]; rfl⟩
      · rename_i n _
        obtain ⟨x, y, z, h'⟩ := storeNal_frame c n
          (accSet (flagIf (aggFeed c.maxNalu p u).corrupt frameCorrupted) { u with aggActive := a, aggBuf := b })
        rw [h']
        exact ⟨[n], _, _, _, _, _, rfl⟩
    · split
      · obtain ⟨x, y, z, h⟩ := foldl_storeNal_frame c (stapSplit p).1
          (accSet (flagIf (stapSplit p).2 frameCorrupted) (dropPartial u))
        rw [h, dropPartial_eq]
        exact ⟨_, _, _, _, _, _, rfl⟩
      · obtain ⟨x, y, z, h⟩ := storeNal_frame c p (dropPartial u)
        rw [h, dropPartial_eq]
        exact ⟨_, _, _, _, _, _, rfl⟩

/-! ### Frame output -/

/-- Delivering injected sets changes the pending status and the parameter sets alone. -/
theorem oobPrefix_frame (c : Config) (u : Unp) :
    ∃ acc sps pps, (oobPrefix c u).2 = { u with acc := acc, sps := sps, pps := pps } := by
  have deliver : ∀ (k : PsKind) (u : Unp), ∃ acc sps pps, (oobDeliver c k u).2 = { u with acc := acc, sps := sps, pps := pps } := by
    intro k u
    unfold oobDeliver
    split
    · split
      · dsimp only; rw [psNote_eq]; cases k <;> exact ⟨_, _, _, rfl⟩
      · cases k <;> exact ⟨_, _, _, rfl⟩
    · exact ⟨_, _, _, rfl⟩
  obtain ⟨a, b, d, h⟩ := deliver .sps u
  obtain ⟨a', b', d', h'⟩ := deliver .pps (oobDeliver c .sps u).2
  exact ⟨a', b', d', by rw [oobPrefix]; dsimp only; rw [h', h]⟩

/-- With nothing pending, nothing is delivered. -/
theorem oobPrefix_of_none {c : Config} {u : Unp} (hs : u.sps.oobPending = false) (hp : u.pps.oobPending = false) :
    oobPrefix c u = ([], u) := by
  simp [oobPrefix, oobDeliver, Unp.ps, hs, hp]

/-- A frame is queued whole or dropped whole. -/
theorem emitFrame_cases (frame : List Bytes) (st : Status) (s : State) :
    (fits s.cfg.unpOutqCap (s.unp.outq.length + frame.length) = true ∧
      emitFrame frame st s = { s with unp := { s.unp with outq := s.unp.outq ++ frameEntries st frame } }) ∨
    (fits s.cfg.unpOutqCap (s.unp.outq.length + frame.length) = false ∧
      emitFrame frame st s = { s with fault := s.fault ||| unpOutqOvf }) := by
  unfold emitFrame
  split
  · next h => exact .inl ⟨h, rfl⟩
  · next h => exact .inr ⟨by simpa using h, rfl⟩

/-- With nothing stored there is no frame. -/
theorem outputFrame_of_empty {s : State} (h : s.unp.rq = []) : outputFrame s = (s, 0) := by
  simp [outputFrame, h]

/-- A frame's output, whole: it heads with the injected sets, takes its status, empties the reassembly queue and the pending
status, and is queued or dropped. -/
theorem outputFrame_of_nonempty {s : State} (h : s.unp.rq ≠ []) :
    ∃ pre u st, oobPrefix s.cfg s.unp = (pre, u) ∧ st = frameStatus s.cfg u (pre ++ s.unp.rq) ∧
      ((fits s.cfg.unpOutqCap (s.unp.outq.length + (pre ++ s.unp.rq).length) = true ∧
        outputFrame s = ({ s with
          unp := { u with rq := [], acc := 0, outq := s.unp.outq ++ frameEntries st (pre ++ s.unp.rq) } }, st)) ∨
       (fits s.cfg.unpOutqCap (s.unp.outq.length + (pre ++ s.unp.rq).length) = false ∧
        outputFrame s = ({ s with
          fault := s.fault ||| unpOutqOvf
          unp := { u with rq := [], acc := 0 } }, st))) := by
  obtain ⟨a, b, d, hf⟩ := oobPrefix_frame s.cfg s.unp
  refine ⟨(oobPrefix s.cfg s.unp).1, (oobPrefix s.cfg s.unp).2, _, rfl, rfl, ?_⟩
  have hrq : (oobPrefix s.cfg s.unp).2.rq = s.unp.rq := by rw [hf]
  have hoq : (oobPrefix s.cfg s.unp).2.outq = s.unp.outq := by rw [hf]
  unfold outputFrame
  rw [if_neg h]
  dsimp only
  rw [hrq]
  rcases emitFrame_cases ((oobPrefix s.cfg s.unp).1 ++ s.unp.rq)
    (frameStatus s.cfg (oobPrefix s.cfg s.unp).2 ((oobPrefix s.cfg s.unp).1 ++ s.unp.rq))
    (s.mapUnp fun _ => { (oobPrefix s.cfg s.unp).2 with rq := [] }) with ⟨hc, he⟩ | ⟨hc, he⟩
  · refine .inl ⟨by simpa [hoq] using hc, ?_⟩
    rw [he]
    simp [State.mapUnp, hoq]
  · refine .inr ⟨by simpa [hoq] using hc, ?_⟩
    rw [he]
    simp [State.mapUnp]

/-- The entries of a frame, in the order of its NALUs, the last one marked. -/
theorem frameEntries_eq (st : Status) (ns : List Bytes) (last : Bytes) :
    frameEntries st (ns ++ [last]) = ns.map (fun n => ⟨n, st, false⟩) ++ [⟨last, st, true⟩] := by
  induction ns with
  | nil => rfl
  | cons n ns ih =>
    cases ns with
    | nil => rfl
    | cons m ns => simpa [frameEntries] using ih

@[simp] theorem length_frameEntries (st : Status) (ns : List Bytes) : (frameEntries st ns).length = ns.length := by
  induction ns with
  | nil => rfl
  | cons n ns ih =>
    cases ns with
    | nil => rfl
    | cons m ns => simpa [frameEntries] using ih

/-! ### The steps of `UNP.PACKET` -/

/-- A packet of the frame under accumulation flushes nothing. -/
theorem tsFlush_of_noFlush {ts : BitVec 32} {s : State} (h : noFlush ts s.unp) : tsFlush ts s = (s, 0) := by
  unfold tsFlush
  rcases h with h | h | ⟨h, h'⟩
  · rw [h]
  · rw [h]; simp
  · split
    · rfl
    · simp [h, h']

/-- A frame that was accumulating is output when the timestamp changes. -/
theorem tsFlush_of_change {ts t₀ : BitVec 32} {s : State} (ht : s.unp.lastTs = some t₀) (hne : ts ≠ t₀)
    (h : s.unp.rq ≠ [] ∨ s.unp.aggActive = true) : tsFlush ts s = outputFrame (s.mapUnp dropPartial) := by
  simp [tsFlush, ht, hne, h]

/-- The sequence check writes the reference and may mark corruption. -/
theorem seqCheck_eq (seq : BitVec 16) (u : Unp) :
    seqCheck seq u = { u with refSeq := some seq, acc := u.acc ||| flagIf (isGap seq u) frameCorrupted } := by
  unfold seqCheck isGap
  cases u.refSeq
  · simp [flagIf]
  · rfl

/-- Only a marked packet outputs a frame at its end. -/
theorem markerOutput_false (s : State) : markerOutput false s = (s, 0) := rfl

theorem markerOutput_true (s : State) : markerOutput true s = outputFrame (s.mapUnp dropPartial) := rfl

/-- A packet that is not too long completes with the call status. -/
theorem execUnpPacket_of_le {seq : BitVec 16} {ts : BitVec 32} {m : Bool} {p : Bytes} {s : State}
    (h : p.length ≤ s.cfg.maxPayload) :
    execUnpPacket seq ts m p s =
      .next ((packetSteps seq ts m p s).1.respond ⟨.ok, BitVec.zeroExtend 32 (packetSteps seq ts m p s).2, []⟩) := by
  rw [execUnpPacket, if_neg (Nat.not_lt.mpr h)]; rfl

end Sys2Proof.Machine
end

