-- ==== Sys2Proof/Tests/Slice0.lean ====
section
/-! SUPPORT. Tests of one step each, their expected results from spec/95_test_vectors.md, and for every statement with
hypotheses a state and operands that meet them. -/

namespace Sys2Proof.Tests

open Sys2Proof Sys2Proof.Machine

/-! ### Small states -/

/-- The parameters of 95_test_vectors.md section 0. -/
def vec : Config := { Config.standard with nports := 4 }

/-- The same with ticks of 8 samples and every capacity bounded. -/
def small : Config :=
  { vec with
    tickMs := 1, maxPayload := 20, maxNalu := 8
    unpOutqCap := some 2, mixInqCap := some 1, mixOutqCap := some 1, mixBufCap := some 24 }

/-- The same with no capacity bounded. -/
def open8 : Config := { small with unpOutqCap := none, mixInqCap := none, mixOutqCap := none, mixBufCap := none }

/-- The block after reset under the vectors' parameters. -/
def start : State := State.resetWith vec

/-- `n` samples of value `v` as bytes, `K(v, n)` of the vectors. -/
def pcm (v : Int) (n : Nat) : Bytes := bytesOfSamples (List.replicate n (BitVec.ofInt 16 v))

/-- A running summer of ticks of 8 samples, ports 1 and 2 each with a packet. -/
def twoPorts (c : Config) (a b : Bytes) : State :=
  (((State.resetWith c).mapMix fun m => { m with running := true }).mapPort 1 fun q => { q with inq := [a] }).mapPort 2
    fun q => { q with inq := [b] }

/-- A running summer, port 0 alone with a packet. -/
def onePort (c : Config) (a : Bytes) : State :=
  ((State.resetWith c).mapMix fun m => { m with running := true }).mapPort 0 fun q => { q with inq := [a] }

/-- A reassembler with a NALU stored and a partial FU-A, last packet sequence 2 at time 90 (T-U10). -/
def accumulating (c : Config) : State :=
  (State.resetWith c).mapUnp fun u =>
    { u with rq := [[0x41, 0x9A]], aggActive := true, aggBuf := [0x65, 0xAA], lastTs := some 90, refSeq := some 2 }

/-- The state a command leaves. -/
def after (i : Instr) (s : State) : State :=
  match exec i s with
  | .next t => t
  | .fault _ => s
  | .refused _ => s

/-- The state a step leaves when these words are written to the port. -/
def stepWords (ws : List Word) (s : State) : State :=
  match step (s.hostWrite ws) with
  | .next t => t
  | .fault _ => s
  | .refused _ => s

/-- The words of the last response. -/
def lastWords (s : State) : List Word := (s.resp.getLast?.map responseWords).getD []

/-- The output queues of ports 0 to 3. -/
def outputs (s : State) : List (List Bytes) := [0, 1, 2, 3].map fun i => (s.port i).outq

/-! ### Ill-formed commands: each check refuses one -/

theorem test_wf_setActive_port : Instr.wellFormed vec (.mixSetActive 4 true) = false := by decide
theorem test_wf_setOutput_port : Instr.wellFormed vec (.mixSetOutput 4 true) = false := by decide
theorem test_wf_setMaster_port : Instr.wellFormed vec (.mixSetMaster 5) = false := by decide
theorem test_wf_push_port : Instr.wellFormed vec (.mixPush 4 []) = false := by decide
theorem test_wf_pop_port : Instr.wellFormed vec (.mixPop 200) = false := by decide
theorem test_wf_packet_size : Instr.wellFormed small (.unpPacket 1 90 true (List.replicate 21 0)) = false := by decide
theorem test_wf_setSps_length (p : Bytes) (h : p.length = 65536) : Instr.wellFormed vec (.unpSetSps p) = false := by
  simp [Instr.wellFormed, Instr.encodable, h]
theorem test_wf_setPps_length (p : Bytes) (h : p.length = 65536) : Instr.wellFormed vec (.unpSetPps p) = false := by
  simp [Instr.wellFormed, Instr.encodable, h]
theorem test_wf_push_length (d : Bytes) (h : d.length = 65536) : Instr.wellFormed vec (.mixPush 0 d) = false := by
  simp [Instr.wellFormed, Instr.encodable, h]
theorem test_wf_packet_length (p : Bytes) (h : p.length = 4294967296) :
    Instr.wellFormed vec (.unpPacket 1 90 true p) = false := by
  simp [Instr.wellFormed, Instr.encodable, h]
theorem test_wf_accepts_last_port : Instr.wellFormed vec (.mixPush 3 [0x64, 0x00]) = true := by decide

/-! ### Decoding (95_test_vectors.md section 2.1): one written-out word for every constructor -/

theorem test_decode_unpPacket : decodeCommand [0x01000064, 0x00002328, 0x00000009, 0x18000267, 0x42000268, 0xCE000000] =
    .ok (.unpPacket 100 9000 false [0x18, 0x00, 0x02, 0x67, 0x42, 0x00, 0x02, 0x68, 0xCE]) := by decide
theorem test_decode_unpSetSps : decodeCommand [0x02000004, 0x6742001F] = .ok (.unpSetSps [0x67, 0x42, 0x00, 0x1F]) := by
  decide
theorem test_decode_unpSetPps : decodeCommand [0x03000004, 0x68CE3C80] = .ok (.unpSetPps [0x68, 0xCE, 0x3C, 0x80]) := by
  decide
theorem test_decode_unpReset : decodeCommand [0x04000000] = .ok .unpReset := by decide
theorem test_decode_unpPop : decodeCommand [0x05000000] = .ok .unpPop := by decide
theorem test_decode_mixPreprocess : decodeCommand [0x10000000] = .ok .mixPreprocess := by decide
theorem test_decode_mixTick : decodeCommand [0x11000000, 0x00000001, 0x00000005] = .ok (.mixTick 0x100000005) := by decide
theorem test_decode_mixPostprocess : decodeCommand [0x12000000] = .ok .mixPostprocess := by decide
theorem test_decode_mixSetRate : decodeCommand [0x13000000, 0x00003E80] = .ok (.mixSetRate 16000) := by decide
theorem test_decode_mixGetRate : decodeCommand [0x14000000] = .ok .mixGetRate := by decide
theorem test_decode_mixSetNch : decodeCommand [0x15000102] = .ok (.mixSetNch 0x0102) := by decide
theorem test_decode_mixGetNch : decodeCommand [0x16000000] = .ok .mixGetNch := by decide
theorem test_decode_mixSetConf : decodeCommand [0x17000001] = .ok (.mixSetConf true) := by decide
theorem test_decode_mixSetActive : decodeCommand [0x18030000] = .ok (.mixSetActive 3 false) := by decide
theorem test_decode_mixSetOutput : decodeCommand [0x19800001] = .ok (.mixSetOutput 128 true) := by decide
theorem test_decode_mixSetMaster : decodeCommand [0x1A020000] = .ok (.mixSetMaster 2) := by decide
theorem test_decode_mixPush : decodeCommand [0x1B010003, 0x6400CE00] = .ok (.mixPush 1 [0x64, 0x00, 0xCE]) := by decide
theorem test_decode_mixPop : decodeCommand [0x1CC80000] = .ok (.mixPop 200) := by decide
theorem test_decode_sysFault : decodeCommand [0x20000000] = .ok .sysFault := by decide

/-- Padding bytes are ignored when read (30_encoding.md R113). -/
theorem test_decode_padding : decodeCommand [0x1B010001, 0x64FFFFFF] = .ok (.mixPush 1 [0x64]) := by decide

/-- T-E30 to T-E33: unlisted opcodes. -/
theorem test_decode_unlisted : ([0x00000000, 0x06000000, 0x1D000000, 0xFF000000] : List Word).all
    (fun h => decodeCommand [h] == .error .unlistedOpcode) = true := by decide

/-- T-E34 to T-E36, T-E40 to T-E43, T-E45, T-E46: reserved bits. -/
theorem test_decode_reserved : ([[0x10000001], [0x17000002], [0x17010001], [0x1A020001], [0x15010001],
    [0x02010002, 0x67420000], [0x01020001, 0x0000005A, 0x00000002, 0x419A0000], [0x11000001, 0x00000000, 0x00000014],
    [0x13000100, 0x00001F40]] : List (List Word)).all (fun ws => decodeCommand ws == .error .reservedBits) = true := by decide

/-- T-E30, T-E42 to T-E46: the words an illegal command consumes. -/
theorem test_consumed : [[0x06000000], [0x02010002, 0x67420000],
    [0x01020001, 0x0000005A, 0x00000002, 0x419A0000], [0x1B040002, 0x01000000], [0x11000001, 0x00000000, 0x00000014],
    [0x13000100, 0x00001F40]].map commandLength = [some 1, some 2, some 4, some 2, some 3, some 2] := by decide

/-- No header has the fixed bits of two rows (30_encoding.md R115): two rows' patterns differ where both masks are set. -/
theorem test_rows_disjoint : Op.all.Pairwise (fun o o' => o.mask &&& o'.mask &&& (o.pattern ^^^ o'.pattern) ≠ 0) := by decide

/-- The numbered words of a table row: an operand word the table gives no bits is zero. -/
theorem test_tableWord : decodeTableWord 32 0x01010001 = some (.unpPacket 1 0 true []) := by decide
theorem test_tableWord_payload : decodeTableWord 32 0x1B010005 = some (.mixPush 1 [0, 0, 0, 0, 0]) := by decide
theorem test_withFetchWord : step (State.reset.withFetchWord 32 0x20000000) =
    .next { State.reset with resp := [⟨.ok, 0, []⟩] } := by rfl

/-! ### One step of each command -/

/-- T-U1, T-E1. -/
theorem test_unpPacket_idr : (stepWords [0x01010001, 0x00000BB8, 0x00000002, 0x65880000] start).unp.outq =
    [⟨[0x65, 0x88], 0x85, true⟩] ∧
    lastWords (stepWords [0x01010001, 0x00000BB8, 0x00000002, 0x65880000] start) = [0, 0x85, 0] := by decide +kernel

/-- T-U10, packet 3: two frames from one call. -/
theorem test_unpPacket_twoFrames : (after (.unpPacket 3 180 true [0x65, 0x88]) (accumulating vec)).unp.outq =
    [⟨[0x41, 0x9A], 0x03, true⟩, ⟨[0x65, 0x88], 0x85, true⟩] ∧
    lastWords (after (.unpPacket 3 180 true [0x65, 0x88]) (accumulating vec)) = [0, 0x87, 0] := by decide +kernel

/-- T-U22: a wrong type is rejected. -/
theorem test_unpSetSps_rejects : lastWords (after (.unpSetSps [0x68, 0xCE]) start) = [0x01000000, 0, 0] := by decide +kernel

/-- T-U20, step 1. -/
theorem test_unpSetSps_takes : (after (.unpSetSps [0x67, 0x42, 0x00, 0x1F]) start).unp.sps =
    ⟨some [0x67, 0x42, 0x00, 0x1F], .oob, true, none⟩ := by decide +kernel

/-- T-U22: a PPS of its header alone is accepted. -/
theorem test_unpSetPps_takes : (after (.unpSetPps [0x68]) start).unp.pps = ⟨some [0x68], .oob, true, none⟩ := by
  decide +kernel

/-- T-U27: the references and the partial NALU are dropped. -/
theorem test_unpReset : (after .unpReset (accumulating vec)).unp = Unp.reset := by decide +kernel

/-- T-E6. -/
theorem test_unpPop : lastWords (after .unpPop (start.mapUnp fun u => { u with outq := [⟨[0x65, 0x88], 0x85, true⟩] })) =
    [0, 0x185, 2, 0x65880000] := by decide +kernel

/-- T-M14: a second `MIX.PREPROCESS` answers `STATE`. -/
theorem test_mixPreprocess_twice : lastWords (after .mixPreprocess (onePort vec [])) = [0x04000000, 0, 0] := by decide +kernel

/-- T-M16b: the rate is latched. -/
theorem test_mixPreprocess_latches :
    (after .mixPreprocess (start.mapMix fun m => { m with rate := 16000 })).tickBytes = 640 := by decide +kernel

/-- T-M1 with ticks of 8 samples. -/
theorem test_mixTick_mixes : outputs (after (.mixTick 0) (twoPorts small (pcm 100 8) (pcm (-50) 8))) =
    List.replicate 4 [pcm 50 8] := by decide +kernel

/-- T-M2 and T-M3: the output's own samples are taken out in conferencing mode, and sums are clamped. -/
theorem test_mixTick_conference : outputs (after (.mixTick 0)
    ((twoPorts small (pcm (-30000) 8) (pcm (-20000) 8)).mapMix fun m => { m with conf := true })) =
    [[pcm (-32767) 8], [pcm (-20000) 8], [pcm (-30000) 8], [pcm (-32767) 8]] := by decide +kernel

/-- T-M14. -/
theorem test_mixPostprocess_stopped : lastWords (after .mixPostprocess start) = [0x04000000, 0, 0] := by decide +kernel

/-- T-M29: a bufferizer's bytes are discarded, an input queue is kept. -/
theorem test_mixPostprocess_clears : ((after .mixPostprocess ((onePort vec [1, 2]).mapPort 0 fun q =>
    { q with buf := [3] })).port 0) = { Port.reset with inq := [[1, 2]] } := by decide +kernel

/-- T-M16. -/
theorem test_mixSetRate_rejects : lastWords (after (.mixSetRate 44100) start) = [0x01000000, 0, 0] ∧
    (after (.mixSetRate 44100) start).mix.rate = 8000 := by decide +kernel
theorem test_mixSetRate_takes : (after (.mixSetRate 48000) start).mix.rate = 48000 := by decide +kernel

/-- T-E12. -/
theorem test_mixGetRate : lastWords (after .mixGetRate start) = [0, 0x1F40, 0] := by decide +kernel

/-- T-M17. -/
theorem test_mixSetNch_rejects : lastWords (after (.mixSetNch 2) start) = [0x01000000, 0, 0] := by decide +kernel
theorem test_mixSetNch_takes : (after (.mixSetNch 2) (State.resetWith { vec with maxNch := 2 })).mix.nch = 2 := by
  decide +kernel

/-- T-E14. -/
theorem test_mixGetNch : lastWords (after .mixGetNch start) = [0, 1, 0] := by decide +kernel

/-- T-E15. -/
theorem test_mixSetConf : (after (.mixSetConf true) start).mix.conf = true := by decide +kernel

/-- T-E16 and T-E37. -/
theorem test_mixSetActive : ([0, 1, 2, 3].map fun i => ((after (.mixSetActive 3 false) start).port i).active) =
    [true, true, true, false] := by decide +kernel
theorem test_mixSetActive_port : lastWords (stepWords [0x18040001] start) = [0x02000000, 0, 0] := by decide +kernel

/-- T-E17. -/
theorem test_mixSetOutput : ([0, 1, 2, 3].map fun i => ((after (.mixSetOutput 0 false) start).port i).outEn) =
    [false, true, true, true] := by decide +kernel

/-- T-M30 and T-E39. -/
theorem test_mixSetMaster : after (.mixSetMaster 2) start = { start with resp := [⟨.ok, 0, []⟩] } := by decide +kernel
theorem test_mixSetMaster_port : lastWords (stepWords [0x1A050000] start) = [0x02000000, 0, 0] := by decide +kernel

/-- T-M18. -/
theorem test_mixPush_takes : ((after (.mixPush 1 [1, 2]) (State.resetWith small)).port 1).inq = [[1, 2]] := by decide +kernel
theorem test_mixPush_full : lastWords (after (.mixPush 1 [3, 4]) (twoPorts small [1, 2] [])) = [0x05000000, 0, 0] := by
  decide +kernel

/-- T-M28, with 8 samples, and T-E20. -/
theorem test_mixPop_takes : lastWords (after (.mixPop 0) (start.mapPort 0 fun q => { q with outq := [pcm 50 8] })) =
    [0, 0, 16, 0x32003200, 0x32003200, 0x32003200, 0x32003200] := by decide +kernel
theorem test_mixPop_empty : lastWords (stepWords [0x1C020000] start) = [0x03000000, 0, 0] := by decide +kernel

/-- T-M32: reading does not clear. -/
theorem test_sysFault : lastWords (after .sysFault (start.setFault mixOutqOvf)) = [0, 2, 0] ∧
    (after .sysFault (start.setFault mixOutqOvf)).fault = 2 := by decide +kernel

/-- T-K1 to T-K10. -/
theorem test_iSlice : ([[0x41, 0x88], [0x41, 0xB8], [0x41, 0x4C], [0x41, 0x9A], [0x41, 0xE0], [0x41, 0xA8], [0x41, 0x8C],
    [0x41, 0xC0], [0x41, 0x01], [0x41]] : List Bytes).map standardISlice =
    [true, true, true, false, false, false, false, false, false, false] := by decide +kernel

/-- T-S12. -/
theorem test_clamp : [40000, -32768, -40000, 5].map (clampInt vec) = [32767, -32767, -32767, 5] := by decide +kernel

/-! ### Witnesses: the hypotheses of each statement hold together somewhere

One theorem for each statement with hypotheses, a conjunct for each of its clauses, at a boundary of the clause's range. -/

/-- A state with these words at its port. -/
def atPort (ws : List Word) : State := start.hostWrite ws

/-- The longest payload of the format. -/
theorem witness_FetchOfEncodeIsTheCommand : Instr.encodable (.mixPush 255 (List.replicate 65535 0)) = true := by
  rw [Instr.encodable, List.length_replicate]; decide

/-- A payload that fills its words, and two that do not: their last payload byte, and padding that is not zero. -/
theorem witness_FetchedWordsAreTheEncoding :
    fetch [0x02000004, 0x6742001F, 0x05000000] = .decoded (.unpSetSps [0x67, 0x42, 0x00, 0x1F]) [0x05000000] ∧
    (fetch [0x1B010001, 0x64FFFFFF] = .decoded (.mixPush 1 [0x64]) [] ∧
      (encode (.mixPush 1 [0x64])).getLast? = some 0x64000000 ∧ 0 < (payloadOf (.mixPush 1 [0x64])).length % 4) ∧
    (fetch [0x1B010003, 0x6400CEFF] = .decoded (.mixPush 1 [0x64, 0x00, 0xCE]) [] ∧
      (encode (.mixPush 1 [0x64, 0x00, 0xCE])).getLast? = some 0x6400CE00 ∧
      2 < (payloadOf (.mixPush 1 [0x64, 0x00, 0xCE])).length % 4) := by decide

theorem witness_HeaderMatchesOneRow : Op.mixSetActive.matchesHeader 0x18FF0001 = true := by decide

/-- A string with padding, its last byte and the first byte of padding; and an empty request. -/
theorem witness_PayloadBytesStandInTheirWords :
    (([0x65, 0x88, 0x84, 0x21, 0x07] : Bytes)[4]? = some 0x07 ∧ 5 ≤ 5 ∧ 5 < 4 * ((5 + 3) / 4)) ∧
    (0 ≤ 4 * ([] : List Word).length ∧ 5 ≤ 4 * ([0, 0] : List Word).length ∧ ([0, 0] : List Word)[4 / 4]? = some 0) := by
  decide

/-- An unlisted opcode; a reserved bit in a header of each format; the shortest payload and one over a word. -/
theorem witness_UnlistedHeaderIsConsumedAndIllegal :
    (∀ o : Op, ([0x06000000, 0x10000001, 0x13000100, 0x11000001, 0x02010000, 0x03800005, 0x01020001] : List Word).map
      o.matchesHeader = List.replicate 7 false) ∧
    (headerOpc 0x06000000 ∉ [0x01#8, 0x02#8, 0x03#8, 0x11#8, 0x13#8, 0x1B#8] ∧
      headerOpc 0x10000001 ∉ [0x01#8, 0x02#8, 0x03#8, 0x11#8, 0x13#8, 0x1B#8]) ∧
    (headerOpc 0x13000100 = 0x13 ∧ 2 ≤ (atPort [0x13000100, 8000]).cmd.length) ∧
    (headerOpc 0x11000001 = 0x11 ∧ 3 ≤ (atPort [0x11000001, 0, 20]).cmd.length) ∧
    (headerOpc 0x02010000 ∈ [0x02#8, 0x03#8] ∧ 1 = 1 + ((headerImm 0x02010000).toNat + 3) / 4) ∧
    (headerOpc 0x03800005 ∈ [0x02#8, 0x03#8] ∧ 3 = 1 + ((headerImm 0x03800005).toNat + 3) / 4 ∧
      3 ≤ (atPort [0x03800005, 0x68000000, 0]).cmd.length) ∧
    (headerOpc 0x01020001 = 0x01 ∧ 3 = 3 + ((0#32).toNat + 3) / 4 ∧ 3 ≤ (atPort [0x01020001, 90, 0]).cmd.length) ∧
    (5 = 3 + ((5#32).toNat + 3) / 4 ∧ 5 ≤ (atPort [0x01020001, 90, 5, 0x41000000, 0]).cmd.length) := by
  refine ⟨fun o => ?_, by decide⟩
  cases o <;> decide

theorem witness_StepRunsTheFetchedCommand :
    fetch (atPort [0x05000000]).cmd = .decoded .unpPop [] ∧
    fetch (atPort [0x06000000]).cmd = .illegal .unlistedOpcode [] ∧ fetch (atPort [0x13000000]).cmd = .wait := by decide

theorem witness_EveryCommandGivesOneResponse :
    fetch (atPort [0x20000000, 0x05000000]).cmd = .decoded .sysFault [0x05000000] ∧
    fetch (atPort [0x10000001, 0x05000000]).cmd = .illegal .reservedBits [0x05000000] := by decide

/-- A command that answers `EMPTY`. -/
theorem witness_ErrorResponseChangesNothing :
    ∃ t r, exec .unpPop start = .next t ∧ t.resp = start.resp ++ [r] ∧ r.code ≠ .ok :=
  ⟨_, _, rfl, rfl, by decide⟩

theorem witness_FaultBitsAreSticky : faultBitsLegal ((start.setFault unpOutqOvf).setFault mixBufOvf).fault := by
  unfold faultBitsLegal; decide

theorem witness_NoFaultBitWithoutACapacity :
    ∃ s t, State.unbounded s ∧ s.cmd ≠ [] ∧ step s = .next t :=
  ⟨atPort [0x04000000], _, ⟨rfl, rfl, rfl, rfl⟩, by decide, rfl⟩

theorem witness_UnitsDoNotSeeEachOther : unitOf (.unpPacket 1 90 true []) = .unp ∧ unitOf (.mixTick 0) = .mix := by decide

/-- Full queues whose heads go, and a command that pops and adds nothing. -/
theorem witness_OutputQueuesKeepWhatTheyHold :
    (∃ s : State, s.unp.outq ≠ [] ∧ (s.port 3).outq ≠ [] ∧ (3#8).toNat = 3 ∧ 3 < s.cfg.nports) ∧
    (Instr.sysFault ≠ .unpPop ∧ (∀ seq ts m p, Instr.sysFault ≠ .unpPacket seq ts m p) ∧
      (∀ q, Instr.sysFault ≠ .mixPop q) ∧ ∀ now, Instr.sysFault ≠ .mixTick now) :=
  ⟨⟨(start.mapUnp fun u => { u with outq := [⟨[0x41], 1, true⟩] }).mapPort 3 fun q => { q with outq := [[1]] }, by decide⟩,
    nofun, nofun, nofun, nofun⟩

/-- `SYS.FAULT` is none of the writers. -/
theorem witness_ControlRegistersHaveOneWriter :
    (∀ r, Instr.sysFault ≠ .mixSetRate r) ∧ (∀ n, Instr.sysFault ≠ .mixSetNch n) ∧ (∀ en, Instr.sysFault ≠ .mixSetConf en) ∧
    Instr.sysFault ≠ .mixPreprocess ∧ Instr.sysFault ≠ .mixPostprocess ∧
    (∀ p en, Instr.sysFault ≠ .mixSetActive p en) ∧ (∀ p en, Instr.sysFault ≠ .mixSetOutput p en) := by
  refine ⟨?_, ?_, ?_, ?_, ?_, ?_, ?_⟩ <;> (intros; intro h; cases h)

/-- A reassembler in the middle of a frame, with a command at the port. -/
theorem witness_StepKeepsReassemblerInvariant :
    ∃ s t, s.unp.rq ≠ [] ∧ s.unp.aggActive = true ∧ UnpInv s.cfg s.unp ∧ s.cmd ≠ [] ∧ step s = .next t := by
  refine ⟨(accumulating small).hostWrite [0x04000000], _, by decide, rfl, ?_, by decide, rfl⟩
  exact
    { rqNonempty := by decide
      idleEmpty := by decide
      partialSized := by decide
      pendingBits := by decide
      spsInv := ⟨by decide, (fun _ h => by cases h), (fun _ h => by cases h)⟩
      ppsInv := ⟨by decide, (fun _ h => by cases h), (fun _ h => by cases h)⟩
      outqFits := by decide
      outqNonempty := by decide }

/-- A running summer after a tick at 5 ms, with a packet queued. -/
def ticked : State :=
  ((onePort small [1, 2]).mapMix fun m => { m with lastNow := some 5 }).mapPort 0 fun q =>
    { q with lastSeen := some 5, lastFc := some 0, minFull := some 3, buf := [9] }

theorem ticked_mixInv : MixInv ticked.cfg ticked.mix where
  portCount := by decide
  rateLegal := ⟨by decide, by decide⟩
  nchLegal := ⟨by decide, by decide⟩
  runRateLegal := ⟨by decide, by decide⟩
  runNchLegal := ⟨by decide, by decide⟩
  bypassIsPort := fun _ h => by cases h
  stoppedClear := fun h => by cases h
  portsInv := by
    intro q hq
    have : q = { Port.reset with
        inq := [[1, 2]], lastSeen := some 5, lastFc := some 0, minFull := some 3, buf := [9] } ∨ q = Port.reset := by
      revert q; decide
    rcases this with rfl | rfl
    · refine ⟨by decide, by decide, by decide, fun t h => ⟨5, rfl, ?_⟩⟩
      rcases h with h | h <;> cases h <;> decide
    · exact ⟨by decide, by decide, by decide, fun t h => h.elim nofun nofun⟩

theorem witness_StepKeepsSummerInvariant :
    ∃ s t, MixInv s.cfg s.mix ∧ s.mix.running = true ∧ s.cmd ≠ [] ∧ step s = .next t :=
  ⟨ticked.hostWrite [0x20000000], _, ticked_mixInv, rfl, by decide, rfl⟩

theorem witness_BlockResetValues : ∃ s t : State, t = s.blockReset ∧ s.cfg ≠ Config.standard :=
  ⟨accumulating small, _, rfl, by decide⟩

/-- The last port, the first out of range, and a header with `IMM[15:1]` not 0. -/
theorem witness_SetActiveWritesTheFlag : (3#8).toNat < start.cfg.nports ∧ start.cfg.nports ≤ (4#8).toNat ∧
    (headerOpc 0x18008000 = 0x18 ∧ (0x18008000 : Word).extractLsb' 1 15 ≠ 0) := by decide

theorem witness_SetOutputWritesTheFlag : (0#8).toNat < start.cfg.nports ∧ start.cfg.nports ≤ (255#8).toNat ∧
    (headerOpc 0x19000002 = 0x19 ∧ (0x19000002 : Word).extractLsb' 1 15 ≠ 0) := by decide

theorem witness_SetConfWritesTheMode : headerOpc 0x17000002 = 0x17 ∧ (0x17000002 : Word).extractLsb' 1 15 ≠ 0 ∧
    headerOpc 0x17800001 = 0x17 ∧ headerIdx 0x17800001 ≠ 0 := by decide

theorem witness_SetMasterDoesNothing : (3#8).toNat < start.cfg.nports ∧ start.cfg.nports ≤ (4#8).toNat := by decide

/-- The smallest rate, the largest 32-bit multiple, and two that are rejected. -/
theorem witness_SampleRateIsSetOrRejected :
    ((8000#32 ≠ 0 ∧ start.cfg.rateStep ∣ (8000#32).toNat) ∧ start.cfg.rateStep ∣ (4294960000#32).toNat) ∧
    ((0#32 = 0) ∧ ¬ start.cfg.rateStep ∣ (44100#32).toNat) := by decide

theorem witness_ChannelCountIsSetOrRejected : (1 ≤ (1#16).toNat ∧ (1#16).toNat ≤ start.cfg.maxNch) ∧
    start.cfg.maxNch < (2#16).toNat ∧ (headerOpc 0x15010001 = 0x15 ∧ headerIdx 0x15010001 ≠ 0) := by decide

theorem witness_PreprocessLatchesAndClears : ticked.mix.running = true ∧ start.mix.running = false := by decide

theorem witness_PostprocessClearsAndStops : start.mix.running = false ∧ ticked.mix.running = true := by decide

/-- An empty queue of capacity 1, and a full one. -/
theorem witness_PushAppendsToTheInputQueue :
    ((3#8).toNat < ticked.cfg.nports ∧ ∀ cap, ticked.cfg.mixInqCap = some cap → (ticked.port (3#8).toNat).inq.length < cap) ∧
    ((0#8).toNat < ticked.cfg.nports ∧ ∃ cap, ticked.cfg.mixInqCap = some cap ∧ cap ≤ (ticked.port (0#8).toNat).inq.length) ∧
    ticked.cfg.nports ≤ (4#8).toNat ∧ (ticked.port 0).active = true := by
  refine ⟨⟨by decide, fun cap h => ?_⟩, ⟨by decide, 1, rfl, by decide⟩, by decide, by decide⟩
  cases h; decide

theorem witness_PopReturnsTheOldestBuffer :
    ∃ s : State, (0#8).toNat < s.cfg.nports ∧ (s.port (0#8).toNat).outq = [[1], [2]] ∧
      (3#8).toNat < s.cfg.nports ∧ (s.port (3#8).toNat).outq = [] ∧ s.cfg.nports ≤ (4#8).toNat :=
  ⟨start.mapPort 0 fun q => { q with outq := [[1], [2]] }, by decide⟩

/-- The longest set that is taken, one byte more, the wrong types, and a reserved bit. -/
theorem witness_InjectionIsTakenOrRejected :
    (nalType (0x67 :: List.replicate 7 0) = 7 ∧ (0x67 :: List.replicate 7 (0 : Byte)).length ≤ (accumulating small).cfg.maxNalu) ∧
    (accumulating small).cfg.maxNalu < (0x67 :: List.replicate 8 (0 : Byte)).length ∧ nalType [0x68] = 8 ∧ nalType [0x68] ≠ 7 ∧
    nalType [0x67] ≠ 8 ∧
    (headerOpc 0x02010002 = 0x02 ∧ headerIdx 0x02010002 ≠ 0 ∧
      ([0x67420000] : List Word).length = ((headerImm 0x02010002).toNat + 3) / 4 ∧
      (atPort [0x02010002, 0x67420000, 0x05000000]).cmd = 0x02010002 :: [0x67420000] ++ [0x05000000]) ∧
    (headerOpc 0x03800000 = 0x03 ∧ headerIdx 0x03800000 ≠ 0) := by decide

theorem witness_UnpResetDiscardsThePartialFrame : headerOpc 0x04000001 = 0x04 ∧ (0x04000001 : Word) ≠ 0x04000000 := by decide

theorem witness_UnpPopReturnsTheOldestNalu :
    (∃ s : State, s.unp.outq = [⟨[0x41], 0x01, true⟩]) ∧ start.unp.outq = [] ∧
    (headerOpc 0x05800000 = 0x05 ∧ (0x05800000 : Word) ≠ 0x05000000) :=
  ⟨⟨start.mapUnp fun u => { u with outq := [⟨[0x41], 0x01, true⟩] }, rfl⟩, rfl, by decide⟩

/-- One byte over the limit, and the limit itself. -/
theorem witness_PacketAnswersOkUnlessTooLong :
    (accumulating small).cfg.maxPayload < (List.replicate 21 (0 : Byte)).length ∧
    (List.replicate 20 (0 : Byte)).length ≤ (accumulating small).cfg.maxPayload := by decide

/-- A packet that continues a frame. -/
theorem accumulating_noFlush (c : Config) : noFlush 90 (accumulating c).unp := .inr (.inl rfl)

theorem plain_41 : isPlainNal [0x41, 0x9A] := by unfold isPlainNal; decide

theorem witness_RawNaluIsStored : isPlainNal [0x41, 0x9A] ∧ ([0x41, 0x9A] : Bytes).length ≤ (accumulating small).cfg.maxPayload ∧
    noFlush 90 (accumulating small).unp := ⟨plain_41, by decide, accumulating_noFlush small⟩

theorem witness_InBandParameterSetIsTracked : nalType [0x67, 0x42] = psType .sps ∧ nalType [0x68] = psType .pps ∧
    ([0x67, 0x42] : Bytes).length ≤ (accumulating small).cfg.maxPayload ∧ noFlush 90 (accumulating small).unp :=
  ⟨by decide, by decide, by decide, accumulating_noFlush small⟩

theorem witness_EmptyPayloadIsCorruption : (noFlush 90 (accumulating small).unp ∧ false = false) ∧
    (noFlush 90 start.unp ∧ true = true ∧ start.unp.rq = []) := ⟨⟨accumulating_noFlush small, rfl⟩, .inl rfl, rfl, rfl⟩

/-- T-B1: an SPS and a PPS of one byte; and two units, one of type 28, with a trailing byte. -/
theorem witness_AggregateUnitsAreStored :
    (nalType [0x18, 0, 2, 0x67, 0x42, 0, 1, 0x68] = 24 ∧
      ([0x18, 0, 2, 0x67, 0x42, 0, 1, 0x68] : Bytes).length ≤ (accumulating small).cfg.maxPayload ∧
      noFlush 90 (accumulating small).unp ∧
      stapSplit [0x18, 0, 2, 0x67, 0x42, 0, 1, 0x68] = ([[0x67, 0x42], [0x68]], false)) ∧
    (nalType [0x18, 0, 2, 0x41, 0x9A, 0, 1, 0x7C, 9] = 24 ∧
      stapSplit [0x18, 0, 2, 0x41, 0x9A, 0, 1, 0x7C, 9] = ([[0x41, 0x9A], [0x7C]], true)) :=
  ⟨⟨by decide, by decide, accumulating_noFlush small, by decide⟩, by decide⟩

/-- A split with a defect and one without. -/
theorem witness_StapSplitFindsTheUnits :
    (stapSplit [0x18, 0, 0]).2 = true ∧ (stapSplit [0x18, 0, 1, 0x41]).2 = false := by decide

/-- Every kind of fragment, the sizes at the limit and one over it; an end fragment after a gap (T-U8). -/
theorem witness_FragmentEffects :
    (nalType [0x7C] = 28 ∧ noFlush 90 (accumulating small).unp ∧
      ((accumulating small).unp.aggActive = false → (accumulating small).unp.aggBuf = [])) ∧
    (fuStart 0xC1 = true ∧ fuEnd 0xC1 = true) ∧
    (fuStart 0x85 = true ∧ fuEnd 0x85 = false ∧ small.maxNalu < (List.replicate 8 (0 : Byte)).length + 1 ∧
      (List.replicate 7 (0 : Byte)).length + 1 ≤ small.maxNalu) ∧
    (fuStart 0x05 = false ∧ fuEnd 0x05 = false ∧ start.unp.aggActive = false ∧
      typeField 0x01 ≠ nalType (accumulating small).unp.aggBuf ∧
      small.maxNalu < (accumulating small).unp.aggBuf.length + (List.replicate 7 (0 : Byte)).length ∧
      (accumulating small).unp.aggActive = true ∧ typeField 0x05 = nalType (accumulating small).unp.aggBuf ∧
      (accumulating small).unp.aggBuf.length + (List.replicate 6 (0 : Byte)).length ≤ small.maxNalu) ∧
    (fuStart 0x45 = false ∧ fuEnd 0x45 = true ∧ typeField 0x45 = nalType (accumulating small).unp.aggBuf ∧
      isGap 9 (accumulating small).unp = true) :=
  ⟨⟨by decide, accumulating_noFlush small, by decide⟩, by decide, by decide, by decide, by decide⟩

/-- A NALU of the largest size, cut in four. -/
theorem witness_FragmentsRebuildTheNalu :
    typeField 0x7C = 28 ∧
    (State.resetWith small).unp.aggActive = false ∧ (State.resetWith small).unp.aggBuf = [] ∧
    noFlush 90 (State.resetWith small).unp ∧ (State.resetWith small).unp.refSeq = none ∧
    1 + ([1, 2] : Bytes).length + ([[3], [4, 5]] : List Bytes).flatten.length + ([6, 7] : Bytes).length ≤ small.maxNalu ∧
    ∀ f ∈ [1, 2] :: [6, 7] :: ([[3], [4, 5]] : List Bytes), f.length + 2 ≤ small.maxPayload :=
  ⟨by decide, rfl, rfl, .inl rfl, rfl, by decide, by decide⟩

theorem witness_FrameStatusBits : ({ Unp.reset with acc := 0x1A } : Unp).acc &&& 0xE5 = 0 := by decide

/-- A code that fits, one whose suffix does not, and a byte without a one; two codes of one byte, slice types 2 and 7 (T-K1,
T-K2), and a NALU of its header alone (T-K10). -/
theorem witness_ExpGolombInsideOneByte :
    (1 + 1 < 8 ∧ (∀ j, j < 1 → (0xA8#8).getMsbD (1 + j) = false) ∧ (0xA8#8).getMsbD (1 + 1) = true ∧ 1 + 2 * 1 + 1 ≤ 8) ∧
    (7 + 0 < 8 ∧ (0x01#8).getMsbD (0 + 7) = true ∧ 8 < 0 + 2 * 7 + 1) ∧
    (8 ≤ 8 ∧ ∀ j, 8 + j < 8 → (0xFF#8).getMsbD (8 + j) = false) ∧
    (ue8 0xB8 0 = some (0, 1) ∧ ue8 0xB8 1 = some (2, 4) ∧ ue8 0x88 0 = some (0, 1) ∧ ue8 0x88 1 = some (7, 8)) ∧
    ([0x41] : Bytes).length < 2 ∧ small.islice = .standard := by
  refine ⟨by decide, by decide, ⟨by decide, fun j h => by omega⟩, by decide, by decide, rfl⟩

/-- A state with one NALU stored and nothing partial. -/
def oneStored (c : Config) : State := (accumulating c).mapUnp aggReset

/-- A frame that just fits the output queue, and one that does not. -/
theorem witness_MarkerOutputsTheFrame :
    (isPlainNal [0x41, 0x9A] ∧ ([0x41, 0x9A] : Bytes).length ≤ small.maxPayload ∧ noFlush 90 (oneStored small).unp ∧
      (oneStored small).unp.aggActive = false ∧ (oneStored small).unp.sps.oobPending = false ∧
      (oneStored small).unp.pps.oobPending = false) ∧
    (∀ cap, (oneStored small).cfg.unpOutqCap = some cap →
      (oneStored small).unp.outq.length + (oneStored small).unp.rq.length + 1 ≤ cap) ∧
    ∃ cap, (oneStored { small with unpOutqCap := some 1 }).cfg.unpOutqCap = some cap ∧
      cap < (oneStored { small with unpOutqCap := some 1 }).unp.outq.length +
        (oneStored { small with unpOutqCap := some 1 }).unp.rq.length + 1 :=
  ⟨⟨plain_41, by decide, .inr (.inl rfl), rfl, rfl, rfl⟩, (fun cap h => by cases h; decide), 1, rfl, by decide⟩

/-- A partial FU-A alone, of time 90 (T-U9, T-A10). -/
def partialOnly (c : Config) : State := (accumulating c).mapUnp fun u => { u with rq := [] }

/-- An empty payload after a start fragment stores nothing; after a stored NALU it leaves a frame, which just fits the output
queue, and does not; a pending SPS heads it. -/
theorem witness_MarkerEndsEveryPacket :
    (([] : Bytes).length ≤ (partialOnly small).cfg.maxPayload ∧ noFlush 90 (partialOnly small).unp ∧
      noFlush 90 (accumulating small).unp) ∧
    ((dropPartial (after (.unpPacket 3 90 false []) (partialOnly small)).unp).rq = [] ∧
      (after (.unpPacket 3 90 false [0x7C, 0x85, 0xAA]) (partialOnly small)).unp.aggActive = true) ∧
    (dropPartial (after (.unpPacket 3 90 false []) (accumulating small)).unp).rq = [[0x41, 0x9A]] ∧
    (oobPrefix small { Unp.reset with rq := [[0x41, 0x9A]], sps := ⟨some [0x67], .oob, true, none⟩ }).1 = [[0x67]] ∧
    (∀ cap, (accumulating { small with unpOutqCap := some 1 }).cfg.unpOutqCap = some cap →
      (accumulating { small with unpOutqCap := some 1 }).unp.outq.length + ([[0x41, 0x9A]] : List Bytes).length ≤ cap) ∧
    ∃ cap, (accumulating { small with unpOutqCap := some 1 }).cfg.unpOutqCap = some cap ∧
      cap < (accumulating { small with unpOutqCap := some 1 }).unp.outq.length + ([[0x67], [0x41, 0x9A]] : List Bytes).length :=
  ⟨⟨by decide, .inr (.inl rfl), .inr (.inl rfl)⟩, by decide +kernel, by decide +kernel, by decide +kernel,
    (fun cap h => by cases h; decide), 1, rfl, by decide⟩

/-- A partial FU-A with a stored NALU, in an output queue that just fits the frame and one that does not; and alone. -/
theorem witness_TimestampChangeFlushes :
    (isPlainNal [0x41, 0x9A] ∧ ([0x41, 0x9A] : Bytes).length ≤ small.maxPayload ∧
      (accumulating small).unp.lastTs = some 90 ∧ (91 : BitVec 32) ≠ 90) ∧
    ((accumulating small).unp.rq ≠ [] ∧ (accumulating small).unp.sps.oobPending = false ∧
      (accumulating small).unp.pps.oobPending = false) ∧
    (∀ cap, (accumulating { small with unpOutqCap := some 1 }).cfg.unpOutqCap = some cap →
      (accumulating { small with unpOutqCap := some 1 }).unp.outq.length +
        (accumulating { small with unpOutqCap := some 1 }).unp.rq.length ≤ cap) ∧
    (∃ cap, (accumulating { small with unpOutqCap := some 0 }).cfg.unpOutqCap = some cap ∧
      cap < (accumulating { small with unpOutqCap := some 0 }).unp.outq.length +
        (accumulating { small with unpOutqCap := some 0 }).unp.rq.length) ∧
    ((partialOnly small).unp.rq = [] ∧ (partialOnly small).unp.aggActive = true ∧ (partialOnly small).unp.lastTs = some 90) :=
  ⟨⟨plain_41, by decide, rfl, by decide⟩, ⟨by decide, rfl, rfl⟩, (fun cap h => by cases h; decide), ⟨0, rfl, by decide⟩,
    rfl, rfl, rfl⟩

/-- T-U10: the frame flushed and the frame ended. Both fit two entries; one entry has room for the first alone. -/
theorem witness_CallStatusIsTheOrOfTheFrames :
    (List.replicate 20 (0 : Byte)).length ≤ (accumulating small).cfg.maxPayload ∧
    ((accumulating small).unp.lastTs ≠ none ∧ (accumulating small).unp.lastTs ≠ some 180 ∧
      outputOf small (dropPartial (accumulating small).unp) = some (0x03, [[0x41, 0x9A]]) ∧
      outputOf small (dropPartial (dispatchPayload small [0x65, 0x88]
        (seqCheck 3 { (tsFlush 180 (accumulating small)).1.unp with lastTs := some 180 }))) = some (0x85, [[0x65, 0x88]])) ∧
    ([(0x03, [[0x41, 0x9A]]), (0x85, [[0x65, 0x88]])].foldl (enqueueFrame (some 2)) ([], false)).2 = false ∧
    [(0x03, [[0x41, 0x9A]]), (0x85, [[0x65, 0x88]])].foldl (enqueueFrame (some 1)) ([], false) =
      ([⟨[0x41, 0x9A], 0x03, true⟩], true) := by decide +kernel

/-- The hypotheses; and a delivered repeat is no news, another set is (T-U23, without its PPS). -/
theorem witness_InjectedSetsAreDeliveredOnce :
    nalType [0x67, 0x42] = 7 ∧ ([0x67, 0x42] : Bytes).length ≤ open8.maxNalu ∧ nalType [0x68] = 8 ∧
    ([0x68] : Bytes).length ≤ open8.maxNalu ∧ isPlainNal [0x41, 0x9A] ∧ ([0x41, 0x9A] : Bytes).length ≤ open8.maxPayload ∧
    noFlush 90 (oneStored open8).unp ∧ (oneStored open8).unp.aggActive = false ∧ (oneStored open8).cfg.unpOutqCap = none ∧
    ([[0x67, 0x42], [0x67, 0x4D]] : List Bytes).map (fun sps => lastWords (after (.unpPacket 2 6000 true [0x41, 0x9A])
      (start.mapUnp fun u => { u with sps := ⟨some sps, .oob, true, some [0x67, 0x42]⟩ }))) = [[0, 0x21, 0], [0, 0x29, 0]] :=
  ⟨by decide, by decide, by decide, by decide, plain_41, by decide, .inr (.inl rfl), rfl, rfl, by decide +kernel⟩

/-- Both kinds, the other one not pending. -/
theorem witness_InBandSetCancelsTheInjection :
    (nalType [0x67, 0x42] = psType .sps ∧ ([0x67, 0x42] : Bytes).length ≤ open8.maxNalu ∧ nalType [0x67, 0x4D] = psType .sps ∧
      ([0x67, 0x4D] : Bytes).length ≤ open8.maxPayload) ∧
    (nalType [0x68] = psType .pps ∧ nalType [0x68, 0xCE] = psType .pps ∧ ([0x68, 0xCE] : Bytes).length ≤ open8.maxNalu) ∧
    noFlush 90 (oneStored open8).unp ∧ (oneStored open8).unp.aggActive = false ∧
    (∀ k', k' ≠ .sps → ((oneStored open8).unp.ps k').oobPending = false) ∧
    (∀ k', k' ≠ .pps → ((oneStored open8).unp.ps k').oobPending = false) ∧ (oneStored open8).cfg.unpOutqCap = none :=
  ⟨by decide, by decide, .inr (.inl rfl), rfl, fun k' _ => by cases k' <;> rfl, fun k' _ => by cases k' <;> rfl, rfl⟩

/-- Stopped; and one millisecond before the last tick. -/
theorem witness_TickChecksInOrder : start.mix.running = false ∧
    (ticked.mix.running = true ∧ ticked.mix.lastNow = some 5 ∧ (4#64).toNat < (5#64).toNat) := by decide

/-- The same time as the last tick's is accepted. -/
theorem witness_AcceptedTickCompletes : tickAccepted 5 ticked := by unfold tickAccepted; decide

/-- Port 0's recency has just run out, and its queue is empty. -/
def quiet : State := ticked.mapPort 0 fun q => { q with inq := [] }

theorem quiet_mixInv : MixInv quiet.cfg quiet.mix where
  portCount := by decide
  rateLegal := ⟨by decide, by decide⟩
  nchLegal := ⟨by decide, by decide⟩
  runRateLegal := ⟨by decide, by decide⟩
  runNchLegal := ⟨by decide, by decide⟩
  bypassIsPort := fun _ h => by cases h
  stoppedClear := fun h => by cases h
  portsInv := by
    intro q hq
    have : q = { Port.reset with lastSeen := some 5, lastFc := some 0, minFull := some 3, buf := [9] } ∨ q = Port.reset := by
      revert q; decide
    rcases this with rfl | rfl
    · refine ⟨by decide, by decide, by decide, fun t h => ⟨5, rfl, ?_⟩⟩
      rcases h with h | h <;> cases h <;> decide
    · exact ⟨by decide, by decide, by decide, fun t h => h.elim nofun nofun⟩

theorem witness_TickWithNoActivePort : MixInv quiet.cfg quiet.mix ∧ tickAccepted 65 quiet ∧ activePorts 65 quiet = [] :=
  ⟨quiet_mixInv, by unfold tickAccepted; decide, by decide⟩

theorem witness_BypassForwardsVerbatim : MixInv ticked.cfg ticked.mix ∧ tickAccepted 5 ticked ∧ activePorts 5 ticked = [0] :=
  ⟨ticked_mixInv, by unfold tickAccepted; decide, by decide⟩

/-- Two active ports: port 0 by its queue, at its window's end; port 1 by its recency. -/
def mixing : State := ticked.mapPort 1 fun q => { q with lastSeen := some 5, inq := [[1]] }

theorem mixing_mixInv : MixInv mixing.cfg mixing.mix where
  portCount := by decide
  rateLegal := ⟨by decide, by decide⟩
  nchLegal := ⟨by decide, by decide⟩
  runRateLegal := ⟨by decide, by decide⟩
  runNchLegal := ⟨by decide, by decide⟩
  bypassIsPort := fun _ h => by cases h
  stoppedClear := fun h => by cases h
  portsInv := by
    intro q hq
    have : q = { Port.reset with
          inq := [[1, 2]], lastSeen := some 5, lastFc := some 0, minFull := some 3, buf := [9] } ∨
        q = { Port.reset with inq := [[1]], lastSeen := some 5 } ∨ q = Port.reset := by
      revert q; decide
    rcases this with rfl | rfl | rfl
    · refine ⟨by decide, by decide, by decide, fun t h => ⟨5, rfl, ?_⟩⟩
      rcases h with h | h <;> cases h <;> decide
    · refine ⟨by decide, by decide, by decide, fun t h => ⟨5, rfl, ?_⟩⟩
      rcases h with h | h
      · cases h; decide
      · cases h
    · exact ⟨by decide, by decide, by decide, fun t h => h.elim nofun nofun⟩

theorem small_wf : small.WF := by decide

/-- A whole tick of bytes at ports 1 and 2; conferencing; a disabled output; a full output queue; a bufferizer that cuts. -/
def crowded : State :=
  ((((twoPorts small (pcm 100 8) (pcm (-50) 13)).mapMix fun m => { m with conf := true }).mapPort 0 fun q =>
    { q with outEn := false }).mapPort 3 fun q => { q with outq := [[7]] })

theorem crowded_mixInv : MixInv crowded.cfg crowded.mix where
  portCount := by decide
  rateLegal := ⟨by decide, by decide⟩
  nchLegal := ⟨by decide, by decide⟩
  runRateLegal := ⟨by decide, by decide⟩
  runNchLegal := ⟨by decide, by decide⟩
  bypassIsPort := fun _ h => by cases h
  stoppedClear := fun h => by cases h
  portsInv := by
    intro q hq
    have : q = { Port.reset with outEn := false } ∨ q = { Port.reset with inq := [pcm 100 8] } ∨
        q = { Port.reset with inq := [pcm (-50) 13] } ∨ q = { Port.reset with outq := [[7]] } := by
      revert q; decide +kernel
    rcases this with rfl | rfl | rfl | rfl <;>
      exact ⟨by decide, by decide, by decide, fun t h => h.elim nofun nofun⟩

theorem witness_MixedOutputIsTheClampedSum :
    (mixing.cfg.WF ∧ MixInv mixing.cfg mixing.mix ∧ tickAccepted 5 mixing ∧ 2 ≤ (activePorts 5 mixing).length ∧
      (mixing.port 0).outEn = true ∧ 25 ≤ mixing.cfg.accWidth) ∧
    (crowded.cfg.WF ∧ MixInv crowded.cfg crowded.mix ∧ tickAccepted 0 crowded ∧ activePorts 0 crowded = [1, 2] ∧
      crowded.mix.conf = true ∧ (crowded.port 0).outEn = false ∧ contributors 0 crowded = [1, 2] ∧
      mixedFor 0 crowded 1 = [2] ∧ mixedFor 0 crowded 3 = [1, 2] ∧ tickInput crowded 2 ≠ offeredInput crowded 2 ∧
      ∃ cap, crowded.cfg.mixOutqCap = some cap ∧ cap ≤ (crowded.port 3).outq.length) :=
  ⟨⟨small_wf, mixing_mixInv, by unfold tickAccepted; decide, by decide, by decide, by decide⟩,
    small_wf, crowded_mixInv, by unfold tickAccepted; decide, by decide +kernel, rfl, by decide, by decide +kernel,
    by decide +kernel, by decide +kernel, by decide +kernel, 1, rfl, by decide⟩

/-- No window yet, a window one millisecond before its end, and one at its end. -/
theorem witness_MixTickChannelEffects : MixInv mixing.cfg mixing.mix ∧ tickAccepted 5000 mixing ∧
    2 ≤ (activePorts 5000 mixing).length ∧ (mixing.port 1).lastFc = none ∧ (mixing.port 0).lastFc = some 0 ∧
    ((4999#64).toNat : Int) - ((0#64).toNat : Int) < mixing.cfg.fcWindowMs ∧
    (mixing.cfg.fcWindowMs : Int) ≤ ((5000#64).toNat : Int) - ((0#64).toNat : Int) ∧ 3 ∉ activePorts 5000 mixing :=
  ⟨mixing_mixInv, by unfold tickAccepted; decide, by decide, by decide, by decide, by decide, by decide, by decide⟩

theorem witness_MutedInputIsUnheard : ∃ s : State, tickAccepted 5 s ∧ (s.port 3).active = false :=
  ⟨ticked.mapPort 3 fun q => { q with active := false }, by unfold tickAccepted; decide, by decide⟩

/-- As many contributions as there can be ports, in the narrowest accumulator that holds their sums; and one of 17 bits, in
which a sum does not fit. -/
theorem witness_AccumulatorIsExact :
    (25 ≤ ({ small with accWidth := 25 } : Config).accWidth ∧
      (List.replicate 256 (List.replicate 2 (0x8000 : Sample))).length ≤ 256 ∧
      ∀ c ∈ List.replicate 256 (List.replicate 2 (0x8000 : Sample)), c.length = 2) ∧
    (({ small with accWidth := 17 } : Config).accWidth = 16 + 1 ∧
      accHolds { small with accWidth := 17 } (3 * -32768) = false ∧
      (Config.accOverflow 17 (-98304)).bmod (2 ^ 17) ∈
        addSamples { small with accWidth := 17 } [-65536] [0x8000]) := by
  refine ⟨⟨by decide, Nat.le_of_eq List.length_replicate, fun c hc => ?_⟩, rfl, by decide, ?_⟩
  · rw [List.eq_of_mem_replicate hc]; rfl
  · exact List.mem_singleton.mpr rfl

theorem witness_MixedSamplesAreClamped : Config.standard.WF ∧ -32768 < Config.standard.clampMin := by decide

/-- At the capacities, and one over them. -/
theorem witness_SummerOverflowIsFlagged :
    (∀ cap, ticked.cfg.mixBufCap = some cap → (ticked.port 0).buf.length + (List.replicate 23 (0 : Byte)).length ≤ cap) ∧
    (∃ cap, ticked.cfg.mixBufCap = some cap ∧ cap < (ticked.port 0).buf.length + (List.replicate 24 (0 : Byte)).length) ∧
    (∀ cap, ticked.cfg.mixOutqCap = some cap → (ticked.port 0).outq.length < cap) ∧
    ∃ s : State, ∃ cap, s.cfg.mixOutqCap = some cap ∧ cap ≤ (s.port 0).outq.length :=
  ⟨(fun cap h => by cases h; decide), ⟨24, rfl, by decide⟩, (fun cap h => by cases h; decide),
    ticked.mapPort 0 fun q => { q with outq := [[]] }, 1, rfl, by decide⟩

theorem witness_TickSizesAreExact : 8000 ∣ start.mix.runRate.toNat := by decide

end Sys2Proof.Tests
end

/-! The scope family (00_scope.md): the step at the command port, one response for every command, the tick sizes. -/

namespace Sys2Proof.Machine

/-! ### What a step does, by what is at the port -/

theorem step_of_decoded {s : State} {i : Instr} {rest : List Word} (h : fetch s.cmd = .decoded i rest) :
    step s = exec i { s with cmd := rest } := by
  rw [step, h]

theorem step_of_illegal {s : State} {e : IllegalEncoding} {rest : List Word} (h : fetch s.cmd = .illegal e rest) :
    step s = raise .illegal { s with cmd := rest } := by
  rw [step, h]

theorem step_of_wait {s : State} (h : fetch s.cmd = .wait) : step s = .next s := by
  rw [step, h]

/-- Settles O7: a step in each of the three fetch outcomes. -/
theorem stepRunsTheFetchedCommand : Obligations.StepRunsTheFetchedCommand := by
  unfold Obligations.StepRunsTheFetchedCommand
  exact fun s =>
    ⟨fun _ _ h => step_of_decoded h, fun _ _ h => (step_of_illegal h).trans (raise_eq_next ..), step_of_wait⟩

/-! ### What no command's work touches: the parameters and the two directions of the port -/

/-- `t` has the parameters, the words at the port and the responses of `s`. -/
structure SameHostSide (s t : State) : Prop where
  cfg : t.cfg = s.cfg
  cmd : t.cmd = s.cmd
  resp : t.resp = s.resp

theorem SameHostSide.refl (s : State) : SameHostSide s s := ⟨rfl, rfl, rfl⟩

theorem SameHostSide.trans {s t u : State} (h : SameHostSide s t) (h' : SameHostSide t u) : SameHostSide s u :=
  ⟨h'.cfg.trans h.cfg, h'.cmd.trans h.cmd, h'.resp.trans h.resp⟩

theorem SameButPorts.sameHostSide {s t : State} (h : SameButPorts s t) : SameHostSide s t := ⟨h.cfg, h.cmd, h.resp⟩

theorem sameHostSide_mapUnp (f : Unp → Unp) (s : State) : SameHostSide s (s.mapUnp f) := ⟨rfl, rfl, rfl⟩

theorem sameHostSide_mapMix (f : Mix → Mix) (s : State) : SameHostSide s (s.mapMix f) := ⟨rfl, rfl, rfl⟩

theorem sameHostSide_mapPort (i : Nat) (f : Port → Port) (s : State) : SameHostSide s (s.mapPort i f) := ⟨rfl, rfl, rfl⟩

theorem sameHostSide_mapPorts (f : Port → Port) (s : State) : SameHostSide s (s.mapPorts f) := ⟨rfl, rfl, rfl⟩

theorem tickSteps_sameHostSide (now : BitVec 64) (s : State) : SameHostSide s (tickSteps now s) := by
  obtain ⟨_, frame⟩ := tickSteps_frame now s
  exact (sameHostSide_mapMix ..).trans frame.sameHostSide

/-- A frame's output changes the reassembler and the fault register alone. -/
theorem outputFrame_sameHostSide (s : State) : SameHostSide s (outputFrame s).1 := by
  by_cases h : s.unp.rq = []
  · rw [outputFrame_of_empty h]; exact .refl s
  · obtain ⟨_, _, _, _, _, ⟨_, queued⟩ | ⟨_, dropped⟩⟩ := outputFrame_of_nonempty h
    · rw [queued]; exact ⟨rfl, rfl, rfl⟩
    · rw [dropped]; exact ⟨rfl, rfl, rfl⟩

theorem tsFlush_sameHostSide (ts : BitVec 32) (s : State) : SameHostSide s (tsFlush ts s).1 := by
  unfold tsFlush
  split
  · exact .refl s
  · split
    · exact (sameHostSide_mapUnp ..).trans (outputFrame_sameHostSide _)
    · exact .refl s

theorem markerOutput_sameHostSide (m : Bool) (s : State) : SameHostSide s (markerOutput m s).1 := by
  cases m with
  | false => exact .refl s
  | true => exact (sameHostSide_mapUnp ..).trans (outputFrame_sameHostSide _)

theorem packetSteps_sameHostSide (seq : BitVec 16) (ts : BitVec 32) (m : Bool) (p : Bytes) (s : State) :
    SameHostSide s (packetSteps seq ts m p s).1 :=
  ((tsFlush_sameHostSide ts s).trans (sameHostSide_mapUnp ..)).trans (markerOutput_sameHostSide m _)

/-! ### How a command ends -/

/-- The two ways a command run in `s` ends: an error code raised in `s` itself, or `OK` given after work that left the
parameters and the port alone (00_scope.md R11). -/
inductive Ends (s : State) : Outcome → Prop where
  | raise {code : RespCode} (hcode : code ≠ .ok) : Ends s (raise code s)
  | finish {t : State} (value : Word) (payload : Bytes) (ht : SameHostSide s t) : Ends s (finish value payload t)

/-- A command that checks something first ends if both its branches do. -/
theorem Ends.ite {s : State} {c : Prop} [Decidable c] {x y : Outcome} (hx : Ends s x) (hy : Ends s y) :
    Ends s (if c then x else y) := by
  split
  · exact hx
  · exact hy

theorem Ends.withPort {s : State} {run : Nat → Outcome} (port : Byte) (h : ∀ p, Ends s (run p)) :
    Ends s (withPort port s run) :=
  .ite (h _) (.raise (by decide))

theorem injectPs_ends (k : PsKind) (p : Bytes) (s : State) : Ends s (injectPs k p s) :=
  .ite (.raise (by decide)) (.finish _ _ (sameHostSide_mapUnp ..))

theorem execUnpPacket_ends (seq : BitVec 16) (ts : BitVec 32) (m : Bool) (p : Bytes) (s : State) :
    Ends s (execUnpPacket seq ts m p s) :=
  .ite (.raise (by decide)) (.finish _ _ (packetSteps_sameHostSide seq ts m p s))

theorem execUnpPop_ends (s : State) : Ends s (execUnpPop s) := by
  unfold execUnpPop
  split
  · exact .raise (by decide)
  · exact .finish _ _ (sameHostSide_mapUnp ..)

theorem execMixPreprocess_ends (s : State) : Ends s (execMixPreprocess s) :=
  .ite (.raise (by decide)) (.finish _ _ ((sameHostSide_mapMix ..).trans (sameHostSide_mapPorts ..)))

theorem execMixTick_ends (now : BitVec 64) (s : State) : Ends s (execMixTick now s) :=
  .ite (.raise (by decide)) (.ite (.raise (by decide)) (.finish _ _ (tickSteps_sameHostSide now s)))

theorem execMixPostprocess_ends (s : State) : Ends s (execMixPostprocess s) :=
  .ite (.raise (by decide)) (.finish _ _ ((sameHostSide_mapMix ..).trans (sameHostSide_mapPorts ..)))

theorem execMixPush_ends (port : Byte) (d : Bytes) (s : State) : Ends s (execMixPush port d s) :=
  .withPort port fun _ => .ite (.finish _ _ (sameHostSide_mapPort ..)) (.raise (by decide))

theorem execMixPop_ends (port : Byte) (s : State) : Ends s (execMixPop port s) := by
  refine .withPort port fun p => ?_
  split
  · exact .raise (by decide)
  · exact .finish _ _ (sameHostSide_mapPort ..)

/-- Every command ends, in one of the two ways. -/
theorem exec_ends (i : Instr) (s : State) : Ends s (exec i s) := by
  cases i with
  | unpPacket seq ts m p => exact execUnpPacket_ends seq ts m p s
  | unpSetSps p => exact injectPs_ends .sps p s
  | unpSetPps p => exact injectPs_ends .pps p s
  | unpReset => exact .finish _ _ (sameHostSide_mapUnp ..)
  | unpPop => exact execUnpPop_ends s
  | mixPreprocess => exact execMixPreprocess_ends s
  | mixTick now => exact execMixTick_ends now s
  | mixPostprocess => exact execMixPostprocess_ends s
  | mixSetRate r => exact .ite (.raise (by decide)) (.finish _ _ (sameHostSide_mapMix ..))
  | mixGetRate => exact .finish _ _ (.refl s)
  | mixSetNch n => exact .ite (.raise (by decide)) (.finish _ _ (sameHostSide_mapMix ..))
  | mixGetNch => exact .finish _ _ (.refl s)
  | mixSetConf en => exact .finish _ _ (sameHostSide_mapMix ..)
  | mixSetActive port en => exact .withPort port fun _ => .finish _ _ (sameHostSide_mapPort ..)
  | mixSetOutput port en => exact .withPort port fun _ => .finish _ _ (sameHostSide_mapPort ..)
  | mixSetMaster port => exact .withPort port fun _ => .finish _ _ (.refl s)
  | mixPush port d => exact execMixPush_ends port d s
  | mixPop port => exact execMixPop_ends port s
  | sysFault => exact .finish _ _ (.refl s)

/-- Either ending gives one response and leaves the rest of the host's side. -/
theorem Ends.one_response {s : State} {o : Outcome} (h : Ends s o) :
    ∃ t r, o = .next t ∧ t.cmd = s.cmd ∧ t.cfg = s.cfg ∧ t.resp = s.resp ++ [r] := by
  cases h with
  | raise hcode => exact ⟨_, _, rfl, rfl, rfl, rfl⟩
  | finish value payload ht => exact ⟨_, ⟨.ok, value, payload⟩, rfl, ht.cmd, ht.cfg, by simp [ht.resp]⟩

/-- Settles O8: the command `step` runs, or the `ILLEGAL` it raises, ends in one of the two ways. -/
theorem everyCommandGivesOneResponse : Obligations.EveryCommandGivesOneResponse := by
  unfold Obligations.EveryCommandGivesOneResponse
  refine fun s => ⟨fun i rest h => ?_, fun e rest h => ?_⟩
  · rw [step_of_decoded h]
    exact (exec_ends i { s with cmd := rest }).one_response
  · rw [step_of_illegal h]
    exact (Ends.raise (s := { s with cmd := rest }) (by decide)).one_response

/-! ### The tick sizes (00_scope.md R7) -/

/-- A rate of `8000 * k` gives `8 * k` samples per channel and millisecond. -/
theorem tickSamples_of_rate {s : State} {k : Nat} (hk : s.mix.runRate.toNat = 8000 * k) :
    s.tickSamples = 8 * (k * s.mix.runNch.toNat * s.cfg.tickMs) := by
  have scaled : s.mix.runRate.toNat * s.mix.runNch.toNat * s.cfg.tickMs =
      1000 * (8 * (k * s.mix.runNch.toNat * s.cfg.tickMs)) := by rw [hk]; ring
  rw [State.tickSamples, scaled, Nat.mul_div_cancel_left _ (by decide)]

/-- Settles O60: `B` and `TH` are so defined, and the division in `N` is exact by `tickSamples_of_rate`. -/
theorem tickSizesAreExact : Obligations.TickSizesAreExact := by
  unfold Obligations.TickSizesAreExact
  refine fun s => ⟨rfl, rfl, fun ⟨k, hk⟩ => ?_⟩
  rw [tickSamples_of_rate hk, hk]
  exact ⟨by ring, Nat.mul_mod_right ..⟩

end Sys2Proof.Machine

/-! The state family (10_state.md): the values after the block reset, the invariants of the two units and of the fault
register that every step keeps, and who writes the summer's control registers. -/

namespace Sys2Proof.Machine

/-! ### After the block reset (10_state.md R58) -/

theorem fits_zero (cap : Option Nat) : fits cap 0 = true := fits_iff.mpr fun k _ => Nat.zero_le k

theorem paramSetInv_reset (k : PsKind) : ParamSetInv k ParamSet.reset := ⟨nofun, nofun, nofun⟩

theorem unpInv_reset (c : Config) : UnpInv c Unp.reset where
  rqNonempty := nofun
  idleEmpty := fun _ => rfl
  partialSized := nofun
  pendingBits := by decide
  spsInv := paramSetInv_reset .sps
  ppsInv := paramSetInv_reset .pps
  outqFits := fits_zero c.unpOutqCap
  outqNonempty := nofun

theorem portInv_reset (c : Config) (lastNow : Option (BitVec 64)) : PortInv c lastNow Port.reset :=
  ⟨fits_zero _, fits_zero _, fits_zero _, fun _ h => h.elim nofun nofun⟩

/-- The summer's reset values are legal under parameters that allow the reset rate and channel count. -/
theorem mixInv_reset {c : Config} (hrate : legalRate c 8000) (hnch : legalNch c 1) : MixInv c (Mix.reset c.nports) where
  portCount := List.length_replicate
  rateLegal := hrate
  nchLegal := hnch
  runRateLegal := hrate
  runNchLegal := hnch
  bypassIsPort := nofun
  stoppedClear := fun _ => ⟨rfl, fun _ hq => List.eq_of_mem_replicate hq ▸ ⟨rfl, rfl, rfl, rfl⟩⟩
  portsInv := fun _ hq => List.eq_of_mem_replicate hq ▸ portInv_reset c none

/-- Settles O17: the reset values meet each unit's invariant, and the standard parameters allow them. -/
theorem resetMeetsTheInvariants : Obligations.ResetMeetsTheInvariants where
  cfgLegal := show Config.standard.WF by decide
  faultLegal := show (0 : BitVec 32) &&& 0xFFFFFFF8 = 0 by decide
  unpInv := unpInv_reset Config.standard
  mixInv := mixInv_reset (c := Config.standard) (by unfold legalRate; decide) (by unfold legalNch; decide)

/-- Settles O18: the block reset and `State.reset` give both units and the fault register their reset values. -/
theorem blockResetValues : Obligations.BlockResetValues := by
  unfold Obligations.BlockResetValues
  intro s t h
  obtain ⟨hfault, hunp, hmix⟩ : t.fault = 0 ∧ t.unp = Unp.reset ∧ t.mix = Mix.reset t.cfg.nports := by
    rcases h with rfl | rfl <;> exact ⟨rfl, rfl, rfl⟩
  rw [hunp, hmix]
  exact ⟨hfault, rfl, rfl, rfl, rfl, rfl, rfl, rfl, rfl, rfl, rfl, rfl, rfl, rfl, rfl, rfl, rfl, rfl, rfl, rfl, rfl, rfl,
    rfl, rfl, List.length_replicate,
    fun _ hq => List.eq_of_mem_replicate hq ▸ ⟨rfl, rfl, rfl, rfl, rfl, rfl, rfl, rfl⟩, fun ht => ht ▸ rfl⟩

/-! ### Properties a command ends with -/

/-- The command answered once, and `P` held of the state before that answer. -/
def EndsIn (P : State → Prop) (o : Outcome) : Prop := ∃ t r, P t ∧ o = .next (t.respond r)

section
variable {P Q : State → Prop} {s : State}

theorem endsIn_finish (value : Word) (payload : Bytes) (h : P s) : EndsIn P (finish value payload s) :=
  ⟨s, _, h, rfl⟩

theorem endsIn_raise (code : RespCode) (h : P s) : EndsIn P (raise code s) := ⟨s, _, h, rfl⟩

theorem EndsIn.mono {o : Outcome} (h : EndsIn P o) (hPQ : ∀ t, P t → Q t) : EndsIn Q o := by
  obtain ⟨t, r, ht, ho⟩ := h
  exact ⟨t, r, hPQ t ht, ho⟩

theorem EndsIn.exists_next {o : Outcome} (h : EndsIn P o) (hresp : ∀ t r, P t → P (t.respond r)) :
    ∃ t, o = .next t ∧ P t := by
  obtain ⟨t, r, ht, ho⟩ := h
  exact ⟨t.respond r, ho, hresp t r ht⟩

theorem EndsIn.ite {c : Prop} [Decidable c] {x y : Outcome} (hx : c → EndsIn P x) (hy : ¬ c → EndsIn P y) :
    EndsIn P (if c then x else y) := by
  split
  · next h => exact hx h
  · next h => exact hy h

/-- A per-port command: the port is illegal, or its effect is what matters. -/
theorem EndsIn.withPort {run : Nat → Outcome} (port : Byte) (hs : P s) (h : ∀ p, EndsIn P (run p)) :
    EndsIn P (withPort port s run) :=
  .ite (fun _ => h _) fun _ => endsIn_raise _ hs

/-- A property of the registers that every command keeps is kept by every step. -/
theorem step_keeps (hcmd : ∀ s ws, P s → P { s with cmd := ws }) (hresp : ∀ s r, P s → P (s.respond r))
    (hexec : ∀ i s, P s → EndsIn P (exec i s)) {t : State} (hs : P s) (h : step s = .next t) : P t := by
  cases hf : fetch s.cmd with
  | wait =>
    rw [step_of_wait hf] at h
    cases h
    exact hs
  | illegal e rest =>
    rw [step_of_illegal hf] at h
    cases h
    exact hresp _ _ (hcmd s rest hs)
  | decoded i rest =>
    rw [step_of_decoded hf] at h
    obtain ⟨u, r, hu, ho⟩ := hexec i _ (hcmd s rest hs)
    cases ho.symm.trans h
    exact hresp u r hu

end

/-! ### The reassembler's invariant (10_state.md R25 to R34): its registers -/

section
variable {c : Config} {u : Unp}

theorem UnpInv.ps (h : UnpInv c u) (k : PsKind) : ParamSetInv k (u.ps k) := by
  cases k
  · exact h.spsInv
  · exact h.ppsInv

theorem UnpInv.setPs (h : UnpInv c u) {k : PsKind} {r : ParamSet} (hr : ParamSetInv k r) : UnpInv c (u.setPs k r) := by
  cases k
  · exact { h with spsInv := hr }
  · exact { h with ppsInv := hr }

theorem UnpInv.accSet (h : UnpInv c u) {bits : Status} (hb : bits &&& 0xE5 = 0) : UnpInv c (accSet bits u) :=
  { h with
    pendingBits := by
      show (u.acc ||| bits) &&& 0xE5 = 0
      rw [BitVec.and_comm, BitVec.and_or_distrib_left, BitVec.and_comm, h.pendingBits, BitVec.and_comm, hb]
      decide }

/-- A bit that may be pending may be raised or not. -/
theorem UnpInv.accSet_flagIf (h : UnpInv c u) (b : Bool) {f : Status} (hf : f &&& 0xE5 = 0) :
    UnpInv c (Machine.accSet (flagIf b f) u) :=
  h.accSet (by
    cases b with
    | false => exact BitVec.zero_and
    | true => exact hf)

theorem UnpInv.aggReset (h : UnpInv c u) : UnpInv c (aggReset u) :=
  { h with idleEmpty := fun _ => rfl, partialSized := nofun }

theorem UnpInv.aggDrop (h : UnpInv c u) : UnpInv c (aggDrop u) := by
  unfold Machine.aggDrop
  split
  · exact h.aggReset
  · exact h

theorem UnpInv.dropPartial (h : UnpInv c u) : UnpInv c (dropPartial u) := by
  unfold Machine.dropPartial
  split
  · exact h.aggReset.accSet (by decide)
  · exact h

theorem UnpInv.seqCheck (h : UnpInv c u) (seq : BitVec 16) : UnpInv c (seqCheck seq u) := by
  rw [seqCheck_eq]
  exact { h.accSet_flagIf (isGap seq u) (f := frameCorrupted) (by decide) with }

/-! ### Parameter sets and stored NALUs -/

theorem psNews_pending (c : Config) (k : PsKind) (last : Option Bytes) (n : Bytes) : psNews c k last n &&& 0xE5 = 0 := by
  rw [psNews_eq]
  split
  · decide
  · cases k <;> decide

theorem UnpInv.psNote (h : UnpInv c u) {k : PsKind} {n : Bytes} (hn : n ≠ []) (hk : nalType n = psType k) :
    UnpInv c (psNote c k n u) :=
  have noted : ParamSetInv k { u.ps k with last := some n } :=
    { h.ps k with lastTyped := fun _ hm => Option.some.inj hm ▸ ⟨hn, hk⟩ }
  (h.setPs noted).accSet (psNews_pending ..)

theorem UnpInv.psStore (h : UnpInv c u) {k : PsKind} {n : Bytes} (hn : n ≠ []) (hk : nalType n = psType k) :
    UnpInv c (psStore c k n u) :=
  have noted := h.psNote hn hk
  noted.setPs ⟨nofun, fun _ hm => Option.some.inj hm ▸ ⟨hn, hk⟩, (noted.ps k).lastTyped⟩

theorem UnpInv.appendRq (h : UnpInv c u) {n : Bytes} (hn : n ≠ []) : UnpInv c { u with rq := u.rq ++ [n] } :=
  { h with
    rqNonempty := fun m hm => by
      rcases List.mem_append.mp hm with hm | hm
      · exact h.rqNonempty m hm
      · exact List.mem_singleton.mp hm ▸ hn }

/-- Storing a NALU with a header byte; a parameter set is filed under its own kind. -/
theorem UnpInv.storeNal (h : UnpInv c u) {n : Bytes} (hn : n ≠ []) : UnpInv c (storeNal c n u) := by
  by_cases hs : nalType n = typeSps
  · rw [storeNal_ps (k := .sps) hs]
    exact (h.psStore (k := .sps) hn hs).appendRq hn
  · by_cases hp : nalType n = typePps
    · rw [storeNal_ps (k := .pps) hp]
      exact (h.psStore (k := .pps) hn hp).appendRq hn
    · rw [storeNal_plain hs hp]
      exact h.appendRq hn

theorem UnpInv.foldl_storeNal (h : UnpInv c u) {ns : List Bytes} (hns : ∀ n ∈ ns, n ≠ []) :
    UnpInv c (ns.foldl (fun w n => Machine.storeNal c n w) u) := by
  induction ns generalizing u with
  | nil => exact h
  | cons n ns ih => exact ih (h.storeNal (hns n (by simp))) fun m hm => hns m (by simp [hm])

/-! ### Payloads -/

/-- What the aggregator may answer: registers as the spec says, and no empty NALU. -/
def AggResult.Legal (c : Config) (r : AggResult) : Prop := UnpInv c r.unp ∧ ∀ n, r.done = some n → n ≠ []

theorem UnpInv.aggStart (h : UnpInv c u) (ind fh : Byte) (frag : Bytes) : (aggStart c.maxNalu ind fh frag u).Legal c := by
  have started (hsize : (fuNalHeader ind fh :: frag).length ≤ c.maxNalu) :
      UnpInv c { u with aggActive := true, aggBuf := fuNalHeader ind fh :: frag } :=
    { h with idleEmpty := nofun, partialSized := fun _ => ⟨by simp, hsize⟩ }
  unfold Machine.aggStart
  dsimp only
  split
  · exact ⟨{ h with idleEmpty := fun _ => rfl, partialSized := nofun }, nofun⟩
  · next hsize => exact ⟨started (by simpa [sizeOver] using hsize), nofun⟩

/-- A fragment of a partial NALU; the NALU it completes has the header byte of the partial one. -/
theorem UnpInv.aggContinue (h : UnpInv c u) (hactive : u.aggActive = true) (last : Bool) (frag : Bytes) :
    (aggContinue c.maxNalu last frag u).Legal c := by
  have grown : u.aggBuf ++ frag ≠ [] := by simp [(h.partialSized hactive).1]
  have reset : UnpInv c { u with aggActive := false, aggBuf := [] } := h.aggReset
  unfold Machine.aggContinue
  dsimp only
  split
  · exact ⟨reset, nofun⟩
  · next hsize =>
    split
    · exact ⟨reset, fun _ hn => Option.some.inj hn ▸ grown⟩
    · refine ⟨{ h with idleEmpty := ?_, partialSized := fun _ => ⟨grown, by simpa [sizeOver] using hsize⟩ }, nofun⟩
      exact fun hidle => absurd hidle (by simp [hactive])

theorem UnpInv.aggFeed (h : UnpInv c u) (p : Bytes) : (aggFeed c.maxNalu p u).Legal c := by
  unfold Machine.aggFeed
  split
  · split
    · exact ⟨h.aggDrop, nofun⟩
    · split
      · exact h.aggStart ..
      · split
        · exact ⟨h, nofun⟩
        · next hactive =>
          split
          · exact ⟨h.aggReset, nofun⟩
          · exact h.aggContinue (by simpa using hactive) ..
  · exact ⟨h.aggDrop, nofun⟩

theorem AggResult.Legal.takeAgg {r : AggResult} (h : r.Legal c) : UnpInv c (takeAgg c r) := by
  obtain ⟨hunp, hdone⟩ := h
  have marked : UnpInv c (accSet (flagIf r.corrupt frameCorrupted) r.unp) := hunp.accSet_flagIf _ (by decide)
  unfold Machine.takeAgg
  dsimp only
  split
  · exact marked
  · next n hn => exact marked.storeNal (hdone n hn)

/-- A unit of an aggregate has a size of at least 1 (40_fua_stapa.md R172). -/
theorem stapWalk_nonempty (fuel : Nat) (body : Bytes) : ∀ n ∈ (stapWalk fuel body).1, n ≠ [] := by
  fun_induction stapWalk fuel body with
  | case1 | case2 | case3 | case4 => simp
  | case5 fuel hi lo rest size hsize more ih =>
    rw [not_or, Nat.not_lt] at hsize
    obtain ⟨hpos, hle⟩ := hsize
    intro n hn
    rcases List.mem_cons.mp hn with rfl | hn
    · exact List.ne_nil_of_length_pos (by rw [List.length_take]; omega)
    · exact ih n hn

theorem stapSplit_nonempty (p : Bytes) : ∀ n ∈ (stapSplit p).1, n ≠ [] := by
  unfold stapSplit
  split
  · exact nofun
  · exact stapWalk_nonempty _ _

theorem UnpInv.dispatchPayload (h : UnpInv c u) (p : Bytes) : UnpInv c (dispatchPayload c p u) := by
  unfold Machine.dispatchPayload
  split
  · exact h.aggDrop.accSet (by decide)
  · next hp =>
    split
    · exact (h.aggFeed p).takeAgg
    · split
      · exact (h.dropPartial.accSet_flagIf _ (by decide)).foldl_storeNal (stapSplit_nonempty p)
      · exact h.dropPartial.storeNal hp

/-! ### Frame output -/

/-- A pending set is delivered as the NALU it is, and noted under its kind (41_unpacker.md R213). -/
theorem UnpInv.oobDeliver (h : UnpInv c u) (k : PsKind) :
    UnpInv c (oobDeliver c k u).2 ∧ ∀ n ∈ (oobDeliver c k u).1, n ≠ [] := by
  have cleared : UnpInv c (u.setPs k { u.ps k with oobPending := false }) := h.setPs { h.ps k with pendingIsLive := nofun }
  unfold Machine.oobDeliver
  split
  · dsimp only
    split
    · next n hlive =>
      obtain ⟨hn, hk⟩ := (h.ps k).liveTyped n hlive
      exact ⟨cleared.psNote hn hk, fun m hm => List.mem_singleton.mp hm ▸ hn⟩
    · exact ⟨cleared, nofun⟩
  · exact ⟨h, nofun⟩

theorem UnpInv.oobPrefix (h : UnpInv c u) : UnpInv c (oobPrefix c u).2 ∧ ∀ n ∈ (oobPrefix c u).1, n ≠ [] := by
  obtain ⟨hsps, hspsNalus⟩ := h.oobDeliver .sps
  obtain ⟨hpps, hppsNalus⟩ := hsps.oobDeliver .pps
  exact ⟨hpps, fun n hn => (List.mem_append.mp hn).elim (hspsNalus n) (hppsNalus n)⟩

end

theorem nalu_mem_of_mem_frameEntries {st : Status} {frame : List Bytes} {e : OutEntry} (he : e ∈ frameEntries st frame) :
    e.nalu ∈ frame := by
  fun_induction frameEntries st frame with
  | case1 => exact absurd he nofun
  | case2 n => simp [List.mem_singleton.mp he]
  | case3 n more _ ih =>
    rcases List.mem_cons.mp he with rfl | he
    · exact List.mem_cons_self
    · exact List.mem_cons_of_mem _ (ih he)

/-! ### The work of a packet -/

theorem State.unbounded_congr {s t : State} (h : t.cfg = s.cfg) : t.unbounded ↔ s.unbounded := by
  simp only [State.unbounded, h]

/-- What every part of a packet's work keeps: the parameters, the summer, `FAULT` where nothing is bounded, and the
reassembler's invariant. -/
structure PacketWork (s t : State) : Prop where
  cfg : t.cfg = s.cfg
  mix : t.mix = s.mix
  fault : s.unbounded → t.fault = s.fault
  unpInv : UnpInv s.cfg s.unp → UnpInv s.cfg t.unp

theorem PacketWork.refl (s : State) : PacketWork s s := ⟨rfl, rfl, fun _ => rfl, id⟩

theorem PacketWork.trans {s t u : State} (h : PacketWork s t) (h' : PacketWork t u) : PacketWork s u where
  cfg := h'.cfg.trans h.cfg
  mix := h'.mix.trans h.mix
  fault := fun hs => (h'.fault ((State.unbounded_congr h.cfg).mpr hs)).trans (h.fault hs)
  unpInv := fun hs => h.cfg ▸ h'.unpInv (h.cfg.symm ▸ h.unpInv hs)

theorem packetWork_mapUnp {s : State} {f : Unp → Unp} (hf : UnpInv s.cfg s.unp → UnpInv s.cfg (f s.unp)) :
    PacketWork s (s.mapUnp f) :=
  ⟨rfl, rfl, fun _ => rfl, hf⟩

/-- A frame's entries are NALUs with a header byte, and enter the queue only within its capacity. -/
theorem outputFrame_work (s : State) : PacketWork s (outputFrame s).1 := by
  by_cases hrq : s.unp.rq = []
  · rw [outputFrame_of_empty hrq]
    exact .refl s
  obtain ⟨pre, u, st, hpre, -, hcases⟩ := outputFrame_of_nonempty hrq
  have emptied (hs : UnpInv s.cfg s.unp) : UnpInv s.cfg { u with rq := [], acc := 0 } ∧ ∀ n ∈ pre ++ s.unp.rq, n ≠ [] := by
    have delivered := hs.oobPrefix
    rw [hpre] at delivered
    obtain ⟨hu, hnalus⟩ := delivered
    exact ⟨{ hu with rqNonempty := nofun, pendingBits := BitVec.zero_and },
      fun n hn => (List.mem_append.mp hn).elim (hnalus n) (hs.rqNonempty n)⟩
  rcases hcases with ⟨hfits, queued⟩ | ⟨hfull, dropped⟩
  · rw [queued]
    refine ⟨rfl, rfl, fun _ => rfl, fun hs => ?_⟩
    obtain ⟨hu, hframe⟩ := emptied hs
    refine { hu with outqFits := by simpa using hfits, outqNonempty := fun e he => ?_ }
    rcases List.mem_append.mp he with he | he
    · exact hs.outqNonempty e he
    · exact hframe _ (nalu_mem_of_mem_frameEntries he)
  · rw [dropped]
    refine ⟨rfl, rfl, fun hs => ?_, fun hs => (emptied hs).1⟩
    obtain ⟨hcap, -⟩ := hs
    simp [hcap] at hfull

theorem tsFlush_work (ts : BitVec 32) (s : State) : PacketWork s (tsFlush ts s).1 := by
  unfold tsFlush
  split
  · exact .refl s
  · split
    · exact (packetWork_mapUnp UnpInv.dropPartial).trans (outputFrame_work _)
    · exact .refl s

theorem markerOutput_work (m : Bool) (s : State) : PacketWork s (markerOutput m s).1 := by
  cases m with
  | false => exact .refl s
  | true => exact (packetWork_mapUnp UnpInv.dropPartial).trans (outputFrame_work _)

theorem packetSteps_work (seq : BitVec 16) (ts : BitVec 32) (m : Bool) (p : Bytes) (s : State) :
    PacketWork s (packetSteps seq ts m p s).1 := by
  have flushed := tsFlush_work ts s
  have stored : PacketWork (tsFlush ts s).1
      ((tsFlush ts s).1.mapUnp fun u => dispatchPayload s.cfg p (seqCheck seq { u with lastTs := some ts })) := by
    refine packetWork_mapUnp fun h => ?_
    rw [flushed.cfg] at h ⊢
    have timed : UnpInv s.cfg { (tsFlush ts s).1.unp with lastTs := some ts } := { h with }
    exact (timed.seqCheck seq).dispatchPayload p
  exact (flushed.trans stored).trans (markerOutput_work m _)

/-! ### The other reassembler commands -/

theorem injectPs_work (k : PsKind) (p : Bytes) (s : State) : EndsIn (PacketWork s) (injectPs k p s) := by
  refine .ite (fun _ => endsIn_raise _ (.refl s)) fun hp => endsIn_finish _ _ (packetWork_mapUnp fun h => ?_)
  rw [not_or, not_or, not_not] at hp
  obtain ⟨hne, htype, -⟩ := hp
  exact h.setPs ⟨fun _ => ⟨rfl, rfl⟩, fun _ hn => Option.some.inj hn ▸ ⟨hne, htype⟩, (h.ps k).lastTyped⟩

theorem execUnpReset_work (s : State) : EndsIn (PacketWork s) (execUnpReset s) :=
  endsIn_finish _ _ (packetWork_mapUnp fun h =>
    { h.aggReset with rqNonempty := nofun, pendingBits := BitVec.zero_and })

theorem execUnpPop_work (s : State) : EndsIn (PacketWork s) (execUnpPop s) := by
  unfold execUnpPop
  split
  · exact endsIn_raise _ (.refl s)
  · next e more hq =>
    refine endsIn_finish _ _ (packetWork_mapUnp fun h => { h with outqFits := ?_, outqNonempty := fun x hx => ?_ })
    · exact fits_of_le h.outqFits (by simp [hq])
    · exact h.outqNonempty x (by simp [hq, hx])

/-- Every command that is not the summer's works as a packet does. -/
theorem exec_work_of_not_mix {i : Instr} (hi : unitOf i ≠ .mix) (s : State) : EndsIn (PacketWork s) (exec i s) := by
  cases i with
  | unpPacket seq ts m p =>
    exact .ite (fun _ => endsIn_raise _ (.refl s)) fun _ => endsIn_finish _ _ (packetSteps_work seq ts m p s)
  | unpSetSps p => exact injectPs_work .sps p s
  | unpSetPps p => exact injectPs_work .pps p s
  | unpReset => exact execUnpReset_work s
  | unpPop => exact execUnpPop_work s
  | sysFault => exact endsIn_finish _ _ (.refl s)
  | _ => exact absurd rfl hi

/-! ### The work of a tick -/

/-- What every part of a tick's work at time `now` does to a port: its switches stay, its input queue stays or is emptied,
its output queue and bufferizer stay within their capacities, and its times stay or become `now`. -/
structure PortWork (c : Config) (now : BitVec 64) (q q' : Port) : Prop where
  active : q'.active = q.active
  outEn : q'.outEn = q.outEn
  inq : q'.inq = q.inq ∨ q'.inq = []
  outqFits : fits c.mixOutqCap q.outq.length = true → fits c.mixOutqCap q'.outq.length = true
  bufFits : fits c.mixBufCap q.buf.length = true → fits c.mixBufCap q'.buf.length = true
  lastSeen : q'.lastSeen = q.lastSeen ∨ q'.lastSeen = some now
  lastFc : q'.lastFc = q.lastFc ∨ q'.lastFc = some now

/-- What is kept or set, and then again kept or set, is kept or set. -/
theorem kept_or_set_trans {α : Type} {x y z w : α} (h : y = x ∨ y = w) (h' : z = y ∨ z = w) : z = x ∨ z = w := by
  rcases h' with rfl | h'
  · exact h
  · exact .inr h'

section
variable {c : Config} {now : BitVec 64}

theorem PortWork.refl (q : Port) : PortWork c now q q := ⟨rfl, rfl, .inl rfl, id, id, .inl rfl, .inl rfl⟩

theorem PortWork.trans {q q' q'' : Port} (h : PortWork c now q q') (h' : PortWork c now q' q'') : PortWork c now q q'' where
  active := h'.active.trans h.active
  outEn := h'.outEn.trans h.outEn
  inq := kept_or_set_trans h.inq h'.inq
  outqFits := h'.outqFits ∘ h.outqFits
  bufFits := h'.bufFits ∘ h.bufFits
  lastSeen := kept_or_set_trans h.lastSeen h'.lastSeen
  lastFc := kept_or_set_trans h.lastFc h'.lastFc

theorem portWork_emptyInq (q : Port) : PortWork c now q { q with inq := [] } :=
  { PortWork.refl q with inq := .inr rfl }

theorem portWork_outq {q : Port} {out : List Bytes} (h : fits c.mixOutqCap out.length = true) :
    PortWork c now q { q with outq := out } :=
  { PortWork.refl q with outqFits := fun _ => h }

theorem portWork_buf {q : Port} {b : Bytes} (h : fits c.mixBufCap q.buf.length = true → fits c.mixBufCap b.length = true) :
    PortWork c now q { q with buf := b } :=
  { PortWork.refl q with bufFits := h }

theorem portWork_shorterBuf {q : Port} {b : Bytes} (h : b.length ≤ q.buf.length) : PortWork c now q { q with buf := b } :=
  portWork_buf fun hq => fits_of_le hq h

theorem discardIfMuted_work (q : Port) : PortWork c now q (discardIfMuted q) := by
  unfold discardIfMuted
  split
  · exact .refl q
  · exact portWork_emptyInq q

theorem noteSeen_work (q : Port) : PortWork c now q (noteSeen now q) := by
  unfold noteSeen
  split
  · exact { PortWork.refl q with lastSeen := .inr rfl }
  · exact .refl q

theorem sampleFullness_work (q : Port) : PortWork c now q (sampleFullness q) := { PortWork.refl q with }

/-- Flow control may drop bytes, never add any. -/
theorem flowControl_work (windowMs threshold nch : Nat) (q : Port) :
    PortWork c now q (flowControl windowMs threshold nch now q) := by
  have timed (b : Bytes) (m : Option Nat) (hb : b.length ≤ q.buf.length) :
      PortWork c now q { q with buf := b, minFull := m, lastFc := some now } :=
    { portWork_shorterBuf (c := c) (now := now) hb with lastFc := .inr rfl }
  unfold flowControl
  split
  · exact timed q.buf q.minFull (Nat.le_refl _)
  · split
    · refine timed _ none ?_
      split
      · exact Nat.le_refl _
      · split
        · rw [List.length_drop]
          exact Nat.sub_le ..
        · exact Nat.le_refl _
    · exact .refl q

end

/-- What every part of a tick's work at time `now` keeps: the parameters, `FAULT` where nothing is bounded, and of each port
what `PortWork` says. -/
structure TickWork (now : BitVec 64) (s t : State) : Prop where
  cfg : t.cfg = s.cfg
  fault : s.unbounded → t.fault = s.fault
  port : ∀ i, PortWork s.cfg now (s.port i) (t.port i)

section
variable {now : BitVec 64}

theorem TickWork.refl (s : State) : TickWork now s s := ⟨rfl, fun _ => rfl, fun _ => .refl _⟩

theorem TickWork.trans {s t u : State} (h : TickWork now s t) (h' : TickWork now t u) : TickWork now s u where
  cfg := h'.cfg.trans h.cfg
  fault := fun hs => (h'.fault ((State.unbounded_congr h.cfg).mpr hs)).trans (h.fault hs)
  port := fun i => (h.port i).trans (h.cfg ▸ h'.port i)

theorem tickWork_foldl {α : Type} {f : State → α → State} (h : ∀ s a, TickWork now s (f s a)) (xs : List α) (s : State) :
    TickWork now s (xs.foldl f s) := by
  induction xs generalizing s with
  | nil => exact .refl s
  | cons x xs ih => exact (h s x).trans (ih _)

theorem tickWork_mapMix {g : Mix → Mix} (hg : ∀ m, (g m).ports = m.ports) (s : State) : TickWork now s (s.mapMix g) :=
  ⟨rfl, fun _ => rfl, fun i => State.port_eq_of_ports (t := s.mapMix g) (hg s.mix) i ▸ .refl _⟩

theorem tickWork_setBypass (b : Option Nat) (s : State) : TickWork now s (s.mapMix fun m => { m with bypass := b }) :=
  tickWork_mapMix (g := fun m => { m with bypass := b }) (fun _ => rfl) s

theorem tickWork_mapPort {i : Nat} {f : Port → Port} {s : State} (hf : PortWork s.cfg now (s.port i) (f (s.port i))) :
    TickWork now s (s.mapPort i f) where
  cfg := rfl
  fault := fun _ => rfl
  port := fun j => by
    by_cases hj : j < s.mix.ports.length
    · rw [port_mapPort i j f s hj]
      split
      · next hij => exact hij ▸ hf
      · exact .refl _
    · have hj := Nat.le_of_not_lt hj
      rw [State.port_of_le hj, State.port_of_le (s := s.mapPort i f) (by simpa using hj)]
      exact .refl _

theorem tickWork_mapPorts {f : Port → Port} (hreset : f Port.reset = Port.reset) {s : State}
    (hf : ∀ q, PortWork s.cfg now q (f q)) : TickWork now s (s.mapPorts f) :=
  ⟨rfl, fun _ => rfl, fun i => State.port_mapPorts_of_reset i hreset ▸ hf _⟩

/-- A fault bit is only ever set where some capacity is bounded. -/
theorem tickWork_setFault {s : State} (bit : BitVec 32) (h : ¬ s.unbounded) : TickWork now s (s.setFault bit) :=
  ⟨rfl, fun hs => absurd hs h, fun _ => .refl _⟩

theorem pushOut_work (o : Nat) (buf : Bytes) (s : State) : TickWork now s (pushOut o buf s) := by
  rcases pushOut_cases o buf s with ⟨hfits, h⟩ | ⟨hfull, h⟩ <;> rw [h]
  · exact tickWork_mapPort (portWork_outq (by simpa using hfits))
  · refine tickWork_setFault _ fun ⟨_, _, hcap, _⟩ => ?_
    simp [hcap] at hfull

theorem forwardTo_work (pkts : List Bytes) (o : Nat) (s : State) : TickWork now s (forwardTo pkts s o) :=
  tickWork_foldl (fun w d => pushOut_work o d w) pkts s

theorem bypassTick_work (p : Nat) (s : State) : TickWork now s (bypassTick p s) := by
  have entered : TickWork now s (if s.mix.bypass = some p then s else s.mapPort p fun q => { q with buf := [] }) := by
    split
    · exact .refl s
    · exact tickWork_mapPort (portWork_shorterBuf (Nat.zero_le _))
  exact ((entered.trans (tickWork_setBypass (some p) _)).trans (tickWork_mapPort (portWork_emptyInq _))).trans
    (tickWork_foldl (fun w o => forwardTo_work _ o w) _ _)

/-- Bytes cut off to fit leave a bufferizer within its capacity. -/
theorem putBytes_work (i : Nat) (d : Bytes) (s : State) : TickWork now s (putBytes i d s) := by
  unfold putBytes
  dsimp only
  split
  · next hfits => exact tickWork_mapPort (portWork_buf fun _ => by simpa using hfits)
  · next hfull =>
    obtain ⟨cap, hcap, -⟩ := not_fits_iff.mp (by simpa using hfull)
    have bounded : ¬ s.unbounded := fun ⟨_, _, _, hnone⟩ => by simp [hcap] at hnone
    refine (tickWork_mapPort (portWork_buf fun hq => ?_)).trans (tickWork_setFault _ bounded)
    simp only [hcap, fits_some, decide_eq_true_eq, Option.getD_some, List.length_append, List.length_take] at hq ⊢
    omega

theorem drainInput_work (i : Nat) (s : State) : TickWork now s (drainInput i s) :=
  (tickWork_mapPort (portWork_emptyInq _)).trans (tickWork_foldl (fun w d => putBytes_work i d w) _ _)

theorem accumulate_work (i : Nat) (r : MixRun) : TickWork now r.st (accumulate i r).st := by
  unfold accumulate
  dsimp only
  split
  · exact tickWork_mapPort (portWork_shorterBuf (by rw [List.length_drop]; exact Nat.sub_le ..))
  · exact .refl _

theorem mixPort_work (r : MixRun) (i : Nat) : TickWork now r.st (mixPort now r i).st :=
  ((drainInput_work i r.st).trans (tickWork_mapPort (sampleFullness_work _))).trans
    ((accumulate_work i { r with st := (drainInput i r.st).mapPort i sampleFullness }).trans
      (tickWork_mapPort (flowControl_work ..)))

theorem foldl_mixPort_work (act : List Nat) (r : MixRun) : TickWork now r.st (act.foldl (mixPort now) r).st := by
  induction act generalizing r with
  | nil => exact .refl _
  | cons i act ih => exact (mixPort_work r i).trans (ih _)

theorem dispatchOutputs_work (r : MixRun) : TickWork now r.st (dispatchOutputs r) := by
  refine tickWork_foldl (fun w o => ?_) _ _
  split
  · exact pushOut_work ..
  · exact .refl _

theorem mixTick_work (act : List Nat) (s : State) : TickWork now s (mixTick act now s) :=
  ((tickWork_setBypass none s).trans (foldl_mixPort_work act ⟨_, _, _⟩)).trans (dispatchOutputs_work _)

theorem tickSteps_work (s : State) : TickWork now s (tickSteps now s) := by
  have timed : TickWork now s (s.mapMix fun m => { m with lastNow := some now }) :=
    tickWork_mapMix (g := fun m => { m with lastNow := some now }) (fun _ => rfl) s
  have seen : TickWork now s
      (((s.mapMix fun m => { m with lastNow := some now }).mapPorts discardIfMuted).mapPorts (noteSeen now)) :=
    (timed.trans (tickWork_mapPorts rfl discardIfMuted_work)).trans
      (tickWork_mapPorts rfl noteSeen_work)
  unfold tickSteps
  dsimp only
  split
  · exact seen.trans (tickWork_setBypass ..)
  · exact seen.trans (bypassTick_work ..)
  · exact seen.trans (mixTick_work ..)

end

/-- `MIX.POP` changes nothing, or takes the head off its port's output queue. -/
theorem execMixPop_endsIn {P : State → Prop} {s : State} (port : Byte) (hs : P s)
    (h : ∀ p d more, (s.port p).outq = d :: more → P (s.mapPort p fun q => { q with outq := more })) :
    EndsIn P (execMixPop port s) := by
  refine .withPort port hs fun p => ?_
  split
  · exact endsIn_raise _ hs
  · next d more hq => exact endsIn_finish _ _ (h p d more hq)

/-! ### What the summer's commands keep outside the summer -/

/-- The parameters, the reassembler, and `FAULT` where nothing is bounded. -/
structure MixWork (s t : State) : Prop where
  cfg : t.cfg = s.cfg
  unp : t.unp = s.unp
  fault : s.unbounded → t.fault = s.fault

theorem MixWork.refl (s : State) : MixWork s s := ⟨rfl, rfl, fun _ => rfl⟩

theorem tickSteps_mixWork (now : BitVec 64) (s : State) : MixWork s (tickSteps now s) := by
  obtain ⟨_, frame⟩ := tickSteps_frame now s
  exact ⟨frame.cfg, frame.unp, (tickSteps_work s).fault⟩

theorem exec_work_of_mix {i : Instr} (hi : unitOf i = .mix) (s : State) : EndsIn (MixWork s) (exec i s) := by
  have rejected (code : RespCode) : EndsIn (MixWork s) (raise code s) := endsIn_raise code (.refl s)
  have mixMapped (g : Mix → Mix) : MixWork s (s.mapMix g) := ⟨rfl, rfl, fun _ => rfl⟩
  have portMapped (p : Nat) (f : Port → Port) : MixWork s (s.mapPort p f) := mixMapped _
  cases i with
  | mixPreprocess => exact .ite (fun _ => rejected _) fun _ => endsIn_finish _ _ ⟨rfl, rfl, fun _ => rfl⟩
  | mixTick now =>
    exact .ite (fun _ => rejected _) fun _ => .ite (fun _ => rejected _) fun _ =>
      endsIn_finish _ _ (tickSteps_mixWork now s)
  | mixPostprocess => exact .ite (fun _ => rejected _) fun _ => endsIn_finish _ _ ⟨rfl, rfl, fun _ => rfl⟩
  | mixSetRate r => exact .ite (fun _ => rejected _) fun _ => endsIn_finish _ _ (mixMapped _)
  | mixGetRate => exact endsIn_finish _ _ (.refl s)
  | mixSetNch n => exact .ite (fun _ => rejected _) fun _ => endsIn_finish _ _ (mixMapped _)
  | mixGetNch => exact endsIn_finish _ _ (.refl s)
  | mixSetConf en => exact endsIn_finish _ _ (mixMapped _)
  | mixSetActive port en => exact .withPort port (.refl s) fun _ => endsIn_finish _ _ (portMapped ..)
  | mixSetOutput port en => exact .withPort port (.refl s) fun _ => endsIn_finish _ _ (portMapped ..)
  | mixSetMaster port => exact .withPort port (.refl s) fun _ => endsIn_finish _ _ (.refl s)
  | mixPush port d =>
    exact .withPort port (.refl s) fun p =>
      .ite (fun _ => endsIn_finish _ _ (portMapped p _)) fun _ => rejected _
  | mixPop port =>
    exact execMixPop_endsIn port (.refl s) fun p _ _ _ => portMapped p _
  | _ => cases hi

/-- Settles O15: a command of the reassembler keeps its invariant, and one of the summer does not touch it. -/
theorem stepKeepsReassemblerInvariant : Obligations.StepKeepsReassemblerInvariant := by
  unfold Obligations.StepKeepsReassemblerInvariant
  refine fun s t hs => step_keeps (P := fun w => UnpInv w.cfg w.unp) (fun _ _ h => h) (fun _ _ h => h) (fun i w hw => ?_) hs
  by_cases hi : unitOf i = .mix
  · exact (exec_work_of_mix hi w).mono fun u hu => by rw [hu.cfg, hu.unp]; exact hw
  · exact (exec_work_of_not_mix hi w).mono fun u hu => by rw [hu.cfg]; exact hu.unpInv hw

/-- Settles O11: with no capacity bounded, no part of a packet's or a tick's work sets a bit. -/
theorem noFaultBitWithoutACapacity : Obligations.NoFaultBitWithoutACapacity := by
  unfold Obligations.NoFaultBitWithoutACapacity
  intro s t hs hstep
  suffices t.unbounded ∧ t.fault = s.fault from this.2
  refine step_keeps (P := fun w => w.unbounded ∧ w.fault = s.fault) (fun _ _ h => h) (fun _ _ h => h)
    (fun i w ⟨hbound, hfault⟩ => ?_) ⟨hs, rfl⟩ hstep
  by_cases hi : unitOf i = .mix
  · exact (exec_work_of_mix hi w).mono fun u hu =>
      ⟨(State.unbounded_congr hu.cfg).mpr hbound, (hu.fault hbound).trans hfault⟩
  · exact (exec_work_of_not_mix hi w).mono fun u hu =>
      ⟨(State.unbounded_congr hu.cfg).mpr hbound, (hu.fault hbound).trans hfault⟩

/-! ### The summer's invariant (10_state.md R40 to R54) -/

theorem forall_ports_iff {P : Port → Prop} {s : State} :
    (∀ q ∈ s.mix.ports, P q) ↔ ∀ i, i < s.mix.ports.length → P (s.port i) := by
  refine ⟨fun h i hi => h _ (State.port_mem hi), fun h q hq => ?_⟩
  obtain ⟨i, hi, rfl⟩ := State.exists_port_of_mem hq
  exact h i hi

theorem forall_ports_mapPort {P : Port → Prop} {s : State} {i : Nat} {f : Port → Port} (h : ∀ q ∈ s.mix.ports, P q)
    (hf : P (s.port i) → P (f (s.port i))) : ∀ q ∈ (s.mapPort i f).mix.ports, P q := by
  rw [forall_ports_iff] at h ⊢
  intro j hj
  rw [length_ports_mapPort] at hj
  rw [port_mapPort i j f s hj]
  split
  · next hij =>
    subst hij
    exact hf (h i hj)
  · exact h j hj

theorem MixInv.mapPort {s : State} (h : MixInv s.cfg s.mix) {i : Nat} {f : Port → Port}
    (hinv : PortInv s.cfg s.mix.lastNow (s.port i) → PortInv s.cfg s.mix.lastNow (f (s.port i)))
    (hclear : ∀ q, channelClear q → channelClear (f q)) : MixInv s.cfg (s.mapPort i f).mix :=
  { h with
    portCount := (length_ports_mapPort i f s).trans h.portCount
    stoppedClear := fun hstopped =>
      have ⟨hbypass, hports⟩ := h.stoppedClear hstopped
      ⟨hbypass, forall_ports_mapPort hports (hclear _)⟩
    portsInv := forall_ports_mapPort h.portsInv hinv }

section
variable {c : Config} {lastNow : Option (BitVec 64)} {q : Port}

/-- No clause is about the switches. -/
theorem PortInv.switched (h : PortInv c lastNow q) (active outEn : Bool) :
    PortInv c lastNow { q with active := active, outEn := outEn } :=
  { h with }

/-- A cleared channel has no times, so it is legal whatever the last tick's time. -/
theorem PortInv.clearChannel (h : PortInv c lastNow q) (lastNow' : Option (BitVec 64)) :
    PortInv c lastNow' (clearChannel q) :=
  ⟨h.inqFits, h.outqFits, fits_zero _, fun _ ht => ht.elim nofun nofun⟩

theorem channelClear_clearChannel (q : Port) : channelClear (clearChannel q) := ⟨rfl, rfl, rfl, rfl⟩

/-- A tick's work at a time not before the last tick's: what is kept was in the past, what is set is set to `now`. -/
theorem PortInv.work {now : BitVec 64} {q' : Port} (h : PortInv c lastNow q) (w : PortWork c now q q')
    (hnow : ∀ t, lastNow = some t → t.toNat ≤ now.toNat) : PortInv c (some now) q' := by
  have past (t : BitVec 64) (ht : q.lastSeen = some t ∨ q.lastFc = some t) : t.toNat ≤ now.toNat := by
    obtain ⟨t', hlast, hle⟩ := h.timesPast t ht
    exact Nat.le_trans hle (hnow t' hlast)
  have present {t : BitVec 64} (ht : some now = some t) : t.toNat ≤ now.toNat := Option.some.inj ht ▸ Nat.le_refl _
  refine ⟨?_, w.outqFits h.outqFits, w.bufFits h.bufFits, fun t ht => ⟨now, rfl, ?_⟩⟩
  · rcases w.inq with hq | hq <;> rw [hq]
    · exact h.inqFits
    · exact fits_zero _
  · rcases ht with ht | ht
    · rcases w.lastSeen with hq | hq <;> rw [hq] at ht
      · exact past t (.inl ht)
      · exact present ht
    · rcases w.lastFc with hq | hq <;> rw [hq] at ht
      · exact past t (.inr ht)
      · exact present ht

end

theorem MixInv.preprocess {s : State} (h : MixInv s.cfg s.mix) : EndsIn (fun t => MixInv t.cfg t.mix) (execMixPreprocess s) :=
  .ite (fun _ => endsIn_raise _ h) fun _ => endsIn_finish _ _
    { portCount := List.length_map _ |>.trans h.portCount
      rateLegal := h.rateLegal
      nchLegal := h.nchLegal
      runRateLegal := h.rateLegal
      runNchLegal := h.nchLegal
      bypassIsPort := nofun
      stoppedClear := nofun
      portsInv := List.forall_mem_map.mpr fun q hq => (h.portsInv q hq).clearChannel none }

theorem MixInv.postprocess {s : State} (h : MixInv s.cfg s.mix) :
    EndsIn (fun t => MixInv t.cfg t.mix) (execMixPostprocess s) :=
  .ite (fun _ => endsIn_raise _ h) fun _ => endsIn_finish _ _
    { h with
      portCount := List.length_map _ |>.trans h.portCount
      bypassIsPort := nofun
      stoppedClear := fun _ => ⟨rfl, List.forall_mem_map.mpr fun q _ => channelClear_clearChannel q⟩
      portsInv := List.forall_mem_map.mpr fun q hq => (h.portsInv q hq).clearChannel _ }

/-- A tick goes into bypass only with a port it found active. -/
theorem tickSteps_bypass {now : BitVec 64} {s : State} {p : Nat} (h : (tickSteps now s).mix.bypass = some p) :
    p < s.cfg.nports := by
  unfold tickSteps at h
  dsimp only at h
  split at h
  · exact absurd h nofun
  · next p' hact =>
    rw [(bypassTick_frame ..).bypass] at h
    have hmem : p' ∈ activePorts now ((s.mapMix fun m => { m with lastNow := some now }).mapPorts discardIfMuted) := by
      simp [hact]
    rw [← Option.some.inj h]
    exact List.mem_range.mp (List.mem_filter.mp hmem).1
  · rw [(mixTick_frame ..).bypass] at h
    exact absurd h nofun

theorem le_of_timeGoesBack_eq_false {now : BitVec 64} {s : State} (h : timeGoesBack now s = false) (t : BitVec 64)
    (ht : s.mix.lastNow = some t) : t.toNat ≤ now.toNat := by
  simpa [timeGoesBack, ht] using h

theorem MixInv.tickSteps {now : BitVec 64} {s : State} (h : MixInv s.cfg s.mix) (hrunning : s.mix.running = true)
    (hnow : timeGoesBack now s = false) : MixInv s.cfg (tickSteps now s).mix := by
  obtain ⟨_, frame⟩ := tickSteps_frame now s
  have hlength : (Machine.tickSteps now s).mix.ports.length = s.mix.ports.length := frame.length
  have hlastNow : (Machine.tickSteps now s).mix.lastNow = some now := frame.lastNow
  exact
    { portCount := hlength.trans h.portCount
      rateLegal := frame.rate ▸ h.rateLegal
      nchLegal := frame.nch ▸ h.nchLegal
      runRateLegal := frame.runRate ▸ h.runRateLegal
      runNchLegal := frame.runNch ▸ h.runNchLegal
      bypassIsPort := fun _ hp => tickSteps_bypass hp
      stoppedClear := fun hstopped => absurd (frame.running.symm.trans hstopped) (by simp [hrunning])
      portsInv := by
        have hports := forall_ports_iff.mp h.portsInv
        rw [hlastNow, forall_ports_iff, hlength]
        exact fun i hi => (hports i hi).work ((tickSteps_work s).port i) (le_of_timeGoesBack_eq_false hnow) }

theorem MixInv.tick {s : State} (h : MixInv s.cfg s.mix) (now : BitVec 64) :
    EndsIn (fun t => MixInv t.cfg t.mix) (execMixTick now s) :=
  .ite (fun _ => endsIn_raise _ h) fun hrunning => .ite (fun _ => endsIn_raise _ h) fun hnow =>
    endsIn_finish _ _ ((tickSteps_mixWork now s).cfg.symm ▸ h.tickSteps (by simpa using hrunning) (by simpa using hnow))

theorem MixInv.setRate {s : State} (h : MixInv s.cfg s.mix) (r : BitVec 32) :
    EndsIn (fun t => MixInv t.cfg t.mix) (execMixSetRate r s) := by
  refine .ite (fun _ => endsIn_raise _ h) fun hr => endsIn_finish _ _ { h with rateLegal := ?_ }
  rwa [not_or, not_not] at hr

theorem MixInv.setNch {s : State} (h : MixInv s.cfg s.mix) (n : BitVec 16) :
    EndsIn (fun t => MixInv t.cfg t.mix) (execMixSetNch n s) := by
  refine .ite (fun _ => endsIn_raise _ h) fun hn => endsIn_finish _ _ { h with nchLegal := ?_ }
  rw [not_or, Nat.not_lt] at hn
  obtain ⟨hzero, hmax⟩ := hn
  exact ⟨Nat.pos_of_ne_zero fun hn => hzero (BitVec.eq_of_toNat_eq hn), hmax⟩

theorem MixInv.setActive {s : State} (h : MixInv s.cfg s.mix) (port : Byte) (en : Bool) :
    EndsIn (fun t => MixInv t.cfg t.mix) (execMixSetActive port en s) :=
  .withPort port h fun _ => endsIn_finish _ _
    (h.mapPort (f := fun q => { q with active := en }) (fun hq => hq.switched en _) fun _ => id)

theorem MixInv.setOutput {s : State} (h : MixInv s.cfg s.mix) (port : Byte) (en : Bool) :
    EndsIn (fun t => MixInv t.cfg t.mix) (execMixSetOutput port en s) :=
  .withPort port h fun _ => endsIn_finish _ _
    (h.mapPort (f := fun q => { q with outEn := en }) (fun hq => hq.switched _ en) fun _ => id)

theorem MixInv.push {s : State} (h : MixInv s.cfg s.mix) (port : Byte) (d : Bytes) :
    EndsIn (fun t => MixInv t.cfg t.mix) (execMixPush port d s) :=
  .withPort port h fun _ => .ite
    (fun hfits => endsIn_finish _ _ (h.mapPort (fun hq => { hq with inqFits := by simpa using hfits }) fun _ => id))
    fun _ => endsIn_raise _ h

theorem MixInv.pop {s : State} (h : MixInv s.cfg s.mix) (port : Byte) :
    EndsIn (fun t => MixInv t.cfg t.mix) (execMixPop port s) :=
  execMixPop_endsIn port h fun _ _ _ hout =>
    h.mapPort (fun hq => { hq with outqFits := fits_of_le hq.outqFits (by simp [hout]) }) fun _ => id

theorem MixInv.exec_of_mix {i : Instr} (hi : unitOf i = .mix) {s : State} (h : MixInv s.cfg s.mix) :
    EndsIn (fun t => MixInv t.cfg t.mix) (exec i s) := by
  cases i with
  | mixPreprocess => exact h.preprocess
  | mixTick now => exact h.tick now
  | mixPostprocess => exact h.postprocess
  | mixSetRate r => exact h.setRate r
  | mixGetRate => exact endsIn_finish _ _ h
  | mixSetNch n => exact h.setNch n
  | mixGetNch => exact endsIn_finish _ _ h
  | mixSetConf en => exact endsIn_finish _ _ { h with }
  | mixSetActive port en => exact h.setActive port en
  | mixSetOutput port en => exact h.setOutput port en
  | mixSetMaster port => exact .withPort port h fun _ => endsIn_finish _ _ h
  | mixPush port d => exact h.push port d
  | mixPop port => exact h.pop port
  | _ => cases hi

/-- Settles O16: a command of the summer keeps its invariant, and any other does not touch it. -/
theorem stepKeepsSummerInvariant : Obligations.StepKeepsSummerInvariant := by
  unfold Obligations.StepKeepsSummerInvariant
  refine fun s t hs => step_keeps (P := fun w => MixInv w.cfg w.mix) (fun _ _ h => h) (fun _ _ h => h) (fun i w hw => ?_) hs
  by_cases hi : unitOf i = .mix
  · exact hw.exec_of_mix hi
  · exact (exec_work_of_not_mix hi w).mono fun u hu => by rw [hu.cfg, hu.mix]; exact hw

/-! ### The writers of the summer's control registers (10_state.md R40 to R43, R46 to R48) -/

/-- `t` has the control registers and the port switches of `s`. -/
structure SameControls (s t : State) : Prop where
  rate : t.mix.rate = s.mix.rate
  nch : t.mix.nch = s.mix.nch
  conf : t.mix.conf = s.mix.conf
  running : t.mix.running = s.mix.running
  runRate : t.mix.runRate = s.mix.runRate
  runNch : t.mix.runNch = s.mix.runNch
  active : ∀ p, (t.port p).active = (s.port p).active
  outEn : ∀ p, (t.port p).outEn = (s.port p).outEn

/-- `t` has those of them that the command `i` does not write. -/
structure OthersControlsKept (i : Instr) (s t : State) : Prop where
  rate : (∀ r, i ≠ .mixSetRate r) → t.mix.rate = s.mix.rate
  nch : (∀ n, i ≠ .mixSetNch n) → t.mix.nch = s.mix.nch
  conf : (∀ en, i ≠ .mixSetConf en) → t.mix.conf = s.mix.conf
  running : i ≠ .mixPreprocess → i ≠ .mixPostprocess → t.mix.running = s.mix.running
  latched : i ≠ .mixPreprocess → t.mix.runRate = s.mix.runRate ∧ t.mix.runNch = s.mix.runNch
  active : (∀ p en, i ≠ .mixSetActive p en) → ∀ p, (t.port p).active = (s.port p).active
  outEn : (∀ p en, i ≠ .mixSetOutput p en) → ∀ p, (t.port p).outEn = (s.port p).outEn

section
variable {s t : State}

theorem SameControls.refl (s : State) : SameControls s s := ⟨rfl, rfl, rfl, rfl, rfl, rfl, fun _ => rfl, fun _ => rfl⟩

theorem sameControls_of_mix (h : t.mix = s.mix) : SameControls s t := by
  have ports (p : Nat) : t.port p = s.port p := State.port_eq_of_ports (by rw [h]) p
  exact ⟨by rw [h], by rw [h], by rw [h], by rw [h], by rw [h], by rw [h], fun p => by rw [ports], fun p => by rw [ports]⟩

/-- A change of a port that keeps its switches. -/
theorem sameControls_mapPort (i : Nat) (f : Port → Port) (hactive : ∀ q, (f q).active = q.active)
    (houtEn : ∀ q, (f q).outEn = q.outEn) : SameControls s (s.mapPort i f) :=
  { SameControls.refl s with
    active := State.port_mapPort_keep Port.active hactive
    outEn := State.port_mapPort_keep Port.outEn houtEn }

theorem tickSteps_sameControls (now : BitVec 64) (s : State) : SameControls s (tickSteps now s) := by
  obtain ⟨_, frame⟩ := tickSteps_frame now s
  have work := tickSteps_work (now := now) s
  exact ⟨frame.rate, frame.nch, frame.conf, frame.running, frame.runRate, frame.runNch, fun p => (work.port p).active,
    fun p => (work.port p).outEn⟩

theorem SameControls.others (h : SameControls s t) (i : Instr) : OthersControlsKept i s t :=
  ⟨fun _ => h.rate, fun _ => h.nch, fun _ => h.conf, fun _ _ => h.running, fun _ => ⟨h.runRate, h.runNch⟩,
    fun _ => h.active, fun _ => h.outEn⟩

end

/-- Clearing the channels turns no switch. -/
theorem port_mapPorts_clearChannel (s : State) (p : Nat) : (s.mapPorts clearChannel).port p = clearChannel (s.port p) :=
  State.port_mapPorts_of_reset p rfl

theorem execMixPreprocess_controls (s : State) : EndsIn (OthersControlsKept .mixPreprocess s) (execMixPreprocess s) := by
  refine .ite (fun _ => endsIn_raise _ ((SameControls.refl s).others _)) fun _ => endsIn_finish _ _ ?_
  exact
    { rate := fun _ => rfl
      nch := fun _ => rfl
      conf := fun _ => rfl
      running := fun h => absurd rfl h
      latched := fun h => absurd rfl h
      active := fun _ p => by rw [port_mapPorts_clearChannel]; rfl
      outEn := fun _ p => by rw [port_mapPorts_clearChannel]; rfl }

theorem execMixPostprocess_controls (s : State) : EndsIn (OthersControlsKept .mixPostprocess s) (execMixPostprocess s) := by
  refine .ite (fun _ => endsIn_raise _ ((SameControls.refl s).others _)) fun _ => endsIn_finish _ _ ?_
  exact
    { rate := fun _ => rfl
      nch := fun _ => rfl
      conf := fun _ => rfl
      running := fun _ h => absurd rfl h
      latched := fun _ => ⟨rfl, rfl⟩
      active := fun _ p => by rw [port_mapPorts_clearChannel]; rfl
      outEn := fun _ p => by rw [port_mapPorts_clearChannel]; rfl }

theorem exec_controls_of_mix {i : Instr} (hi : unitOf i = .mix) (s : State) :
    EndsIn (OthersControlsKept i s) (exec i s) := by
  have kept (i : Instr) : OthersControlsKept i s s := (SameControls.refl s).others i
  cases i with
  | mixPreprocess => exact execMixPreprocess_controls s
  | mixTick now =>
    exact .ite (fun _ => endsIn_raise _ (kept _)) fun _ => .ite (fun _ => endsIn_raise _ (kept _)) fun _ =>
      endsIn_finish _ _ ((tickSteps_sameControls now s).others _)
  | mixPostprocess => exact execMixPostprocess_controls s
  | mixSetRate r =>
    exact .ite (fun _ => endsIn_raise _ (kept _)) fun _ =>
      endsIn_finish _ _ { kept (.mixSetRate r) with rate := fun h => absurd rfl (h r) }
  | mixGetRate => exact endsIn_finish _ _ (kept _)
  | mixSetNch n =>
    exact .ite (fun _ => endsIn_raise _ (kept _)) fun _ =>
      endsIn_finish _ _ { kept (.mixSetNch n) with nch := fun h => absurd rfl (h n) }
  | mixGetNch => exact endsIn_finish _ _ (kept _)
  | mixSetConf en => exact endsIn_finish _ _ { kept (.mixSetConf en) with conf := fun h => absurd rfl (h en) }
  | mixSetActive port en =>
    have written (p : Nat) : OthersControlsKept (.mixSetActive port en) s (s.mapPort p fun q => { q with active := en }) :=
      { kept (.mixSetActive port en) with
        active := fun h => absurd rfl (h port en)
        outEn := fun _ => State.port_mapPort_keep Port.outEn (f := fun q => { q with active := en }) fun _ => rfl }
    exact .withPort port (kept _) fun p => endsIn_finish _ _ (written p)
  | mixSetOutput port en =>
    have written (p : Nat) : OthersControlsKept (.mixSetOutput port en) s (s.mapPort p fun q => { q with outEn := en }) :=
      { kept (.mixSetOutput port en) with
        active := fun _ => State.port_mapPort_keep Port.active (f := fun q => { q with outEn := en }) fun _ => rfl
        outEn := fun h => absurd rfl (h port en) }
    exact .withPort port (kept _) fun p => endsIn_finish _ _ (written p)
  | mixSetMaster port => exact .withPort port (kept _) fun _ => endsIn_finish _ _ (kept _)
  | mixPush port d =>
    have pushed (p : Nat) : SameControls s (s.mapPort p fun q => { q with inq := q.inq ++ [d] }) :=
      sameControls_mapPort p (fun q => { q with inq := q.inq ++ [d] }) (fun _ => rfl) fun _ => rfl
    exact .withPort port (kept _) fun p => .ite (fun _ => endsIn_finish _ _ ((pushed p).others _)) fun _ =>
      endsIn_raise _ (kept _)
  | mixPop port =>
    have popped (p : Nat) (more : List Bytes) : SameControls s (s.mapPort p fun q => { q with outq := more }) :=
      sameControls_mapPort p (fun q => { q with outq := more }) (fun _ => rfl) fun _ => rfl
    exact execMixPop_endsIn port (kept _) fun p _ more _ => (popped p more).others _
  | _ => cases hi

/-- Settles O14: a command of the summer keeps what it does not write, and any other keeps the whole summer. -/
theorem controlRegistersHaveOneWriter : Obligations.ControlRegistersHaveOneWriter := by
  unfold Obligations.ControlRegistersHaveOneWriter
  intro i s
  have ends : EndsIn (OthersControlsKept i s) (exec i s) := by
    by_cases hi : unitOf i = .mix
    · exact exec_controls_of_mix hi s
    · exact (exec_work_of_not_mix hi s).mono fun t ht => (sameControls_of_mix ht.mix).others i
  obtain ⟨t, ht, kept⟩ := ends.exists_next fun _ _ h => { h with }
  exact ⟨t, ht, kept.rate, kept.nch, kept.conf, kept.running, kept.latched, kept.active, kept.outEn⟩

end Sys2Proof.Machine

/-! The memory family (20_memory.md): a queued output is never changed (R91, 70_reset_and_hazards.md R342). That entries are
only added at the tail is `<+:`: the new queue begins with the old one. -/

namespace Sys2Proof.Machine

/-! ### `UNP.OUTQ` in a packet's work -/

theorem dropPartial_outq (u : Unp) : (dropPartial u).outq = u.outq := by rw [dropPartial_eq]

theorem seqCheck_outq (seq : BitVec 16) (u : Unp) : (seqCheck seq u).outq = u.outq := by rw [seqCheck_eq]

theorem dispatchPayload_outq (c : Config) (p : Bytes) (u : Unp) : (dispatchPayload c p u).outq = u.outq := by
  obtain ⟨_, _, _, _, _, _, h⟩ := dispatchPayload_frame c p u
  rw [h]

/-- A frame is queued behind what the queue holds, or dropped. -/
theorem outputFrame_outq (s : State) : s.unp.outq <+: (outputFrame s).1.unp.outq := by
  by_cases hrq : s.unp.rq = []
  · rw [outputFrame_of_empty hrq]
  · obtain ⟨pre, u, st, hpre, -, ⟨-, queued⟩ | ⟨-, dropped⟩⟩ := outputFrame_of_nonempty hrq
    · rw [queued]
      exact List.prefix_append ..
    · obtain ⟨_, _, _, hu⟩ := oobPrefix_frame s.cfg s.unp
      rw [hpre] at hu
      rw [dropped, show u = _ from hu]

theorem outputFrame_dropPartial_outq (s : State) : s.unp.outq <+: (outputFrame (s.mapUnp dropPartial)).1.unp.outq := by
  have emitted := outputFrame_outq (s.mapUnp dropPartial)
  rwa [State.mapUnp_unp, dropPartial_outq] at emitted

theorem tsFlush_outq (ts : BitVec 32) (s : State) : s.unp.outq <+: (tsFlush ts s).1.unp.outq := by
  unfold tsFlush
  split
  · exact List.prefix_rfl
  · split
    · exact outputFrame_dropPartial_outq s
    · exact List.prefix_rfl

theorem markerOutput_outq (m : Bool) (s : State) : s.unp.outq <+: (markerOutput m s).1.unp.outq := by
  cases m with
  | false => exact List.prefix_rfl
  | true => exact outputFrame_dropPartial_outq s

/-- A packet adds at the tail twice at most: the frame its timestamp flushes and the frame its marker ends. -/
theorem packetSteps_outq (seq : BitVec 16) (ts : BitVec 32) (m : Bool) (p : Bytes) (s : State) :
    s.unp.outq <+: (packetSteps seq ts m p s).1.unp.outq := by
  have marked := markerOutput_outq m
    ((tsFlush ts s).1.mapUnp fun u => dispatchPayload s.cfg p (seqCheck seq { u with lastTs := some ts }))
  rw [State.mapUnp_unp, dispatchPayload_outq, seqCheck_outq] at marked
  exact (tsFlush_outq ts s).trans marked

/-! ### The ports' output queues in a tick's work -/

/-- A port after a change of some port is the old one or the changed one, whatever the table holds. -/
theorem port_mapPort_eq_or (i j : Nat) (f : Port → Port) (s : State) :
    (s.mapPort i f).port j = s.port j ∨ (s.mapPort i f).port j = f (s.port j) := by
  by_cases hj : j < s.mix.ports.length
  · rw [port_mapPort i j f s hj]
    exact (ite_eq_or_eq ..).symm
  · have hj := Nat.le_of_not_lt hj
    exact .inl (by rw [State.port_of_le hj, State.port_of_le (s := s.mapPort i f) (by simpa using hj)])

/-- Every port's output queue in `t` is the one in `s` with entries added at the tail. -/
def OutqsExtend (s t : State) : Prop := ∀ i, (s.port i).outq <+: (t.port i).outq

theorem discardIfMuted_outq (q : Port) : (discardIfMuted q).outq = q.outq := by
  unfold discardIfMuted
  split <;> rfl

theorem noteSeen_outq (now : BitVec 64) (q : Port) : (noteSeen now q).outq = q.outq := by
  unfold noteSeen
  split <;> rfl

theorem flowControl_outq (windowMs threshold nch : Nat) (now : BitVec 64) (q : Port) :
    (flowControl windowMs threshold nch now q).outq = q.outq := by
  unfold flowControl
  split
  · rfl
  · split <;> rfl

section
variable {s t u : State}

theorem OutqsExtend.refl (s : State) : OutqsExtend s s := fun _ => List.prefix_rfl

theorem OutqsExtend.trans (h : OutqsExtend s t) (h' : OutqsExtend t u) : OutqsExtend s u := fun i => (h i).trans (h' i)

theorem outqsExtend_foldl {α : Type} {f : State → α → State} (h : ∀ s a, OutqsExtend s (f s a)) (xs : List α) (s : State) :
    OutqsExtend s (xs.foldl f s) := by
  induction xs generalizing s with
  | nil => exact .refl s
  | cons x xs ih => exact (h s x).trans (ih _)

theorem outqsExtend_mapPort {i : Nat} {f : Port → Port} (hf : ∀ q, q.outq <+: (f q).outq) :
    OutqsExtend s (s.mapPort i f) := by
  intro j
  rcases port_mapPort_eq_or i j f s with h | h <;> rw [h]
  exact hf _

/-- A change of a port that keeps its output queue. -/
theorem outqsExtend_mapPort_keep {i : Nat} {f : Port → Port} (hf : ∀ q, (f q).outq = q.outq) :
    OutqsExtend s (s.mapPort i f) :=
  outqsExtend_mapPort fun q => (hf q).symm ▸ List.prefix_rfl

theorem pushOut_outqs (o : Nat) (buf : Bytes) (s : State) : OutqsExtend s (pushOut o buf s) := by
  rcases pushOut_cases o buf s with ⟨-, h⟩ | ⟨-, h⟩ <;> rw [h]
  · exact outqsExtend_mapPort fun q => List.prefix_append ..
  · exact .refl s

theorem forwardTo_outqs (pkts : List Bytes) (o : Nat) (s : State) : OutqsExtend s (forwardTo pkts s o) :=
  outqsExtend_foldl (fun w d => pushOut_outqs o d w) pkts s

theorem bypassTick_outqs (p : Nat) (s : State) : OutqsExtend s (bypassTick p s) := by
  have entered : OutqsExtend s (if s.mix.bypass = some p then s else s.mapPort p fun q => { q with buf := [] }) := by
    split
    · exact .refl s
    · exact outqsExtend_mapPort_keep fun _ => rfl
  have drained : OutqsExtend s
      (((if s.mix.bypass = some p then s else s.mapPort p fun q => { q with buf := [] }).mapMix fun m =>
        { m with bypass := some p }).mapPort p fun q => { q with inq := [] }) :=
    entered.trans (outqsExtend_mapPort_keep (f := fun q => { q with inq := [] }) fun _ => rfl)
  exact drained.trans (outqsExtend_foldl (fun w o => forwardTo_outqs _ o w) _ _)

theorem putBytes_outqs (i : Nat) (d : Bytes) (s : State) : OutqsExtend s (putBytes i d s) := by
  unfold putBytes
  dsimp only
  split
  · exact outqsExtend_mapPort_keep fun _ => rfl
  · exact outqsExtend_mapPort_keep (f := fun q => { q with buf := q.buf ++ _ }) fun _ => rfl

theorem drainInput_outqs (i : Nat) (s : State) : OutqsExtend s (drainInput i s) :=
  (outqsExtend_mapPort_keep (f := fun q => { q with inq := [] }) fun _ => rfl).trans
    (outqsExtend_foldl (fun w d => putBytes_outqs i d w) _ _)

theorem accumulate_outqs (i : Nat) (r : MixRun) : OutqsExtend r.st (accumulate i r).st := by
  unfold accumulate
  dsimp only
  split
  · exact outqsExtend_mapPort_keep fun _ => rfl
  · exact .refl _

theorem mixPort_outqs (now : BitVec 64) (r : MixRun) (i : Nat) : OutqsExtend r.st (mixPort now r i).st :=
  ((drainInput_outqs i r.st).trans (outqsExtend_mapPort_keep (f := sampleFullness) fun _ => rfl)).trans
    ((accumulate_outqs i { r with st := (drainInput i r.st).mapPort i sampleFullness }).trans
      (outqsExtend_mapPort_keep fun q => flowControl_outq _ _ _ now q))

theorem foldl_mixPort_outqs (now : BitVec 64) (act : List Nat) (r : MixRun) :
    OutqsExtend r.st (act.foldl (mixPort now) r).st := by
  induction act generalizing r with
  | nil => exact .refl _
  | cons i act ih => exact (mixPort_outqs now r i).trans (ih _)

theorem dispatchOutputs_outqs (r : MixRun) : OutqsExtend r.st (dispatchOutputs r) := by
  refine outqsExtend_foldl (fun w o => ?_) _ _
  split
  · exact pushOut_outqs _ _ _
  · exact .refl _

theorem mixTick_outqs (act : List Nat) (now : BitVec 64) (s : State) : OutqsExtend s (mixTick act now s) :=
  (foldl_mixPort_outqs now act ⟨s.mapMix fun m => { m with bypass := none }, _, _⟩).trans (dispatchOutputs_outqs _)

/-- What a tick does before its outputs keeps every output queue; the outputs go to the tail. -/
theorem tickSteps_outqs (now : BitVec 64) (s : State) : OutqsExtend s (tickSteps now s) := by
  have seen : OutqsExtend s
      (((s.mapMix fun m => { m with lastNow := some now }).mapPorts discardIfMuted).mapPorts (noteSeen now)) := by
    intro i
    rw [State.port_mapPorts_of_reset i rfl, noteSeen_outq, State.port_mapPorts_of_reset i rfl, discardIfMuted_outq]
    exact List.prefix_rfl
  unfold tickSteps
  dsimp only
  split
  · exact seen
  · exact seen.trans (bypassTick_outqs _ _)
  · exact seen.trans (mixTick_outqs _ _ _)

end

/-! ### The effect of each command on the output queues -/

/-- What the command `i` run in `s` may make of `UNP.OUTQ`. -/
def UnpOutqEffect (s : State) (out : List OutEntry) : Instr → Prop
  | .unpPop => out = s.unp.outq.tail
  | .unpPacket _ _ _ _ => s.unp.outq <+: out
  | _ => out = s.unp.outq

/-- What it may make of port `p`'s output queue. -/
def PortOutqEffect (s : State) (p : Nat) (out : List Bytes) : Instr → Prop
  | .mixPop q => out = if q.toNat = p ∧ p < s.cfg.nports then (s.port p).outq.tail else (s.port p).outq
  | .mixTick _ => (s.port p).outq <+: out
  | _ => out = (s.port p).outq

theorem injectPs_outq (k : PsKind) (p : Bytes) (s : State) :
    EndsIn (fun t => t.unp.outq = s.unp.outq) (injectPs k p s) :=
  .ite (fun _ => endsIn_raise _ rfl) fun _ => endsIn_finish _ _ (by cases k <;> rfl)

theorem execUnpPop_outq (s : State) : EndsIn (fun t => t.unp.outq = s.unp.outq.tail) (execUnpPop s) := by
  unfold execUnpPop
  split
  · next hq => exact endsIn_raise _ (by rw [hq]; rfl)
  · next e more hq => exact endsIn_finish _ _ (by rw [hq]; rfl)

theorem exec_unpOutqEffect (i : Instr) (s : State) : EndsIn (fun t => UnpOutqEffect s t.unp.outq i) (exec i s) := by
  cases i with
  | unpPacket seq ts m p =>
    exact .ite (fun _ => endsIn_raise _ List.prefix_rfl) fun _ => endsIn_finish _ _ (packetSteps_outq seq ts m p s)
  | unpSetSps p => exact injectPs_outq .sps p s
  | unpSetPps p => exact injectPs_outq .pps p s
  | unpReset => exact endsIn_finish _ _ rfl
  | unpPop => exact execUnpPop_outq s
  | sysFault => exact endsIn_finish _ _ rfl
  | _ => exact (exec_work_of_mix rfl s).mono fun t ht => congrArg Unp.outq ht.unp

/-- A port with something queued is in the table. -/
theorem lt_length_of_outq_eq_cons {s : State} {p : Nat} {d : Bytes} {more : List Bytes}
    (h : (s.port p).outq = d :: more) : p < s.mix.ports.length := by
  by_contra hp
  rw [State.port_of_le (Nat.le_of_not_lt hp)] at h
  cases h

theorem PortOutqEffect.of_pop {s : State} {port : Byte} {out : List Bytes} (hport : port.toNat < s.cfg.nports)
    (h : out = (s.port port.toNat).outq.tail) : PortOutqEffect s port.toNat out (.mixPop port) :=
  h.trans (if_pos ⟨rfl, hport⟩).symm

theorem PortOutqEffect.of_pop_elsewhere {s : State} {port : Byte} {p : Nat}
    (h : ¬ (port.toNat = p ∧ p < s.cfg.nports)) : PortOutqEffect s p (s.port p).outq (.mixPop port) :=
  (if_neg h).symm

theorem execMixPop_outqs (port : Byte) (s : State) :
    EndsIn (fun t => ∀ p, PortOutqEffect s p (t.port p).outq (.mixPop port)) (execMixPop port s) := by
  refine .ite (fun hport => ?_) fun hport =>
    endsIn_raise _ fun p => .of_pop_elsewhere fun ⟨hp, hlt⟩ => hport (hp ▸ hlt)
  split
  · next hq =>
    refine endsIn_raise _ fun p => ?_
    by_cases hp : port.toNat = p
    · subst hp
      exact .of_pop hport (by rw [hq]; rfl)
    · exact .of_pop_elsewhere fun h => hp h.1
  · next d more hq =>
    refine endsIn_finish _ _ fun p => ?_
    by_cases hp : port.toNat = p
    · subst hp
      rw [State.port_mapPort_self _ (lt_length_of_outq_eq_cons hq)]
      exact .of_pop hport (by rw [hq]; rfl)
    · rw [State.port_mapPort_ne _ hp]
      exact .of_pop_elsewhere fun h => hp h.1

/-- Clearing the channels leaves the output queues. -/
theorem outq_mapPorts_clearChannel (s : State) (p : Nat) : ((s.mapPorts clearChannel).port p).outq = (s.port p).outq := by
  rw [port_mapPorts_clearChannel]
  rfl

theorem exec_portOutqEffect (i : Instr) (s : State) :
    EndsIn (fun t => ∀ p, PortOutqEffect s p (t.port p).outq i) (exec i s) := by
  have kept (f : Port → Port) (hf : ∀ q, (f q).outq = q.outq) (r p : Nat) :
      ((s.mapPort r f).port p).outq = (s.port p).outq := State.port_mapPort_keep Port.outq hf p
  cases i with
  | mixPreprocess =>
    exact .ite (fun _ => endsIn_raise _ fun _ => rfl) fun _ => endsIn_finish _ _ (outq_mapPorts_clearChannel _)
  | mixTick now =>
    have unchanged : ∀ p, (s.port p).outq <+: (s.port p).outq := fun _ => List.prefix_rfl
    exact .ite (fun _ => endsIn_raise _ unchanged) fun _ => .ite (fun _ => endsIn_raise _ unchanged) fun _ =>
      endsIn_finish _ _ (tickSteps_outqs now s)
  | mixPostprocess =>
    exact .ite (fun _ => endsIn_raise _ fun _ => rfl) fun _ => endsIn_finish _ _ (outq_mapPorts_clearChannel _)
  | mixSetRate r => exact .ite (fun _ => endsIn_raise _ fun _ => rfl) fun _ => endsIn_finish _ _ fun _ => rfl
  | mixGetRate => exact endsIn_finish _ _ fun _ => rfl
  | mixSetNch n => exact .ite (fun _ => endsIn_raise _ fun _ => rfl) fun _ => endsIn_finish _ _ fun _ => rfl
  | mixGetNch => exact endsIn_finish _ _ fun _ => rfl
  | mixSetConf en => exact endsIn_finish _ _ fun _ => rfl
  | mixSetActive port en =>
    exact .withPort port (fun _ => rfl) fun _ => endsIn_finish _ _ (kept (fun q => { q with active := en }) (fun _ => rfl) _)
  | mixSetOutput port en =>
    exact .withPort port (fun _ => rfl) fun _ => endsIn_finish _ _ (kept (fun q => { q with outEn := en }) (fun _ => rfl) _)
  | mixSetMaster port => exact .withPort port (fun _ => rfl) fun _ => endsIn_finish _ _ fun _ => rfl
  | mixPush port d =>
    exact .withPort port (fun _ => rfl) fun _ => .ite
      (fun _ => endsIn_finish _ _ (kept (fun q => { q with inq := q.inq ++ [d] }) (fun _ => rfl) _))
      fun _ => endsIn_raise _ fun _ => rfl
  | mixPop port => exact execMixPop_outqs port s
  | _ =>
    exact (exec_work_of_not_mix (by simp [unitOf]) s).mono fun t ht p =>
      congrArg Port.outq (State.port_eq_of_ports (congrArg Mix.ports ht.mix) p)

/-! ### Reading the effects -/

section
variable {i : Instr} {s : State} {p : Nat}

theorem UnpOutqEffect.eq_of_other {out : List OutEntry} (h : UnpOutqEffect s out i) (hpop : i ≠ .unpPop)
    (hpacket : ∀ seq ts m p, i ≠ .unpPacket seq ts m p) : out = s.unp.outq := by
  cases i with
  | unpPop => exact absurd rfl hpop
  | unpPacket seq ts m p => exact absurd rfl (hpacket seq ts m p)
  | _ => exact h

theorem PortOutqEffect.eq_of_other {out : List Bytes} (h : PortOutqEffect s p out i) (hpop : ∀ q, i ≠ .mixPop q)
    (htick : ∀ now, i ≠ .mixTick now) : out = (s.port p).outq := by
  cases i with
  | mixPop q => exact absurd rfl (hpop q)
  | mixTick now => exact absurd rfl (htick now)
  | _ => exact h

end

/-- Settles O13: each command's effect on `UNP.OUTQ` and on the ports' output queues, read off by command. -/
theorem outputQueuesKeepWhatTheyHold : Obligations.OutputQueuesKeepWhatTheyHold := by
  unfold Obligations.OutputQueuesKeepWhatTheyHold
  intro i s
  obtain ⟨t, ht, unp⟩ := (exec_unpOutqEffect i s).exists_next fun _ _ h => h
  obtain ⟨t', ht', port⟩ := (exec_portOutqEffect i s).exists_next fun _ _ h => h
  cases ht.symm.trans ht'
  refine ⟨t, ht, ?_, ?_, unp.eq_of_other, fun p => ⟨?_, ?_, (port p).eq_of_other⟩⟩
  · rintro rfl
    exact unp
  · rintro ⟨_, _, _, _, rfl⟩
    obtain ⟨es, h⟩ := unp
    exact ⟨es, h.symm⟩
  · rintro q rfl
    exact port p
  · rintro ⟨_, rfl⟩
    obtain ⟨es, h⟩ := port p
    exact ⟨es, h.symm⟩

end Sys2Proof.Machine

/-! The encoding family (30_encoding.md): a header's row, encodings fetched back, payload packing, illegal headers, and the
words of a fetched command. -/

namespace Sys2Proof.Machine

/-! ### The row a header selects (30_encoding.md R115) -/

/-- The opcode field is the header's own part of a row's fixed bits. -/
theorem headerOpc_of_matches {o : Op} {h : Word} (hm : o.matchesHeader h = true) : headerOpc h = o.opc := by
  have mask_whole : ∀ i < 8, o.mask.getLsbD (24 + i) = true ∧ o.pattern.getLsbD (24 + i) = o.opc.getLsbD i := by
    cases o <;> decide
  refine BitVec.eq_of_getLsbD_eq fun i hi => ?_
  obtain ⟨hmask, hpat⟩ := mask_whole i hi
  rw [headerOpc, BitVec.getLsbD_extractLsb', decide_eq_true hi, Bool.true_and, ← hpat]
  exact matchesHeader_iff.mp hm (24 + i) (by omega) hmask

theorem ofHeader_of_matches {o : Op} {h : Word} (hm : o.matchesHeader h = true) : Op.ofHeader h = some o :=
  ofHeader_eq_some.mpr (headerOpc_of_matches hm)

/-- Settles O4: a row's fixed bits hold the whole opcode, and the opcode selects one row. -/
theorem headerMatchesOneRow : Obligations.HeaderMatchesOneRow := by
  unfold Obligations.HeaderMatchesOneRow
  intro h o hm
  refine ⟨ofHeader_of_matches hm, fun o' hm' => ?_⟩
  exact Option.some.inj ((ofHeader_of_matches hm').symm.trans (ofHeader_of_matches hm))

/-! ### Decoding the words of a listed header, and of one that matches no row -/

theorem decodeCommand_of_matches {o : Op} {h : Word} {ops : List Word} {i : Instr} (hm : o.matchesHeader h = true)
    (hi : o.operands h ops = some i) : decodeCommand (h :: ops) = .ok i := by
  simp [decodeCommand, ofHeader_of_matches hm, hm, hi]

/-- A command is decoded by the row its header matches. -/
theorem decodeCommand_eq_ok {ws : List Word} {i : Instr} (hd : decodeCommand ws = .ok i) :
    ∃ (h : Word) (ops : List Word) (o : Op), ws = h :: ops ∧ o.matchesHeader h = true ∧ o.operands h ops = some i := by
  cases ws with
  | nil => cases hd
  | cons h ops =>
    simp only [decodeCommand] at hd
    split at hd
    · cases hd
    · rename_i o _
      split at hd
      · rename_i hm
        split at hd
        · rename_i hi
          cases hd
          exact ⟨h, ops, o, rfl, hm, hi⟩
        · cases hd
      · cases hd

/-- Words that begin with a header of no row decode to nothing, however many of them are taken. -/
theorem decodeCommand_of_no_row {h : Word} (hn : ∀ o : Op, o.matchesHeader h = false) {ops ws : List Word}
    (hp : ws <+: h :: ops) : ∃ e, decodeCommand ws = .error e := by
  cases hd : decodeCommand ws with
  | error e => exact ⟨e, rfl⟩
  | ok i =>
    obtain ⟨h', ops', o, rfl, hm, _⟩ := decodeCommand_eq_ok hd
    obtain ⟨rfl, _⟩ := List.cons_prefix_cons.mp hp
    exact absurd hm (by simp [hn o])

/-! ### Fetching an encoded command -/

/-- The header of every encoding has its row's fixed bits. -/
theorem encodedHeader (i : Instr) : Laws.EncodedHeader.Statement i := by
  cases i with
  | unpPacket seq ts m p => exact Laws.EncodedHeader.unpPacket seq ts m p
  | unpSetSps p => exact Laws.EncodedHeader.unpSetSps p
  | unpSetPps p => exact Laws.EncodedHeader.unpSetPps p
  | unpReset => exact Laws.EncodedHeader.unpReset
  | unpPop => exact Laws.EncodedHeader.unpPop
  | mixPreprocess => exact Laws.EncodedHeader.mixPreprocess
  | mixTick now => exact Laws.EncodedHeader.mixTick now
  | mixPostprocess => exact Laws.EncodedHeader.mixPostprocess
  | mixSetRate r => exact Laws.EncodedHeader.mixSetRate r
  | mixGetRate => exact Laws.EncodedHeader.mixGetRate
  | mixSetNch n => exact Laws.EncodedHeader.mixSetNch n
  | mixGetNch => exact Laws.EncodedHeader.mixGetNch
  | mixSetConf en => exact Laws.EncodedHeader.mixSetConf en
  | mixSetActive port en => exact Laws.EncodedHeader.mixSetActive port en
  | mixSetOutput port en => exact Laws.EncodedHeader.mixSetOutput port en
  | mixSetMaster port => exact Laws.EncodedHeader.mixSetMaster port
  | mixPush port d => exact Laws.EncodedHeader.mixPush port d
  | mixPop port => exact Laws.EncodedHeader.mixPop port
  | sysFault => exact Laws.EncodedHeader.sysFault

/-- A length that fits its field is read back from it. -/
theorem toNat_lengthField {w n : Nat} (h : decide (n < 2 ^ w) = true) : (BitVec.ofNat w n).toNat = n :=
  BitVec.toNat_ofNat n w ▸ Nat.mod_eq_of_lt (of_decide_eq_true h)

/-- The two words of a time put together again (30_encoding.md R112). -/
theorem words_of_time (now : BitVec 64) : now.extractLsb' 32 32 ++ now.extractLsb' 0 32 = now :=
  (BitVec.extractLsb'_append_extractLsb'_eq_extractLsb' rfl).trans BitVec.extractLsb'_eq_self

/-- An encoding's length is the one its own first words give, whatever follows (30_encoding.md R116). -/
theorem commandLength_encode {i : Instr} (he : i.encodable = true) (rest : List Word) :
    commandLength (encode i ++ rest) = some (encode i).length := by
  cases i with
  | unpPacket _ _ _ _ | unpSetSps _ | unpSetPps _ | mixPush _ _ =>
    simp +arith [encode, commandLength, Op.format, length_packBytes, toNat_lengthField he]
  | _ => simp [encode, commandLength, Op.format]

/-- A row reads an encoding's operands back from its header and the words after it. -/
theorem operands_encode {i : Instr} (he : i.encodable = true) {h : Word} {ops : List Word} (hw : encode i = h :: ops) :
    (Laws.rowOf i).operands h ops = some i := by
  cases i with
  | unpPacket _ _ _ _ | unpSetSps _ | unpSetPps _ | mixPush _ _ =>
    cases hw
    simp [Laws.rowOf, Op.operands, toNat_lengthField he, unpackBytes_packBytes]
  | mixTick now => cases hw; simp [Laws.rowOf, Op.operands, words_of_time]
  | _ => cases hw; simp [Laws.rowOf, Op.operands]

theorem decodeCommand_encode {i : Instr} (he : i.encodable = true) : decodeCommand (encode i) = .ok i := by
  obtain ⟨idx, imm, ops, hw, hm⟩ := encodedHeader i
  rw [hw]
  exact decodeCommand_of_matches hm (operands_encode he hw)

/-- Settles O2: an encoding has the length its first words give, and decodes to its command. -/
theorem fetchOfEncodeIsTheCommand : Obligations.FetchOfEncodeIsTheCommand := by
  unfold Obligations.FetchOfEncodeIsTheCommand
  intro i rest he
  rw [fetch_of_length (commandLength_encode he rest) (by simp), List.take_left, List.drop_left, decodeCommand_encode he]

/-! ### Payload bytes in their words (30_encoding.md R113) -/

/-- Byte `b` of a word, the most significant first. -/
theorem wordBytes_getElem? (w : Word) {b : Nat} (hb : b < 4) : (wordBytes w)[b]? = some (w.extractLsb' (24 - 8 * b) 8) := by
  interval_cases b <;> rfl

/-- Byte `j` of a row of words stands in word `j div 4`. -/
theorem flatMap_wordBytes_getElem? {ws : List Word} {w : Word} {j : Nat} (hw : ws[j / 4]? = some w) :
    (ws.flatMap wordBytes)[j]? = some (w.extractLsb' (24 - 8 * (j % 4)) 8) := by
  induction ws generalizing j with
  | nil => cases hw
  | cons v ws ih =>
    rw [List.flatMap_cons]
    by_cases hj : j < 4
    · rw [Nat.div_eq_of_lt hj] at hw
      obtain rfl : v = w := Option.some.inj hw
      rw [List.getElem?_append_left (by simpa using hj), Nat.mod_eq_of_lt hj, wordBytes_getElem? v hj]
    · obtain ⟨k, rfl⟩ := Nat.exists_eq_add_of_le' (Nat.le_of_not_lt hj)
      rw [Nat.add_div_right k (by decide), List.getElem?_cons_succ] at hw
      rw [List.getElem?_append_right (by simp), length_wordBytes, Nat.add_sub_cancel, ih hw, Nat.add_mod_right]

/-- The bytes of the words a payload is packed in: the payload, then zeros up to whole words. -/
theorem flatMap_wordBytes_packBytes (p : Bytes) :
    (packBytes p).flatMap wordBytes = p ++ List.replicate (4 * payloadWords p.length - p.length) 0 := by
  induction p using packBytes.induct with
  | case1 => rfl
  | case2 a => simp [packBytes, payloadWords]
  | case3 a b => simp [packBytes, payloadWords, List.replicate]
  | case4 a b c => simp [packBytes, payloadWords]
  | case5 a b c d rest ih =>
    have padding : 4 * payloadWords (a :: b :: c :: d :: rest).length - (a :: b :: c :: d :: rest).length =
        4 * payloadWords rest.length - rest.length := by
      simp only [payloadWords, List.length_cons]
      omega
    rw [padding]
    simp [packBytes, ih]

/-- Every byte of a packed payload's words: the payload's byte, or zero past its end. -/
theorem packBytes_byte {p : Bytes} {j : Nat} (hj : j < 4 * payloadWords p.length) :
    ∃ w, (packBytes p)[j / 4]? = some w ∧ w.extractLsb' (24 - 8 * (j % 4)) 8 = p.getD j 0 := by
  have hlt : j / 4 < (packBytes p).length := by rw [length_packBytes]; omega
  have hw := List.getElem?_eq_getElem hlt
  have hbyte := flatMap_wordBytes_getElem? hw
  refine ⟨_, hw, ?_⟩
  rw [flatMap_wordBytes_packBytes] at hbyte
  by_cases hp : j < p.length
  · rw [List.getElem?_append_left hp] at hbyte
    rw [List.getD, hbyte, Option.getD_some]
  · rw [List.getElem?_append_right (Nat.le_of_not_lt hp), List.getElem?_replicate_of_lt (by omega)] at hbyte
    rw [List.getD_eq_default _ _ (Nat.le_of_not_lt hp)]
    exact (Option.some.inj hbyte).symm

/-- A byte read back from payload words, the padding aside. -/
theorem unpackBytes_byte {n j : Nat} {ws : List Word} {w : Word} (hj : j < n) (hw : ws[j / 4]? = some w) :
    (unpackBytes n ws)[j]? = some (w.extractLsb' (24 - 8 * (j % 4)) 8) := by
  rw [unpackBytes, List.getElem?_take_of_lt hj, flatMap_wordBytes_getElem? hw]

/-- The first word of a response, `CODE ‖ 0x000000` (30_encoding.md R118). -/
theorem code_shifted_eq_append (b : Byte) : BitVec.zeroExtend 32 b <<< 24 = b ++ 0#24 := by
  have h : (b ++ 0#24).setWidth 32 = _ := BitVec.setWidth_append_eq_shiftLeft_setWidth_or
  simpa using h.symm

/-- Settles O5: both directions of the packing, by the bytes of a row of words. -/
theorem payloadBytesStandInTheirWords : Obligations.PayloadBytesStandInTheirWords := by
  unfold Obligations.PayloadBytesStandInTheirWords
  refine ⟨fun p => ⟨length_packBytes p, fun j b hb => ?_, fun j hp hj => ?_⟩,
    fun n ws hn => ⟨length_unpackBytes hn, fun j w => unpackBytes_byte⟩,
    fun r => by rw [responseWords, code_shifted_eq_append], rfl⟩
  · obtain ⟨hj, _⟩ := List.getElem?_eq_some_iff.mp hb
    obtain ⟨w, hw, hbyte⟩ := packBytes_byte (p := p) (j := j) (by rw [payloadWords]; omega)
    exact ⟨w, hw, by rw [hbyte, List.getD, hb, Option.getD_some]⟩
  · obtain ⟨w, hw, hbyte⟩ := packBytes_byte hj
    exact ⟨w, hw, by rw [hbyte, List.getD_eq_default _ _ hp]⟩

/-! ### What stands for a header that matches no row (30_encoding.md R116, R117) -/

/-- An opcode that is unlisted or of a format without further words is one word. -/
theorem commandLength_of_one_word {h : Word} (hop : headerOpc h ∉ [0x01#8, 0x02#8, 0x03#8, 0x11#8, 0x13#8, 0x1B#8])
    (ops : List Word) : commandLength (h :: ops) = some 1 := by
  cases ho : Op.ofHeader h with
  | none => simp [commandLength, ho]
  | some o =>
    have hf : o.format = .N ∨ o.format = .I := by
      rw [ofHeader_eq_some.mp ho] at hop
      revert hop
      cases o <;> decide
    rcases hf with hf | hf <;> simp [commandLength, ho, hf]

section
variable {h : Word} {o : Op} (ho : headerOpc h = o.opc)
include ho

theorem commandLength_of_W (hf : o.format = .W) (ops : List Word) : commandLength (h :: ops) = some 2 := by
  simp [commandLength, ofHeader_eq_some.mpr ho, hf]

theorem commandLength_of_T (hf : o.format = .T) (ops : List Word) : commandLength (h :: ops) = some 3 := by
  simp [commandLength, ofHeader_eq_some.mpr ho, hf]

theorem commandLength_of_D (hf : o.format = .D) (ops : List Word) :
    commandLength (h :: ops) = some (1 + payloadWords (headerImm h).toNat) := by
  simp [commandLength, ofHeader_eq_some.mpr ho, hf]

theorem commandLength_of_P (hf : o.format = .P) (ts len : Word) (ops : List Word) :
    commandLength (h :: ts :: len :: ops) = some (3 + payloadWords len.toNat) := by
  simp [commandLength, ofHeader_eq_some.mpr ho, hf]

end

theorem step_of_no_row {s : State} {h : Word} {ops : List Word} {n : Nat} (hs : s.cmd = h :: ops)
    (hn : ∀ o : Op, o.matchesHeader h = false) (hl : n ≤ s.cmd.length) (hlen : commandLength (h :: ops) = some n) :
    step s = .next { s with cmd := s.cmd.drop n, resp := s.resp ++ [⟨.illegal, 0, []⟩] } := by
  obtain ⟨e, he⟩ := decodeCommand_of_no_row hn (List.take_prefix n (h :: ops))
  have hfetch : fetch s.cmd = .illegal e (s.cmd.drop n) := by
    rw [hs] at hl ⊢
    rw [fetch_of_length hlen hl, he]
  exact (step_of_illegal hfetch).trans (raise_eq_next ..)

/-- Settles O6: the length of each clause is the one `fetch` consumes, and no length makes the header a command's. -/
theorem unlistedHeaderIsConsumedAndIllegal : Obligations.UnlistedHeaderIsConsumedAndIllegal := by
  unfold Obligations.UnlistedHeaderIsConsumedAndIllegal
  intro s h ops n hs hn hl hclause
  refine step_of_no_row hs hn hl ?_
  rcases hclause with ⟨hop, rfl⟩ | ⟨hop, rfl⟩ | ⟨hop, rfl⟩ | ⟨hop, rfl⟩ | ⟨hop, ts, len, more, rfl, rfl⟩
  · exact commandLength_of_one_word hop ops
  · exact commandLength_of_W (o := .mixSetRate) hop rfl ops
  · exact commandLength_of_T (o := .mixTick) hop rfl ops
  · rcases List.mem_pair.mp hop with hop | hop
    · exact commandLength_of_D (o := .unpSetSps) hop rfl ops
    · exact commandLength_of_D (o := .unpSetPps) hop rfl ops
  · exact commandLength_of_P (o := .unpPacket) hop rfl ts len more

/-! ### The reserved bits of a listed header (30_encoding.md R112, R115) -/

/-- A field whose bits are reserved, bit 0 aside, holds that bit. -/
theorem eq_zeroExtend_of_and_eq_zero {w : Nat} {x : BitVec w} (hx : x &&& ~~~1 = 0) :
    x = BitVec.zeroExtend w (BitVec.ofBool (x.getLsbD 0)) := by
  refine BitVec.eq_of_getLsbD_eq fun i hi => ?_
  have hbit : (x &&& ~~~1).getLsbD i = false := by rw [hx]; exact BitVec.getLsbD_zero
  cases i with
  | zero => simp [hi]
  | succ i => simpa [hi] using hbit

section
variable {o : Op} {h : Word}

/-- A header is made of its three fields. -/
theorem header_of_fields (hopc : headerOpc h = o.opc) : header o (headerIdx h) (headerImm h) = h := by
  have upper : headerOpc h ++ headerIdx h = h.extractLsb' 16 16 :=
    BitVec.extractLsb'_append_extractLsb'_eq_extractLsb' rfl
  rw [header, ← hopc, upper]
  exact (BitVec.extractLsb'_append_extractLsb'_eq_extractLsb' rfl).trans BitVec.extractLsb'_eq_self

variable (hm : o.matchesHeader h = true)
include hm

theorem header_of_matches {idx : Byte} {imm : BitVec 16} (hidx : headerIdx h = idx) (himm : headerImm h = imm) :
    header o idx imm = h := by
  subst hidx himm
  exact header_of_fields (headerOpc_of_matches hm)

/-- No row fixes a bit of `IDX` or of `IMM` to one. -/
theorem reserved_bits_zero : headerIdx h &&& headerIdx o.mask = 0 ∧ headerImm h &&& headerImm o.mask = 0 := by
  have pattern_zero : headerIdx o.pattern = 0 ∧ headerImm o.pattern = 0 := by cases o <;> decide
  rw [← beq_iff_eq.mp hm] at pattern_zero
  simpa only [headerIdx, headerImm, BitVec.extractLsb'_and] using pattern_zero

theorem headerIdx_eq_zero (hmask : headerIdx o.mask = BitVec.allOnes 8) : headerIdx h = 0 := by
  have hz := (reserved_bits_zero hm).1
  rwa [hmask, BitVec.and_allOnes] at hz

theorem headerImm_eq_zero (hmask : headerImm o.mask = BitVec.allOnes 16) : headerImm h = 0 := by
  have hz := (reserved_bits_zero hm).2
  rwa [hmask, BitVec.and_allOnes] at hz

theorem headerIdx_eq_idxM (hmask : headerIdx o.mask = ~~~1) : headerIdx h = idxM (headerM h) := by
  have hz := (reserved_bits_zero hm).1
  rw [hmask] at hz
  exact (eq_zeroExtend_of_and_eq_zero hz).trans (by simp [idxM, headerM, headerIdx])

theorem headerImm_eq_immEn (hmask : headerImm o.mask = ~~~1) : headerImm h = immEn (headerEn h) := by
  have hz := (reserved_bits_zero hm).2
  rw [hmask] at hz
  exact (eq_zeroExtend_of_and_eq_zero hz).trans (by simp [immEn, headerEn, headerImm])

end

/-! ### Payload words and the payload's own packing (30_encoding.md R113) -/

/-- Words with the same four bytes are the same. -/
theorem word_eq_of_bytes {v w : Word} (h : ∀ b < 4, v.extractLsb' (24 - 8 * b) 8 = w.extractLsb' (24 - 8 * b) 8) : v = w := by
  rw [← bytesWord_of_wordBytes v, ← bytesWord_of_wordBytes w]
  exact congr (congr (congr (congrArg bytesWord (h 0 (by decide))) (h 1 (by decide))) (h 2 (by decide))) (h 3 (by decide))

section
variable {n : Nat} {pl : List Word} (hl : pl.length = payloadWords n)
include hl

theorem length_unpackBytes_payloadWords : (unpackBytes n pl).length = n :=
  length_unpackBytes (by rw [hl, payloadWords]; omega)

/-- Payload words agree with the packing of the payload read from them on every byte of that payload. -/
theorem payload_byte_agrees {k b : Nat} {w e : Word} (hw : pl[k]? = some w)
    (he : (packBytes (unpackBytes n pl))[k]? = some e) (hb : b < 4) (hk : 4 * k + b < n) :
    w.extractLsb' (24 - 8 * b) 8 = e.extractLsb' (24 - 8 * b) 8 := by
  have hlen := length_unpackBytes_payloadWords hl
  have hdiv : (4 * k + b) / 4 = k := by omega
  have hmod : (4 * k + b) % 4 = b := by omega
  have hread := unpackBytes_byte hk (hdiv.symm ▸ hw)
  obtain ⟨e', he', hbyte⟩ := packBytes_byte (p := unpackBytes n pl) (j := 4 * k + b) (by rw [hlen, payloadWords]; omega)
  rw [hdiv, he] at he'
  obtain rfl : e = e' := Option.some.inj he'
  rw [hmod, List.getD, hread, hmod, Option.getD_some] at hbyte
  exact hbyte.symm

/-- A word full of payload bytes is the packing's. -/
theorem payload_word_agrees {k : Nat} (hk : 4 * k + 4 ≤ n) : pl[k]? = (packBytes (unpackBytes n pl))[k]? := by
  have hlen : (packBytes (unpackBytes n pl)).length = payloadWords n := by
    rw [length_packBytes, length_unpackBytes_payloadWords hl]
  have hlt : k < payloadWords n := by rw [payloadWords]; omega
  have hw := List.getElem?_eq_getElem (hl.symm ▸ hlt : k < pl.length)
  have he := List.getElem?_eq_getElem (hlen.symm ▸ hlt : k < (packBytes (unpackBytes n pl)).length)
  rw [hw, he]
  exact congrArg some (word_eq_of_bytes fun b hb => payload_byte_agrees hl hw he hb (by omega))

end

/-! ### A command's words and its encoding: the same but for the padding -/

/-- `used` is a command's encoding with other words in place of the payload's, from which its payload is read. -/
structure EncodesUpToPadding (used : List Word) (i : Instr) (head pl : List Word) (n : Nat) : Prop where
  used_eq : used = head ++ pl
  encode_eq : encode i = head ++ packBytes (payloadOf i)
  payload_eq : payloadOf i = unpackBytes n pl
  payload_words : pl.length = payloadWords n

namespace EncodesUpToPadding

variable {used head pl : List Word} {i : Instr} {n : Nat}

theorem of_no_payload (he : encode i = used) (hp : payloadOf i = []) : EncodesUpToPadding used i used [] 0 :=
  ⟨used.append_nil.symm, by rw [he, hp, packBytes, List.append_nil], hp, rfl⟩

section
variable (h : EncodesUpToPadding used i head pl n)
include h

theorem length_payload : (payloadOf i).length = n := by
  rw [h.payload_eq, length_unpackBytes_payloadWords h.payload_words]

theorem length_eq : used.length = (encode i).length := by
  rw [h.used_eq, h.encode_eq, List.length_append, List.length_append, length_packBytes, h.length_payload, h.payload_words]

theorem word_agrees {j : Nat} (hj : 4 * (j + 1) ≤ 4 * head.length + n) : used[j]? = (encode i)[j]? := by
  rw [h.used_eq, h.encode_eq, h.payload_eq, List.getElem?_append, List.getElem?_append]
  split
  · rfl
  · exact payload_word_agrees h.payload_words (by omega)

theorem word_agrees_before_last {j : Nat} (hj : j + 1 < used.length) : used[j]? = (encode i)[j]? := by
  rw [h.used_eq, List.length_append, h.payload_words, payloadWords] at hj
  exact h.word_agrees (by omega)

theorem eq_of_full_words (hn : (payloadOf i).length % 4 = 0) : used = encode i := by
  rw [h.length_payload] at hn
  refine List.ext_getElem? fun j => ?_
  by_cases hj : j < used.length
  · rw [h.used_eq, List.length_append, h.payload_words, payloadWords] at hj
    exact h.word_agrees (by omega)
  · rw [List.getElem?_eq_none (Nat.le_of_not_lt hj), List.getElem?_eq_none (h.length_eq ▸ Nat.le_of_not_lt hj)]

theorem last_word_agrees {w e : Word} {b : Nat} (hw : used.getLast? = some w) (he : (encode i).getLast? = some e)
    (hb : b < (payloadOf i).length % 4) : w.extractLsb' (24 - 8 * b) 8 = e.extractLsb' (24 - 8 * b) 8 := by
  have hlen := h.payload_words
  rw [h.length_payload] at hb
  rw [payloadWords] at hlen
  have hpack : (packBytes (payloadOf i)).length = pl.length := by
    rw [length_packBytes, h.length_payload, h.payload_words]
  rw [h.used_eq, List.getLast?_append_of_ne_nil _ (List.ne_nil_of_length_pos (by omega)),
    List.getLast?_eq_getElem?] at hw
  rw [h.encode_eq, List.getLast?_append_of_ne_nil _ (List.ne_nil_of_length_pos (by omega)),
    List.getLast?_eq_getElem?, hpack, h.payload_eq] at he
  exact payload_byte_agrees h.payload_words hw he (by omega) (by omega)

end

end EncodesUpToPadding

/-! ### The words of each row -/

/-- These words are a command, and its encoding but for the padding. -/
def IsEncoding (used : List Word) (i : Instr) : Prop :=
  i.encodable = true ∧ ∃ head pl n, EncodesUpToPadding used i head pl n

section
variable {o : Op} {h : Word} {ops rest : List Word} {i : Instr} (hm : o.matchesHeader h = true)
  (hl : commandLength (h :: (ops ++ rest)) = some (ops.length + 1))
include hm hl

theorem isEncoding_of_one_word (hf : o.format = .N ∨ o.format = .I) {idx : Byte} {imm : BitVec 16}
    (hidx : headerIdx h = idx) (himm : headerImm h = imm) (he : encode i = [header o idx imm])
    (hi : i.encodable = true) (hp : payloadOf i = []) : IsEncoding (h :: ops) i := by
  have one : commandLength (h :: (ops ++ rest)) = some 1 := by
    rcases hf with hf | hf <;> simp [commandLength, ofHeader_of_matches hm, hf]
  obtain rfl : ops = [] := List.eq_nil_of_length_eq_zero (by simpa [hl] using one)
  rw [header_of_matches hm hidx himm] at he
  exact ⟨hi, _, _, _, .of_no_payload he hp⟩

/-- In format N every header bit is fixed. -/
theorem isEncoding_of_N (hf : o.format = .N) (he : encode i = [header o 0 0]) (hi : i.encodable = true)
    (hp : payloadOf i = []) : IsEncoding (h :: ops) i := by
  have all_fixed : headerIdx o.mask = BitVec.allOnes 8 ∧ headerImm o.mask = BitVec.allOnes 16 := by
    revert hf
    cases o <;> decide
  exact isEncoding_of_one_word hm hl (.inl hf) (headerIdx_eq_zero hm all_fixed.1) (headerImm_eq_zero hm all_fixed.2)
    he hi hp

theorem isEncoding_of_D (hf : o.format = .D) (hp : payloadOf i = unpackBytes (headerImm h).toNat ops)
    (he : encode i = header o (headerIdx h) (BitVec.ofNat 16 (payloadOf i).length) :: packBytes (payloadOf i))
    (hi : i.encodable = decide ((payloadOf i).length < 2 ^ 16)) : IsEncoding (h :: ops) i := by
  have hlen : ops.length = payloadWords (headerImm h).toNat := by
    rw [commandLength_of_D (headerOpc_of_matches hm) hf, Option.some.injEq] at hl
    omega
  have hpl : (payloadOf i).length = (headerImm h).toNat := by rw [hp, length_unpackBytes_payloadWords hlen]
  refine ⟨hi.trans (decide_eq_true (hpl ▸ (headerImm h).isLt)), [h], ops, _, rfl, ?_, hp, hlen⟩
  rw [he, hpl, BitVec.ofNat_toNat, BitVec.setWidth_eq, header_of_matches hm rfl rfl]
  rfl

end

/-- The words a row reads a command from are its encoding but for the padding. -/
theorem isEncoding_of_operands {o : Op} {h : Word} {ops rest : List Word} {i : Instr} (hm : o.matchesHeader h = true)
    (hi : o.operands h ops = some i) (hl : commandLength (h :: (ops ++ rest)) = some (ops.length + 1)) :
    IsEncoding (h :: ops) i := by
  cases o with
  | unpPacket =>
    match ops with
    | [] | [_] => cases hi
    | ts :: len :: pl =>
      cases hi
      have hlen : pl.length = payloadWords len.toNat := by
        rw [List.cons_append, List.cons_append, commandLength_of_P (headerOpc_of_matches hm) rfl, Option.some.injEq] at hl
        simp only [List.length_cons] at hl
        omega
      have hpl := length_unpackBytes_payloadWords hlen
      refine ⟨decide_eq_true (hpl.symm ▸ len.isLt), [h, ts, len], pl, _, rfl, ?_, rfl, hlen⟩
      rw [encode, hpl, BitVec.ofNat_toNat, BitVec.setWidth_eq,
        header_of_matches hm (headerIdx_eq_idxM hm (by decide)) rfl]
      rfl
  | unpSetSps | unpSetPps =>
    cases hi
    exact isEncoding_of_D hm hl rfl rfl (by rw [headerIdx_eq_zero hm (by decide)]; rfl) rfl
  | mixPush =>
    cases hi
    exact isEncoding_of_D hm hl rfl rfl rfl rfl
  | mixTick =>
    match ops with
    | [] | [_] => cases hi
    | upper :: lower :: more =>
      cases hi
      rw [commandLength_of_T (headerOpc_of_matches hm) rfl] at hl
      obtain rfl : more = [] := List.eq_nil_of_length_eq_zero (by simpa using hl)
      refine ⟨rfl, _, _, _, .of_no_payload ?_ rfl⟩
      rw [encode, header_of_matches hm (headerIdx_eq_zero hm (by decide)) (headerImm_eq_zero hm (by decide)),
        BitVec.extractLsb'_append_eq_left, BitVec.extractLsb'_append_eq_right]
  | mixSetRate =>
    match ops with
    | [] => cases hi
    | r :: more =>
      cases hi
      rw [commandLength_of_W (headerOpc_of_matches hm) rfl] at hl
      obtain rfl : more = [] := List.eq_nil_of_length_eq_zero (by simpa using hl)
      refine ⟨rfl, _, _, _, .of_no_payload ?_ rfl⟩
      rw [encode, header_of_matches hm (headerIdx_eq_zero hm (by decide)) (headerImm_eq_zero hm (by decide))]
  | mixSetNch =>
    cases hi
    exact isEncoding_of_one_word hm hl (.inr rfl) (headerIdx_eq_zero hm (by decide)) rfl rfl rfl rfl
  | mixSetConf =>
    cases hi
    exact isEncoding_of_one_word hm hl (.inr rfl) (headerIdx_eq_zero hm (by decide)) (headerImm_eq_immEn hm (by decide))
      rfl rfl rfl
  | mixSetActive | mixSetOutput =>
    cases hi
    exact isEncoding_of_one_word hm hl (.inr rfl) rfl (headerImm_eq_immEn hm (by decide)) rfl rfl rfl
  | mixSetMaster | mixPop =>
    cases hi
    exact isEncoding_of_one_word hm hl (.inr rfl) rfl (headerImm_eq_zero hm (by decide)) rfl rfl rfl
  | unpReset | unpPop | mixPreprocess | mixPostprocess | mixGetRate | mixGetNch | sysFault =>
    cases hi
    exact isEncoding_of_N hm hl rfl rfl rfl rfl

/-- Settles O3: the words `fetch` takes are read by the row of their header, and each row's words are the encoding but for
the padding. -/
theorem fetchedWordsAreTheEncoding : Obligations.FetchedWordsAreTheEncoding := by
  unfold Obligations.FetchedWordsAreTheEncoding
  intro ws i rest hfetch
  obtain ⟨n, hlen, hn, hdec, rfl⟩ := fetch_eq_decoded hfetch
  have hsplit := (List.take_append_drop n ws).symm
  obtain ⟨h, ops, o, hused, hm, hops⟩ := decodeCommand_eq_ok hdec
  have hlength : (ws.take n).length = n := List.length_take_of_le hn
  rw [hused, List.length_cons] at hlength
  rw [hsplit, hused, List.cons_append, ← hlength] at hlen
  obtain ⟨henc, head, pl, m, hpad⟩ := isEncoding_of_operands hm hops hlen
  exact ⟨henc, h :: ops, hused ▸ hsplit, hpad.length_eq, fun j => hpad.word_agrees_before_last, hpad.eq_of_full_words,
    fun w e b => hpad.last_word_agrees⟩

/-! ### Words written out (30_encoding.md R111 to R115) -/

/-- Settles O1: the decoder, run on each of the written words. -/
theorem writtenWordsDecode : Obligations.WrittenWordsDecode := by
  unfold Obligations.WrittenWordsDecode
  exact ⟨rfl, rfl, rfl, rfl, rfl, rfl, rfl, rfl⟩

end Sys2Proof.Machine

/-! The status byte of a frame (30_encoding.md R123), bit by bit. -/

namespace Sys2Proof.Machine

@[simp] theorem getLsbD_flagIf (b : Bool) (f : Status) (k : Nat) : (flagIf b f).getLsbD k = (b && f.getLsbD k) := by
  cases b <;> simp [flagIf]

theorem hasIdrNal_iff {frame : List Bytes} : hasIdrNal frame = true ↔ ∃ n ∈ frame, nalType n = 5 := by
  simp [hasIdrNal, typeIdr]

theorem iSliceKey_iff {c : Config} {frame : List Bytes} : iSliceKey c frame = true ↔
    (∃ n ∈ frame, nalType n = 1) ∧ ∀ n ∈ frame, nalType n = 1 → fISlice c n = true := by
  simp [iSliceKey, typeSlice, ← imp_iff_not_or]

/-- The keyframe bits: an IDR NALU raises both of its own, an I-slice-only frame the keyframe bit alone. -/
theorem frameStatus_eq_flags (c : Config) (u : Unp) (frame : List Bytes) :
    frameStatus c u frame = u.acc ||| frameAvailable ||| flagIf (hasIdrNal frame || iSliceKey c frame) isKeyFrame
      ||| flagIf (hasIdrNal frame) hasIdr ||| flagIf u.sps.live.isSome hasSps ||| flagIf u.pps.live.isSome hasPps := by
  rw [frameStatus]
  cases hasIdrNal frame
  · simp [flagIf]
  · simp only [flagIf, if_true, Bool.true_or]
    ac_rfl

/-- The bits that are never pending. -/
theorem pending_bit_clear {acc : Status} (h : acc &&& 0xE5 = 0) {k : Nat} (hk : (0xE5 : Status).getLsbD k = true) :
    acc.getLsbD k = false := by
  have hbit : (acc &&& 0xE5).getLsbD k = false := by rw [h]; exact BitVec.getLsbD_zero
  rwa [BitVec.getLsbD_and, hk, Bool.and_true] at hbit

/-- Settles O41: each bit of the status is raised by its own flag alone, and a pending bit by none. -/
theorem frameStatusBits : Obligations.FrameStatusBits := by
  unfold Obligations.FrameStatusBits
  intro c u frame hacc
  have clear {k : Nat} (hk : (0xE5 : Status).getLsbD k = true) : u.acc.getLsbD k = false := pending_bit_clear hacc hk
  simp only [frameStatus_eq_flags, BitVec.getLsbD_or, getLsbD_flagIf, frameAvailable, isKeyFrame, hasIdr, hasSps, hasPps,
    ← hasIdrNal_iff, ← iSliceKey_iff]
  refine ⟨?_, ?_, ?_, ?_, ?_, ?_, ?_, ?_⟩
  · simp
  · simp
  · rw [clear (k := 2) (by decide)]
    simp
  · simp
  · simp
  · rw [clear (k := 5) (by decide)]
    simp [Option.isSome_iff_ne_none]
  · rw [clear (k := 6) (by decide)]
    simp [Option.isSome_iff_ne_none]
  · rw [clear (k := 7) (by decide)]
    simp

end Sys2Proof.Machine

/-! The FU-A and STAP-A family (40_fua_stapa.md): the STAP-A walk, the effect of one FU-A fragment, and the NALU that
fragments in sequence rebuild. -/

namespace Sys2Proof.Machine

/-! ### The STAP-A walk (40_fua_stapa.md R170 to R172) -/

/-- The big-endian size of a unit is that of its bytes. -/
theorem packUnit_of_size {hi lo : Byte} {n : Bytes} (h : n.length = be16 hi lo) : packUnit n = hi :: lo :: n := by
  have hlo := lo.isLt
  have high : (hi.toNat * 256 + lo.toNat) / 256 = hi.toNat := by omega
  have low : (hi.toNat * 256 + lo.toNat) % 256 = lo.toNat := by omega
  rw [packUnit, h, be16, high, low, BitVec.ofNat_toNat, BitVec.ofNat_toNat, BitVec.setWidth_eq, BitVec.setWidth_eq]

/-- Where a walk must stop: one byte left of a size, or a size that is 0 or more than what is left (R172 (a) to (c)). -/
def StapDefect (tail : Bytes) : Prop :=
  tail.length = 1 ∨
  ∃ hi lo rest, tail = hi :: lo :: rest ∧
    (hi.toNat * 256 + lo.toNat = 0 ∨ rest.length < hi.toNat * 256 + lo.toNat)

/-- What a walk's answer says of the bytes walked over: they are the units found, size-prefixed, and then nothing, or in a
corrupt aggregate the first defect. -/
structure StapWalked (body : Bytes) (found : List Bytes × Bool) (tail : Bytes) : Prop where
  body_eq : body = found.1.flatMap packUnit ++ tail
  sized : ∀ n ∈ found.1, 1 ≤ n.length ∧ n.length ≤ 65535
  complete : found.2 = false → tail = []
  defect : found.2 = true → StapDefect tail

/-- A walk that meets a defect at once. -/
theorem StapWalked.of_defect {body : Bytes} (h : StapDefect body) : StapWalked body ([], true) body :=
  ⟨rfl, nofun, nofun, fun _ => h⟩

/-- A well-formed unit in front of a walk. -/
theorem StapWalked.cons {hi lo : Byte} {rest tail : Bytes} {found : List Bytes × Bool} (hpos : be16 hi lo ≠ 0)
    (hle : be16 hi lo ≤ rest.length) (h : StapWalked (rest.drop (be16 hi lo)) found tail) :
    StapWalked (hi :: lo :: rest) (rest.take (be16 hi lo) :: found.1, found.2) tail where
  body_eq := by
    have hunit : packUnit (rest.take (be16 hi lo)) = hi :: lo :: rest.take (be16 hi lo) :=
      packUnit_of_size (List.length_take_of_le hle)
    rw [List.flatMap_cons, hunit, List.append_assoc, ← h.body_eq]
    simp
  sized := by
    intro n hn
    rcases List.mem_cons.mp hn with rfl | hn
    · have hhi := hi.isLt
      have hlo := lo.isLt
      rw [List.length_take_of_le hle]
      unfold be16 at hpos ⊢
      omega
    · exact h.sized n hn
  complete := h.complete
  defect := h.defect

/-- The walk, with fuel for a unit per byte. -/
theorem stapWalk_walked {fuel : Nat} {body : Bytes} (h : body.length ≤ fuel) :
    ∃ tail, StapWalked body (stapWalk fuel body) tail := by
  fun_induction stapWalk fuel body with
  | case1 => exact ⟨[], rfl, nofun, fun _ => rfl, nofun⟩
  | case2 => simp at h
  | case3 => exact ⟨_, .of_defect (.inl rfl)⟩
  | case4 fuel hi lo rest size hsize => exact ⟨_, .of_defect (.inr ⟨hi, lo, rest, rfl, hsize⟩)⟩
  | case5 fuel hi lo rest size hsize more ih =>
    rw [not_or, Nat.not_lt] at hsize
    obtain ⟨hpos, hle⟩ := hsize
    simp only [List.length_cons] at h
    obtain ⟨tail, walked⟩ := ih (by rw [List.length_drop]; omega)
    exact ⟨tail, walked.cons hpos hle⟩

/-- Settles O38: a body that is not empty is walked over as `stapWalk_walked` says, and without a defect it holds a unit. -/
theorem stapSplitFindsTheUnits : Obligations.StapSplitFindsTheUnits := by
  unfold Obligations.StapSplitFindsTheUnits
  intro h body
  cases body with
  | nil => exact ⟨[], rfl, nofun, nofun, fun _ => .inl rfl⟩
  | cons b body =>
    obtain ⟨tail, walked⟩ := stapWalk_walked (Nat.le_refl (b :: body).length)
    refine ⟨tail, walked.body_eq, walked.sized, fun hok => ⟨walked.complete hok, fun hnone => ?_⟩,
      fun hbad => .inr (walked.defect hbad)⟩
    have hbody := walked.body_eq
    rw [walked.complete hok, show (stapWalk (b :: body).length (b :: body)).1 = [] from hnone] at hbody
    exact List.cons_ne_nil _ _ hbody

/-! ### One packet without the marker -/

/-- The reassembler when a packet's payload is looked at: the references written, a gap marked (41_unpacker.md R202,
R203). -/
def Unp.noteHeader (seq : BitVec 16) (ts : BitVec 32) (u : Unp) : Unp :=
  { u with lastTs := some ts, refSeq := some seq, acc := u.acc ||| flagIf (isGap seq u) frameCorrupted }

/-- An unmarked packet of the frame under accumulation does what its payload says, and answers `OK` with status 0. -/
theorem exec_unpPacket_unmarked {seq : BitVec 16} {ts : BitVec 32} {p : Bytes} {s : State}
    (hlen : p.length ≤ s.cfg.maxPayload) (hts : noFlush ts s.unp) :
    exec (.unpPacket seq ts false p) s = .next { s with
      resp := s.resp ++ [⟨.ok, 0, []⟩]
      unp := dispatchPayload s.cfg p (s.unp.noteHeader seq ts) } := by
  have steps : packetSteps seq ts false p s =
      (s.mapUnp fun u => dispatchPayload s.cfg p (u.noteHeader seq ts), 0) := by
    rw [packetSteps, tsFlush_of_noFlush hts]
    dsimp only
    rw [markerOutput_false]
    simp only [seqCheck_eq]
    rfl
  rw [show exec (.unpPacket seq ts false p) s = execUnpPacket seq ts false p s from rfl, execUnpPacket_of_le hlen, steps]
  rfl

/-! ### One fragment fed to the aggregator (40_fua_stapa.md R160 to R168) -/

/-- Why a fragment is dropped: too short (R161), both bits (R167), a start that is too long (R168), no partial NALU (R164,
R165), another type than the partial one's (R166), or too long behind it (R168). -/
inductive FragmentDefect (maxNalu : Nat) (u : Unp) : Bytes → Prop where
  | short {b : Byte} : FragmentDefect maxNalu u [b]
  | bothBits {ind fh : Byte} {frag : Bytes} (hstart : fuStart fh = true) (hend : fuEnd fh = true) :
    FragmentDefect maxNalu u (ind :: fh :: frag)
  | longStart {ind fh : Byte} {frag : Bytes} (hstart : fuStart fh = true) (hsize : maxNalu < frag.length + 1) :
    FragmentDefect maxNalu u (ind :: fh :: frag)
  | noPartial {ind fh : Byte} {frag : Bytes} (hstart : fuStart fh = false) (hidle : u.aggActive = false) :
    FragmentDefect maxNalu u (ind :: fh :: frag)
  | otherType {ind fh : Byte} {frag : Bytes} (hstart : fuStart fh = false) (htype : typeField fh ≠ nalType u.aggBuf) :
    FragmentDefect maxNalu u (ind :: fh :: frag)
  | longContinuation {ind fh : Byte} {frag : Bytes} (hstart : fuStart fh = false)
    (hsize : maxNalu < u.aggBuf.length + frag.length) : FragmentDefect maxNalu u (ind :: fh :: frag)

section
variable {maxNalu : Nat} {ind fh : Byte} {frag : Bytes} {u : Unp}

/-- Resetting an idle aggregator that holds nothing changes nothing. -/
theorem aggReset_of_idle (hidle : u.aggActive = false) (hempty : u.aggBuf = []) : aggReset u = u := by
  rw [aggReset, ← hidle, ← hempty]

/-- So with nothing held when idle, dropping a partial NALU is a reset. -/
theorem aggDrop_of_idleEmpty (hidle : u.aggActive = false → u.aggBuf = []) : aggDrop u = aggReset u := by
  cases h : u.aggActive with
  | false => rw [aggReset_of_idle h (hidle h), aggDrop, h]; rfl
  | true => rw [aggDrop, h]; rfl

theorem aggFeed_of_bothBits (hstart : fuStart fh = true) (hend : fuEnd fh = true) :
    aggFeed maxNalu (ind :: fh :: frag) u = ⟨aggDrop u, none, true⟩ := by
  simp [aggFeed, hstart, hend]

theorem aggFeed_of_start (hstart : fuStart fh = true) (hend : fuEnd fh = false) :
    aggFeed maxNalu (ind :: fh :: frag) u = aggStart maxNalu ind fh frag u := by
  simp [aggFeed, hstart, hend]

theorem aggFeed_of_noPartial (hstart : fuStart fh = false) (hidle : u.aggActive = false) :
    aggFeed maxNalu (ind :: fh :: frag) u = ⟨u, none, true⟩ := by
  simp [aggFeed, hstart, hidle]

theorem aggFeed_of_otherType (hstart : fuStart fh = false) (hactive : u.aggActive = true)
    (htype : typeField fh ≠ nalType u.aggBuf) : aggFeed maxNalu (ind :: fh :: frag) u = ⟨aggReset u, none, true⟩ := by
  simp [aggFeed, hstart, hactive, htype]

theorem aggFeed_of_continuation (hstart : fuStart fh = false) (hactive : u.aggActive = true)
    (htype : typeField fh = nalType u.aggBuf) :
    aggFeed maxNalu (ind :: fh :: frag) u = aggContinue maxNalu (fuEnd fh) frag u := by
  simp [aggFeed, hstart, hactive, htype]

/-- A start fragment within `P_MAX_NALU` begins a NALU. -/
theorem aggStart_of_le (hsize : frag.length + 1 ≤ maxNalu) :
    aggStart maxNalu ind fh frag u =
      ⟨{ u with aggActive := true, aggBuf := fuNalHeader ind fh :: frag }, none, u.aggActive⟩ := by
  simp [aggStart, sizeOver, Nat.not_lt.mpr hsize]

theorem aggStart_of_lt (hsize : maxNalu < frag.length + 1) :
    aggStart maxNalu ind fh frag u = ⟨aggReset u, none, true⟩ := by
  simp [aggStart, sizeOver, hsize, aggReset]

/-- A middle fragment within `P_MAX_NALU` extends the partial NALU. -/
theorem aggContinue_middle (hsize : u.aggBuf.length + frag.length ≤ maxNalu) :
    aggContinue maxNalu false frag u = ⟨{ u with aggBuf := u.aggBuf ++ frag }, none, false⟩ := by
  simp [aggContinue, sizeOver, hsize]

/-- An end fragment within `P_MAX_NALU` completes the partial NALU. -/
theorem aggContinue_end (hsize : u.aggBuf.length + frag.length ≤ maxNalu) :
    aggContinue maxNalu true frag u = ⟨aggReset u, some (u.aggBuf ++ frag), false⟩ := by
  simp [aggContinue, sizeOver, hsize, aggReset]

theorem aggContinue_of_lt {last : Bool} (hsize : maxNalu < u.aggBuf.length + frag.length) :
    aggContinue maxNalu last frag u = ⟨aggReset u, none, true⟩ := by
  simp [aggContinue, sizeOver, hsize, aggReset]

/-- A defective fragment is dropped, and the partial NALU with it. -/
theorem aggFeed_of_defect {p : Bytes} (h : FragmentDefect maxNalu u p) (hidle : u.aggActive = false → u.aggBuf = []) :
    aggFeed maxNalu p u = ⟨aggReset u, none, true⟩ := by
  have noPartial {ind fh : Byte} {frag : Bytes} (hstart : fuStart fh = false) (h : u.aggActive = false) :
      aggFeed maxNalu (ind :: fh :: frag) u = ⟨aggReset u, none, true⟩ := by
    rw [aggFeed_of_noPartial hstart h, aggReset_of_idle h (hidle h)]
  cases h with
  | short => rw [← aggDrop_of_idleEmpty hidle]; rfl
  | bothBits hstart hend => rw [aggFeed_of_bothBits hstart hend, aggDrop_of_idleEmpty hidle]
  | @longStart ind fh frag hstart hsize =>
    cases hend : fuEnd fh with
    | true => rw [aggFeed_of_bothBits hstart hend, aggDrop_of_idleEmpty hidle]
    | false => rw [aggFeed_of_start hstart hend, aggStart_of_lt hsize]
  | noPartial hstart h => exact noPartial hstart h
  | @otherType ind fh frag hstart htype =>
    cases hactive : u.aggActive with
    | true => rw [aggFeed_of_otherType hstart hactive htype]
    | false => exact noPartial hstart hactive
  | @longContinuation ind fh frag hstart hsize =>
    cases hactive : u.aggActive with
    | false => exact noPartial hstart hactive
    | true =>
      by_cases htype : typeField fh = nalType u.aggBuf
      · rw [aggFeed_of_continuation hstart hactive htype, aggContinue_of_lt hsize]
      · rw [aggFeed_of_otherType hstart hactive htype]

end

/-! ### One fragment taken over by the reassembler (41_unpacker.md R204, R206) -/

section
variable {c : Config} {ind fh : Byte} {frag p : Bytes} {u : Unp}

theorem dispatchPayload_of_fuA (hp : p ≠ []) (htype : nalType p = 28) :
    dispatchPayload c p u = takeAgg c (aggFeed c.maxNalu p u) := by
  rw [dispatchPayload, if_neg hp, if_pos (c := nalType p = typeFuA) htype]

theorem takeAgg_of_done (n : Bytes) : takeAgg c ⟨u, some n, false⟩ = withStored c [n] u := by
  rw [← storeNal_eq]
  simp [takeAgg, accSet, flagIf]

theorem dispatchPayload_of_defect (hp : p ≠ []) (htype : nalType p = 28) (h : FragmentDefect c.maxNalu u p)
    (hidle : u.aggActive = false → u.aggBuf = []) :
    dispatchPayload c p u = { u with aggActive := false, aggBuf := [], acc := u.acc ||| frameCorrupted } := by
  rw [dispatchPayload_of_fuA hp htype, aggFeed_of_defect h hidle]
  rfl

theorem dispatchPayload_start (hfuA : nalType (ind :: fh :: frag) = 28) (hstart : fuStart fh = true)
    (hend : fuEnd fh = false) (hsize : frag.length + 1 ≤ c.maxNalu) :
    dispatchPayload c (ind :: fh :: frag) u = { u with
      aggActive := true, aggBuf := fuNalHeader ind fh :: frag, acc := u.acc ||| flagIf u.aggActive frameCorrupted } := by
  rw [dispatchPayload_of_fuA (by simp) hfuA, aggFeed_of_start hstart hend, aggStart_of_le hsize]
  rfl

theorem dispatchPayload_middle (hfuA : nalType (ind :: fh :: frag) = 28) (hstart : fuStart fh = false)
    (hend : fuEnd fh = false) (hactive : u.aggActive = true) (htype : typeField fh = nalType u.aggBuf)
    (hsize : u.aggBuf.length + frag.length ≤ c.maxNalu) :
    dispatchPayload c (ind :: fh :: frag) u = { u with aggBuf := u.aggBuf ++ frag } := by
  rw [dispatchPayload_of_fuA (by simp) hfuA, aggFeed_of_continuation hstart hactive htype, hend, aggContinue_middle hsize]
  simp [takeAgg, accSet, flagIf]

theorem dispatchPayload_end (hfuA : nalType (ind :: fh :: frag) = 28) (hstart : fuStart fh = false)
    (hend : fuEnd fh = true) (hactive : u.aggActive = true) (htype : typeField fh = nalType u.aggBuf)
    (hsize : u.aggBuf.length + frag.length ≤ c.maxNalu) :
    dispatchPayload c (ind :: fh :: frag) u =
      withStored c [u.aggBuf ++ frag] { u with aggActive := false, aggBuf := [] } := by
  rw [dispatchPayload_of_fuA (by simp) hfuA, aggFeed_of_continuation hstart hactive htype, hend, aggContinue_end hsize,
    takeAgg_of_done]
  rfl

end

/-- The malformed fragments of the statement, case by case. -/
theorem fragmentDefect_of_malformed {maxNalu : Nat} {u : Unp} {p : Bytes}
    (h : p.length = 1 ∨
      ∃ ind fh frag, p = ind :: fh :: frag ∧
        ((fuStart fh = true ∧ fuEnd fh = true) ∨
         (fuStart fh = true ∧ maxNalu < frag.length + 1) ∨
         (fuStart fh = false ∧
           (u.aggActive = false ∨ typeField fh ≠ nalType u.aggBuf ∨ maxNalu < u.aggBuf.length + frag.length)))) :
    FragmentDefect maxNalu u p := by
  rcases h with hshort | ⟨ind, fh, frag, rfl, ⟨hs, he⟩ | ⟨hs, hsize⟩ | ⟨hs, hidle | htype | hsize⟩⟩
  · obtain ⟨b, rfl⟩ := List.length_eq_one_iff.mp hshort
    exact .short
  · exact .bothBits hs he
  · exact .longStart hs hsize
  · exact .noPartial hs hidle
  · exact .otherType hs htype
  · exact .longContinuation hs hsize

/-- Settles O39: a packet's header noted, then the fragment's effect by its kind. -/
theorem fragmentEffects : Obligations.FragmentEffects := by
  unfold Obligations.FragmentEffects
  intro seq ts p s hfuA hp hlen hts hidle
  rw [exec_unpPacket_unmarked hlen hts]
  refine ⟨fun hbad => ?malformed, ?start, ?middle, ?last⟩
  case malformed =>
    have hdefect : FragmentDefect s.cfg.maxNalu (s.unp.noteHeader seq ts) p := fragmentDefect_of_malformed hbad
    rw [dispatchPayload_of_defect hp hfuA hdefect hidle]
    rfl
  case start =>
    rintro ind fh frag rfl hstart hend hsize
    rw [dispatchPayload_start hfuA hstart hend hsize]
    rfl
  case middle =>
    rintro ind fh frag rfl hstart hend hactive htype hsize
    rw [dispatchPayload_middle (u := s.unp.noteHeader seq ts) hfuA hstart hend hactive htype hsize]
    rfl
  case last =>
    rintro ind fh frag rfl hstart hend hactive htype hsize
    rw [dispatchPayload_end (u := s.unp.noteHeader seq ts) hfuA hstart hend hactive htype hsize]
    rfl

/-! ### The FU header's bits (30_encoding.md R133, R134) -/

section
variable (flags : BitVec 3) (typ : BitVec 5)

theorem fuStart_append : fuStart (flags ++ typ) = flags.getLsbD 2 := BitVec.getLsbD_append

theorem fuEnd_append : fuEnd (flags ++ typ) = flags.getLsbD 1 := BitVec.getLsbD_append

theorem typeField_append : typeField (flags ++ typ) = typ := BitVec.extractLsb'_append_eq_right

/-- The low five bits alone are the type. -/
theorem append_and_typeMask : (flags ++ typ) &&& 0x1F#8 = 0b000#3 ++ typ := by
  rw [show 0x1F#8 = 0b000#3 ++ BitVec.allOnes 5 from rfl, BitVec.and_append, BitVec.and_allOnes]
  simp

/-- The header a start fragment begins its NALU with keeps the indicator's `F` and `NRI`, and takes the type alone from the
FU header. -/
theorem fuNalHeader_append (ind : Byte) : fuNalHeader ind (flags ++ typ) = (ind &&& 0xE0) ||| (0b000#3 ++ typ) :=
  congrArg _ (append_and_typeMask flags typ)

/-- So the NALU has the type the fragments carry. -/
theorem nalType_fuNalHeader_append (ind : Byte) (rest : Bytes) : nalType (fuNalHeader ind (flags ++ typ) :: rest) = typ := by
  have cleared : (ind &&& 0xE0).extractLsb' 0 5 = 0 := by
    rw [BitVec.extractLsb'_and]
    exact BitVec.and_zero
  rw [fuNalHeader_append, nalType, typeField, nalHeader, List.headD_cons, BitVec.extractLsb'_or, cleared,
    BitVec.extractLsb'_append_eq_right]
  exact BitVec.zero_or

end

/-! ### Fragments in sequence (40_fua_stapa.md R162, R164, R165) -/

/-- Commands run one after the other. -/
theorem runCommands_append {is : List Instr} {s t : State} (h : runCommands is s = .next t) (js : List Instr) :
    runCommands (is ++ js) s = runCommands js t := by
  induction is generalizing s with
  | nil => rw [Host.Outcome.next.inj h, List.nil_append]
  | cons i is ih =>
    rw [List.cons_append, runCommands]
    rw [runCommands] at h
    split at h
    · exact ih h
    · cases h
    · cases h

theorem runCommands_singleton {i : Instr} {s t : State} (h : exec i s = .next t) : runCommands [i] s = .next t := by
  rw [runCommands, h]
  rfl

/-- The state amid a NALU's fragments: `n` of them taken over, the last under `ts` and numbered `seq`, the bytes of the NALU
so far held. -/
def State.amidFragments (s : State) (n : Nat) (ts : BitVec 32) (seq : BitVec 16) (held : Bytes) : State :=
  { s with
    resp := s.resp ++ List.replicate n ⟨.ok, 0, []⟩
    unp := { s.unp with lastTs := some ts, refSeq := some seq, aggActive := true, aggBuf := held } }

/-- A packet in sequence writes the references alone. -/
theorem Unp.noteHeader_of_noGap {seq : BitVec 16} {u : Unp} (h : isGap seq u = false) (ts : BitVec 32) :
    u.noteHeader seq ts = { u with lastTs := some ts, refSeq := some seq } := by
  simp [Unp.noteHeader, h, flagIf]

theorem isGap_of_expected {seq : BitVec 16} {u : Unp} (h : u.refSeq = none ∨ u.refSeq = some (seq - 1)) :
    isGap seq u = false := by
  rcases h with h | h <;> simp [isGap, h]

theorem isGap_amidFragments (s : State) (n : Nat) (ts : BitVec 32) (seq : BitVec 16) (held : Bytes) :
    isGap (seq + 1) (s.amidFragments n ts seq held).unp = false := by
  simp [isGap, State.amidFragments]

theorem add_ofNat_succ (seq : BitVec 16) (n : Nat) : seq + BitVec.ofNat 16 (n + 1) = seq + BitVec.ofNat 16 n + 1 := by
  rw [BitVec.ofNat_add, ← BitVec.add_assoc]
  rfl

section
variable {s : State} {seq : BitVec 16} {ts : BitVec 32} {ind : Byte} {typ : BitVec 5} {frag held : Bytes} {n : Nat}

/-- The start fragment. -/
theorem exec_startFragment (hind : typeField ind = 28) (hidle : s.unp.aggActive = false) (hts : noFlush ts s.unp)
    (hseq : s.unp.refSeq = none ∨ s.unp.refSeq = some (seq - 1)) (hsize : frag.length + 1 ≤ s.cfg.maxNalu)
    (hlen : frag.length + 2 ≤ s.cfg.maxPayload) :
    exec (.unpPacket seq ts false (ind :: (0b100#3 ++ typ) :: frag)) s =
      .next (s.amidFragments 1 ts seq (fuNalHeader ind (0b100#3 ++ typ) :: frag)) := by
  refine (exec_unpPacket_unmarked (by exact hlen) hts).trans ?_
  rw [Unp.noteHeader_of_noGap (isGap_of_expected hseq),
    dispatchPayload_start hind (fuStart_append ..) (fuEnd_append ..) hsize]
  simp [State.amidFragments, hidle, flagIf]

/-- A middle fragment numbered next. -/
theorem exec_middleFragment (hind : typeField ind = 28) (htype : nalType held = typ)
    (hsize : held.length + frag.length ≤ s.cfg.maxNalu) (hlen : frag.length + 2 ≤ s.cfg.maxPayload) :
    exec (.unpPacket (seq + 1) ts false (ind :: (0b000#3 ++ typ) :: frag)) (s.amidFragments n ts seq held) =
      .next (s.amidFragments (n + 1) ts (seq + 1) (held ++ frag)) := by
  refine (exec_unpPacket_unmarked (by exact hlen) (.inr (.inl rfl))).trans ?_
  rw [Unp.noteHeader_of_noGap (isGap_amidFragments ..),
    dispatchPayload_middle hind (fuStart_append ..) (fuEnd_append ..) rfl ((typeField_append ..).trans htype.symm) hsize]
  simp [State.amidFragments, List.replicate_succ']

/-- The end fragment numbered next. -/
theorem exec_endFragment (hind : typeField ind = 28) (htype : nalType held = typ)
    (hsize : held.length + frag.length ≤ s.cfg.maxNalu) (hlen : frag.length + 2 ≤ s.cfg.maxPayload) :
    exec (.unpPacket (seq + 1) ts false (ind :: (0b010#3 ++ typ) :: frag)) (s.amidFragments n ts seq held) =
      .next { s with
        resp := s.resp ++ List.replicate (n + 1) ⟨.ok, 0, []⟩
        unp := withStored s.cfg [held ++ frag] { s.unp with
          lastTs := some ts, refSeq := some (seq + 1), aggActive := false, aggBuf := [] } } := by
  refine (exec_unpPacket_unmarked (by exact hlen) (.inr (.inl rfl))).trans ?_
  rw [Unp.noteHeader_of_noGap (isGap_amidFragments ..),
    dispatchPayload_end hind (fuStart_append ..) (fuEnd_append ..) rfl ((typeField_append ..).trans htype.symm) hsize]
  simp [State.amidFragments, List.replicate_succ']

/-- The start fragment and any number of middle ones. -/
theorem runCommands_fragments {first : Bytes} (mids : List Bytes) (hind : typeField ind = 28)
    (hidle : s.unp.aggActive = false) (hts : noFlush ts s.unp)
    (hseq : s.unp.refSeq = none ∨ s.unp.refSeq = some (seq - 1))
    (hsize : 1 + first.length + mids.flatten.length ≤ s.cfg.maxNalu)
    (hlen : ∀ f ∈ first :: mids, f.length + 2 ≤ s.cfg.maxPayload) :
    runCommands
      (.unpPacket seq ts false (ind :: (0b100#3 ++ typ) :: first) ::
        mids.mapIdx fun j f => .unpPacket (seq + BitVec.ofNat 16 (j + 1)) ts false (ind :: (0b000#3 ++ typ) :: f)) s =
      .next (s.amidFragments (mids.length + 1) ts (seq + BitVec.ofNat 16 mids.length)
        (fuNalHeader ind (0b100#3 ++ typ) :: (first ++ mids.flatten))) := by
  induction mids using List.reverseRecOn with
  | nil =>
    have hfirst : first.length + 1 ≤ s.cfg.maxNalu := by simpa [Nat.add_comm] using hsize
    simpa using runCommands_singleton (exec_startFragment (typ := typ) hind hidle hts hseq hfirst (hlen first (by simp)))
  | append_singleton mids mid ih =>
    simp only [List.flatten_append, List.flatten_singleton, List.length_append] at hsize
    have before := ih (by omega) fun f hf => hlen f (List.cons_subset_cons first (List.subset_append_left mids [mid]) hf)
    have hheld : (fuNalHeader ind (0b100#3 ++ typ) :: (first ++ mids.flatten)).length + mid.length ≤ s.cfg.maxNalu := by
      simp only [List.length_cons, List.length_append]
      omega
    rw [List.mapIdx_concat, ← List.cons_append, runCommands_append before, add_ofNat_succ,
      runCommands_singleton (exec_middleFragment hind (nalType_fuNalHeader_append ..) hheld (hlen mid (by simp)))]
    simp [add_ofNat_succ]

end

/-- Settles O40: the last fragment completes the NALU that `runCommands_fragments` holds before it. -/
theorem fragmentsRebuildTheNalu : Obligations.FragmentsRebuildTheNalu := by
  unfold Obligations.FragmentsRebuildTheNalu
  intro s seq ts ind typ first mids last hind hidle hempty hts hseq hsize hlen
  have before := runCommands_fragments (typ := typ) (first := first) mids hind hidle hts hseq (by omega)
    fun f hf => hlen f (List.cons_subset_cons first (List.subset_cons_self last mids) hf)
  have hheld : (fuNalHeader ind (0b100#3 ++ typ) :: (first ++ mids.flatten)).length + last.length ≤ s.cfg.maxNalu := by
    simp only [List.length_cons, List.length_append]
    omega
  rw [runCommands_append before, add_ofNat_succ,
    runCommands_singleton (exec_endFragment hind (nalType_fuNalHeader_append ..) hheld (hlen last (by simp)))]
  simp [fuNalHeader_append, ← hidle, ← hempty]

end Sys2Proof.Machine

/-! The reassembler family (41_unpacker.md): packets and the frames they output, parameter sets, the I-slice heuristic's
codes, and the other commands. -/

namespace Sys2Proof.Machine

/-! ### What a payload does (41_unpacker.md R204 to R208) -/

section
variable {c : Config} {p : Bytes} {u : Unp}

/-- An empty payload has type 0. -/
theorem ne_nil_of_nalType_ne_zero (h : nalType p ≠ 0) : p ≠ [] := by
  rintro rfl
  exact h rfl

theorem dispatchPayload_nil : dispatchPayload c [] u = accSet frameCorrupted (aggDrop u) := rfl

theorem dispatchPayload_raw (hp : p ≠ []) (hfuA : nalType p ≠ typeFuA) (hstapA : nalType p ≠ typeStapA) :
    dispatchPayload c p u = storeNal c p (dropPartial u) := by
  rw [dispatchPayload, if_neg hp, if_neg hfuA, if_neg hstapA]

theorem dispatchPayload_plain (hp : isPlainNal p) :
    dispatchPayload c p u = { dropPartial u with rq := (dropPartial u).rq ++ [p] } := by
  obtain ⟨hne, hsps, hpps, hstapA, hfuA⟩ := hp
  rw [dispatchPayload_raw hne hfuA hstapA, storeNal_plain hsps hpps]

/-- A parameter set is stored like any NALU, and written to its kind's registers, a pending injection of the kind lost. -/
theorem dispatchPayload_ps {k : PsKind} (hk : nalType p = psType k) :
    dispatchPayload c p u =
      Unp.setPs { dropPartial u with
        rq := (dropPartial u).rq ++ [p], acc := (dropPartial u).acc ||| psNews c k ((dropPartial u).ps k).last p }
        k ⟨some p, .inBand, false, some p⟩ := by
  have htype : nalType p ≠ 0 ∧ nalType p ≠ typeFuA ∧ nalType p ≠ typeStapA := by
    rw [hk]
    cases k <;> decide
  obtain ⟨hne, hfuA, hstapA⟩ := htype
  rw [dispatchPayload_raw (ne_nil_of_nalType_ne_zero hne) hfuA hstapA, storeNal_ps hk, psStore_eq]
  cases k <;> rfl

theorem dispatchPayload_stapA (hp : nalType p = 24) :
    dispatchPayload c p u =
      withStored c (stapSplit p).1 (accSet (flagIf (stapSplit p).2 frameCorrupted) (dropPartial u)) := by
  have hfuA : nalType p ≠ typeFuA := by
    rw [hp]
    decide
  have hne : p ≠ [] := ne_nil_of_nalType_ne_zero (by rw [hp]; decide)
  rw [dispatchPayload, if_neg hne, if_neg hfuA, if_pos (c := nalType p = typeStapA) hp]
  exact foldl_storeNal_eq ..

end

/-- Settles O34: the header noted, then a plain payload's effect. -/
theorem rawNaluIsStored : Obligations.RawNaluIsStored := by
  unfold Obligations.RawNaluIsStored
  intro seq ts p s hp hlen hts
  rw [exec_unpPacket_unmarked hlen hts, dispatchPayload_plain hp, dropPartial_eq]
  rfl

/-- Settles O35: the news is reckoned as `psNews_eq` says. -/
theorem inBandParameterSetIsTracked : Obligations.InBandParameterSetIsTracked := by
  unfold Obligations.InBandParameterSetIsTracked
  intro k seq ts p s _ hk hlen hts
  rw [exec_unpPacket_unmarked hlen hts, dispatchPayload_ps hk, dropPartial_eq, ← psNews_eq]
  cases k <;> rfl

/-- Settles O37: the header noted, then an aggregate's effect. -/
theorem aggregateUnitsAreStored : Obligations.AggregateUnitsAreStored := by
  unfold Obligations.AggregateUnitsAreStored
  intro seq ts p s hp hlen hts
  rw [exec_unpPacket_unmarked hlen hts, dispatchPayload_stapA hp, dropPartial_eq]
  rfl

/-! ### The steps of a packet (41_unpacker.md R200) -/

theorem packetSteps_eq (seq : BitVec 16) (ts : BitVec 32) (m : Bool) (p : Bytes) (s : State) :
    packetSteps seq ts m p s =
      ((markerOutput m ((tsFlush ts s).1.mapUnp fun u => dispatchPayload s.cfg p (u.noteHeader seq ts))).1,
        (tsFlush ts s).2 |||
          (markerOutput m ((tsFlush ts s).1.mapUnp fun u => dispatchPayload s.cfg p (u.noteHeader seq ts))).2) := by
  simp only [packetSteps, seqCheck_eq]
  rfl

/-- A status byte as the value of a response. -/
theorem zeroExtend_status (st : Status) : BitVec.zeroExtend 32 st = 0#24 ++ st :=
  BitVec.setWidth_eq_append (by decide)

theorem append_zero_status : 0#24 ++ (0 : Status) = 0 := by decide

/-- A packet that is not too long answers `OK` with the call status. -/
theorem exec_unpPacket_of_le {seq : BitVec 16} {ts : BitVec 32} {m : Bool} {p : Bytes} {s : State}
    (hlen : p.length ≤ s.cfg.maxPayload) :
    exec (.unpPacket seq ts m p) s =
      .next ((packetSteps seq ts m p s).1.respond ⟨.ok, 0#24 ++ (packetSteps seq ts m p s).2, []⟩) := by
  rw [← zeroExtend_status]
  exact execUnpPacket_of_le hlen

/-- The call status is the OR of the two frames' (41_unpacker.md R201). -/
theorem exec_unpPacket_eq {seq : BitVec 16} {ts : BitVec 32} {m : Bool} {p : Bytes} {s w t : State} {st₁ st₂ : Status}
    (hlen : p.length ≤ s.cfg.maxPayload) (hflush : tsFlush ts s = (w, st₁))
    (hmarker : markerOutput m (w.mapUnp fun u => dispatchPayload s.cfg p (u.noteHeader seq ts)) = (t, st₂)) :
    exec (.unpPacket seq ts m p) s = .next (t.respond ⟨.ok, 0#24 ++ (st₁ ||| st₂), []⟩) := by
  rw [exec_unpPacket_of_le hlen, packetSteps_eq, hflush, hmarker]

theorem exec_unpPacket_of_lt {seq : BitVec 16} {ts : BitVec 32} {m : Bool} {p : Bytes} {s : State}
    (hlen : s.cfg.maxPayload < p.length) : exec (.unpPacket seq ts m p) s = raise .illegal s := if_pos hlen

/-- A frame's output leaves nothing stored, and keeps the aggregator and the references. -/
theorem outputFrame_frame (s : State) :
    ∃ acc sps pps outq, (outputFrame s).1.unp = { s.unp with rq := [], acc := acc, sps := sps, pps := pps, outq := outq } := by
  by_cases hrq : s.unp.rq = []
  · rw [outputFrame_of_empty hrq, ← hrq]
    exact ⟨_, _, _, _, rfl⟩
  · obtain ⟨acc, sps, pps, hv⟩ := oobPrefix_frame s.cfg s.unp
    obtain ⟨pre, v, st, hpre, -, ⟨-, houtput⟩ | ⟨-, houtput⟩⟩ := outputFrame_of_nonempty hrq
    all_goals
      rw [hpre] at hv
      subst hv
      rw [houtput]
      exact ⟨_, _, _, _, rfl⟩

theorem markerOutput_references (m : Bool) (s : State) :
    (markerOutput m s).1.unp.lastTs = s.unp.lastTs ∧ (markerOutput m s).1.unp.refSeq = s.unp.refSeq := by
  cases m with
  | false => exact ⟨rfl, rfl⟩
  | true =>
    obtain ⟨_, _, _, _, hframe⟩ := outputFrame_frame (s.mapUnp dropPartial)
    rw [markerOutput_true, hframe, State.mapUnp_unp, dropPartial_eq]
    exact ⟨rfl, rfl⟩

/-- The marker leaves no frame in progress. -/
theorem markerOutput_true_idle (s : State) :
    (markerOutput true s).1.unp.rq = [] ∧ (markerOutput true s).1.unp.aggActive = false := by
  obtain ⟨_, _, _, _, hframe⟩ := outputFrame_frame (s.mapUnp dropPartial)
  rw [markerOutput_true, hframe, State.mapUnp_unp, dropPartial_eq]
  exact ⟨rfl, rfl⟩

/-- Settles O33: the payload's work keeps the references just noted, and the marker's does too. -/
theorem packetAnswersOkUnlessTooLong : Obligations.PacketAnswersOkUnlessTooLong := by
  unfold Obligations.PacketAnswersOkUnlessTooLong
  intro seq ts m p s
  refine ⟨fun hlong => (exec_unpPacket_of_lt hlong).trans (raise_eq_next ..), fun hlen => ?_⟩
  have work := packetSteps_work seq ts m p s
  obtain ⟨_, hcmd, hresp⟩ := packetSteps_sameHostSide seq ts m p s
  refine ⟨_, _, exec_unpPacket_of_le hlen, by rw [State.respond_resp, hresp], work.cfg, hcmd, work.mix, ?_⟩
  rw [State.respond_unp, packetSteps_eq]
  obtain ⟨hts, hseq⟩ := markerOutput_references m
    ((tsFlush ts s).1.mapUnp fun u => dispatchPayload s.cfg p (u.noteHeader seq ts))
  obtain ⟨_, _, _, _, _, _, hpayload⟩ := dispatchPayload_frame s.cfg p ((tsFlush ts s).1.unp.noteHeader seq ts)
  refine ⟨?_, ?_, ?_⟩
  · rw [hts, State.mapUnp_unp, hpayload]
    rfl
  · rw [hseq, State.mapUnp_unp, hpayload]
    rfl
  · rintro rfl
    exact markerOutput_true_idle _

/-! ### A frame's output (41_unpacker.md R212, R213, R216) -/

section
variable {s : State} {pre frame : List Bytes} {v : Unp} {st : Status} (hrq : s.unp.rq ≠ [])
  (hpre : oobPrefix s.cfg s.unp = (pre, v)) (hframe : frame = pre ++ s.unp.rq) (hst : st = frameStatus s.cfg v frame)
include hrq hpre hframe hst

theorem outputFrame_queued (hroom : ∀ cap, s.cfg.unpOutqCap = some cap → s.unp.outq.length + frame.length ≤ cap) :
    outputFrame s = ({ s with
      unp := { v with rq := [], acc := 0, outq := s.unp.outq ++ frameEntries st frame } }, st) := by
  subst hframe hst
  obtain ⟨_, _, _, hpre', rfl, ⟨-, houtput⟩ | ⟨hfull, -⟩⟩ := outputFrame_of_nonempty hrq
  all_goals obtain ⟨rfl, rfl⟩ := Prod.mk.inj (hpre.symm.trans hpre')
  · exact houtput
  · rw [fits_iff.mpr hroom] at hfull
    cases hfull

theorem outputFrame_dropped (hfull : ∃ cap, s.cfg.unpOutqCap = some cap ∧ cap < s.unp.outq.length + frame.length) :
    outputFrame s = ({ s with fault := s.fault ||| 0x1, unp := { v with rq := [], acc := 0 } }, st) := by
  subst hframe hst
  obtain ⟨_, _, _, hpre', rfl, ⟨hroom, -⟩ | ⟨-, houtput⟩⟩ := outputFrame_of_nonempty hrq
  all_goals obtain ⟨rfl, rfl⟩ := Prod.mk.inj (hpre.symm.trans hpre')
  · rw [not_fits_iff.mpr hfull] at hroom
    cases hroom
  · exact houtput

end

/-! ### The frame a marker ends (41_unpacker.md R210, R211) -/

theorem dropPartial_of_idle {u : Unp} (hidle : u.aggActive = false) : dropPartial u = u := by
  rw [dropPartial, hidle]
  rfl

section
variable {seq : BitVec 16} {ts : BitVec 32} {p : Bytes} {s : State} {u v : Unp} {pre frame : List Bytes} {st : Status}
  (hlen : p.length ≤ s.cfg.maxPayload) (hts : noFlush ts s.unp)
  (hu : dropPartial (dispatchPayload s.cfg p (s.unp.noteHeader seq ts)) = u)
include hlen hts hu

/-- A marked packet of the frame under accumulation outputs the frame its payload leaves, without a partial FU-A. -/
theorem exec_unpPacket_marked {t : State} (houtput : outputFrame { s with unp := u } = (t, st)) :
    exec (.unpPacket seq ts true p) s = .next (t.respond ⟨.ok, 0#24 ++ st, []⟩) := by
  subst hu
  rw [exec_unpPacket_eq hlen (tsFlush_of_noFlush hts) (markerOutput_true _ |>.trans houtput),
    show 0 ||| st = st from BitVec.zero_or]

theorem exec_unpPacket_marked_empty (hrq : u.rq = []) :
    exec (.unpPacket seq ts true p) s = .next { s with resp := s.resp ++ [⟨.ok, 0, []⟩], unp := u } := by
  rw [exec_unpPacket_marked hlen hts hu (outputFrame_of_empty hrq), append_zero_status]
  rfl

omit hlen hts in
theorem outq_of_marked : u.outq = s.unp.outq := by
  rw [← hu, dropPartial_outq, dispatchPayload_outq]
  rfl

variable (hrq : u.rq ≠ []) (hpre : oobPrefix s.cfg u = (pre, v)) (hframe : frame = pre ++ u.rq)
  (hst : st = frameStatus s.cfg v frame)
include hrq hpre hframe hst

theorem exec_unpPacket_marked_queued
    (hroom : ∀ cap, s.cfg.unpOutqCap = some cap → s.unp.outq.length + frame.length ≤ cap) :
    exec (.unpPacket seq ts true p) s = .next { s with
      resp := s.resp ++ [⟨.ok, 0#24 ++ st, []⟩]
      unp := { v with rq := [], acc := 0, outq := s.unp.outq ++ frameEntries st frame } } := by
  rw [← outq_of_marked hu] at hroom ⊢
  exact exec_unpPacket_marked hlen hts hu
    (outputFrame_queued (s := { s with unp := u }) hrq hpre hframe hst hroom)

theorem exec_unpPacket_marked_dropped
    (hfull : ∃ cap, s.cfg.unpOutqCap = some cap ∧ cap < s.unp.outq.length + frame.length) :
    exec (.unpPacket seq ts true p) s = .next { s with
      resp := s.resp ++ [⟨.ok, 0#24 ++ st, []⟩]
      fault := s.fault ||| 0x1
      unp := { v with rq := [], acc := 0 } } := by
  rw [← outq_of_marked hu] at hfull
  exact exec_unpPacket_marked hlen hts hu
    (outputFrame_dropped (s := { s with unp := u }) hrq hpre hframe hst hfull)

end

/-- Settles O36: with the marker there is nothing to output, and no partial FU-A is left. -/
theorem emptyPayloadIsCorruption : Obligations.EmptyPayloadIsCorruption := by
  unfold Obligations.EmptyPayloadIsCorruption
  intro seq ts m s hts hm
  have hlen : ([] : Bytes).length ≤ s.cfg.maxPayload := Nat.zero_le _
  cases m with
  | false =>
    rw [exec_unpPacket_unmarked hlen hts, dispatchPayload_nil, aggDrop_eq]
    rfl
  | true =>
    have hrq : s.unp.rq = [] := by simpa using hm
    have hstored : dropPartial (dispatchPayload s.cfg [] (s.unp.noteHeader seq ts)) =
        accSet frameCorrupted (aggDrop (s.unp.noteHeader seq ts)) := by
      rw [dispatchPayload_nil, aggDrop_eq]
      exact dropPartial_of_idle rfl
    rw [aggDrop_eq] at hstored
    exact exec_unpPacket_marked_empty hlen hts hstored hrq

/-- Settles O44: the marker's work is `exec_unpPacket_marked`, on what the packet leaves without it. -/
theorem markerEndsEveryPacket : Obligations.MarkerEndsEveryPacket := by
  unfold Obligations.MarkerEndsEveryPacket
  intro seq ts p s hlen hts
  refine ⟨_, _, exec_unpPacket_unmarked hlen hts, rfl, fun hrq => exec_unpPacket_marked_empty hlen hts rfl hrq, ?_⟩
  intro pre v frame st hrq hpre hframe hst
  exact ⟨exec_unpPacket_marked_queued hlen hts rfl hrq hpre hframe hst,
    exec_unpPacket_marked_dropped hlen hts rfl hrq hpre hframe hst⟩

section
variable {c : Config} {p : Bytes} {u : Unp} (hp : isPlainNal p) (hidle : u.aggActive = false)
include hp hidle

theorem dispatchPayload_plain_of_idle : dispatchPayload c p u = { u with rq := u.rq ++ [p] } := by
  rw [dispatchPayload_plain hp, dropPartial_of_idle hidle]

/-- Without a partial FU-A, nothing is left to drop behind a raw NALU. -/
theorem dropPartial_dispatchPayload_plain : dropPartial (dispatchPayload c p u) = { u with rq := u.rq ++ [p] } := by
  rw [dispatchPayload_plain_of_idle hp hidle]
  exact dropPartial_of_idle hidle

end

/-- Settles O43: the frame is the stored NALUs and the packet's own. -/
theorem markerOutputsTheFrame : Obligations.MarkerOutputsTheFrame := by
  unfold Obligations.MarkerOutputsTheFrame
  intro seq ts p s st hp hlen hts hidle hsps hpps hst
  have hstored := dropPartial_dispatchPayload_plain (c := s.cfg) (u := s.unp.noteHeader seq ts) hp hidle
  have hrq : s.unp.rq ++ [p] ≠ [] := by simp
  have hpre := oobPrefix_of_none (c := s.cfg) (u := { s.unp.noteHeader seq ts with rq := s.unp.rq ++ [p] }) hsps hpps
  have hlength : s.unp.outq.length + (s.unp.rq ++ [p]).length = s.unp.outq.length + s.unp.rq.length + 1 := by
    simp [Nat.add_assoc]
  rw [← hlength]
  refine ⟨fun hroom => ?_, exec_unpPacket_marked_dropped hlen hts hstored hrq hpre rfl hst⟩
  rw [List.append_assoc, ← frameEntries_eq]
  exact exec_unpPacket_marked_queued hlen hts hstored hrq hpre rfl hst hroom

/-! ### The frame a changed timestamp flushes (41_unpacker.md R202) -/

/-- A raw NALU whose timestamp flushes is stored behind what the flush leaves, and its gap marked then. -/
theorem exec_unpPacket_flushing {seq : BitVec 16} {ts t₀ : BitVec 32} {p : Bytes} {s w : State} {u : Unp} {st : Status}
    (hp : isPlainNal p) (hlen : p.length ≤ s.cfg.maxPayload) (ht : s.unp.lastTs = some t₀) (hne : ts ≠ t₀)
    (hheld : s.unp.rq ≠ [] ∨ s.unp.aggActive = true) (hu : dropPartial s.unp = u)
    (houtput : outputFrame { s with unp := u } = (w, st)) (hidle : w.unp.aggActive = false) :
    exec (.unpPacket seq ts false p) s = .next { w with
      resp := w.resp ++ [⟨.ok, 0#24 ++ st, []⟩]
      unp := { w.unp.noteHeader seq ts with rq := w.unp.rq ++ [p] } } := by
  subst hu
  have hstored := dispatchPayload_plain_of_idle (c := s.cfg) (u := w.unp.noteHeader seq ts) hp hidle
  rw [exec_unpPacket_eq hlen ((tsFlush_of_change ht hne hheld).trans houtput) (markerOutput_false _),
    show st ||| 0 = st from BitVec.or_zero, State.mapUnp, hstored]
  rfl

/-- Settles O45: the pending status goes with the flushed frame, or stays where there is none; the packet is stored then. -/
theorem timestampChangeFlushes : Obligations.TimestampChangeFlushes := by
  unfold Obligations.TimestampChangeFlushes
  intro seq ts t₀ p s st u hp hlen ht hne hu
  have hdrop := dropPartial_eq s.unp
  have gap_alone : (0 : Status) ||| flagIf (isGap seq s.unp) 0x02 = flagIf (isGap seq s.unp) 0x02 := BitVec.zero_or
  subst hu
  refine ⟨fun hrq hsps hpps hst => ?stored, fun hrq hactive => ?nothing⟩
  case stored =>
    rw [← gap_alone]
    exact ⟨fun hroom => exec_unpPacket_flushing hp hlen ht hne (.inl hrq) hdrop
        (outputFrame_queued (s := { s with unp := _ }) hrq (oobPrefix_of_none hsps hpps) rfl hst hroom) rfl,
      fun hfull => exec_unpPacket_flushing hp hlen ht hne (.inl hrq) hdrop
        (outputFrame_dropped (s := { s with unp := _ }) hrq (oobPrefix_of_none hsps hpps) rfl hst hfull) rfl⟩
  case nothing =>
    rw [exec_unpPacket_flushing hp hlen ht hne (.inr hactive) hdrop (outputFrame_of_empty hrq) rfl, append_zero_status]
    simp only [hrq, hactive]
    rfl

/-! ### The frames a packet outputs (41_unpacker.md R201, R216) -/

/-- A dropped frame stays on record behind the ones that fit. -/
theorem foldl_enqueueFrame_flag (cap : Option Nat) (fs : List (Status × List Bytes)) (q : List OutEntry × Bool) :
    fs.foldl (enqueueFrame cap) q =
      ((fs.foldl (enqueueFrame cap) (q.1, false)).1, q.2 || (fs.foldl (enqueueFrame cap) (q.1, false)).2) := by
  induction fs generalizing q with
  | nil => simp
  | cons f fs ih =>
    rw [List.foldl_cons, ih, List.foldl_cons, ih (enqueueFrame cap (q.1, false) f)]
    unfold enqueueFrame
    split <;> simp

/-- `t` comes from `s` by work that gave the frames `fs`, in order, their turn at the output queue. -/
structure FramesQueued (fs : List (Status × List Bytes)) (s t : State) : Prop where
  cfg : t.cfg = s.cfg
  outq : t.unp.outq = (fs.foldl (enqueueFrame s.cfg.unpOutqCap) (s.unp.outq, false)).1
  fault : t.fault =
    if (fs.foldl (enqueueFrame s.cfg.unpOutqCap) (s.unp.outq, false)).2 then s.fault ||| unpOutqOvf else s.fault

namespace FramesQueued

theorem none (s : State) : FramesQueued [] s s := ⟨rfl, rfl, rfl⟩

theorem none_mapUnp {f : Unp → Unp} {s : State} (h : (f s.unp).outq = s.unp.outq) : FramesQueued [] s (s.mapUnp f) :=
  ⟨rfl, h, rfl⟩

section
variable {f : Status × List Bytes} {s t : State}

theorem one_fits (hfits : fits s.cfg.unpOutqCap (s.unp.outq.length + f.2.length) = true) (hcfg : t.cfg = s.cfg)
    (houtq : t.unp.outq = s.unp.outq ++ frameEntries f.1 f.2) (hfault : t.fault = s.fault) : FramesQueued [f] s t := by
  have hturn : enqueueFrame s.cfg.unpOutqCap (s.unp.outq, false) f = (s.unp.outq ++ frameEntries f.1 f.2, false) :=
    if_pos hfits
  exact ⟨hcfg, by rw [List.foldl_cons, hturn, houtq]; rfl, by rw [List.foldl_cons, hturn, hfault]; rfl⟩

theorem one_dropped (hfull : fits s.cfg.unpOutqCap (s.unp.outq.length + f.2.length) = false) (hcfg : t.cfg = s.cfg)
    (houtq : t.unp.outq = s.unp.outq) (hfault : t.fault = s.fault ||| unpOutqOvf) : FramesQueued [f] s t := by
  have hturn : enqueueFrame s.cfg.unpOutqCap (s.unp.outq, false) f = (s.unp.outq, true) := if_neg (by simp [hfull])
  exact ⟨hcfg, by rw [List.foldl_cons, hturn, houtq]; rfl, by rw [List.foldl_cons, hturn, hfault]; rfl⟩

end

theorem append {fs gs : List (Status × List Bytes)} {s t u : State} (h : FramesQueued fs s t) (h' : FramesQueued gs t u) :
    FramesQueued (fs ++ gs) s u where
  cfg := h'.cfg.trans h.cfg
  outq := by rw [h'.outq, h.cfg, h.outq, List.foldl_append, foldl_enqueueFrame_flag _ gs (fs.foldl _ _)]
  fault := by
    rw [h'.fault, h.cfg, h.outq, h.fault, List.foldl_append, foldl_enqueueFrame_flag _ gs (fs.foldl _ _)]
    dsimp only
    cases (fs.foldl (enqueueFrame s.cfg.unpOutqCap) (s.unp.outq, false)).2
    · rfl
    · simp [BitVec.or_assoc]

end FramesQueued

/-- The status an output answers: the frame's, or none. -/
def statusOf (f : Option (Status × List Bytes)) : Status := f.elim 0 fun f => f.1

/-- An output of at most one frame: the state after it and the status it answers. -/
structure Outputs (f : Option (Status × List Bytes)) (s : State) (r : State × Status) : Prop where
  queued : FramesQueued f.toList s r.1
  status : r.2 = statusOf f

theorem outputs_none (s : State) : Outputs none s (s, 0) := ⟨.none s, rfl⟩

theorem oobPrefix_outq (c : Config) (u : Unp) : (oobPrefix c u).2.outq = u.outq := by
  obtain ⟨_, _, _, hv⟩ := oobPrefix_frame c u
  rw [hv]

theorem outputFrame_outputs (s : State) : Outputs (outputOf s.cfg s.unp) s (outputFrame s) := by
  by_cases hrq : s.unp.rq = []
  · rw [outputFrame_of_empty hrq, outputOf, if_pos hrq]
    exact outputs_none s
  · rw [outputOf, if_neg hrq]
    have houtq := oobPrefix_outq s.cfg s.unp
    obtain ⟨pre, v, st, hpre, rfl, ⟨hfits, houtput⟩ | ⟨hfull, houtput⟩⟩ := outputFrame_of_nonempty hrq
    all_goals
      rw [hpre] at houtq ⊢
      rw [houtput]
    · exact ⟨.one_fits hfits rfl rfl rfl, rfl⟩
    · exact ⟨.one_dropped hfull rfl houtq rfl, rfl⟩

/-- A partial FU-A dropped before the output is none of the queue's concern. -/
theorem outputFrame_dropPartial_outputs (s : State) :
    Outputs (outputOf s.cfg (dropPartial s.unp)) s (outputFrame (s.mapUnp dropPartial)) := by
  obtain ⟨hqueued, hstatus⟩ := outputFrame_outputs (s.mapUnp dropPartial)
  exact ⟨(FramesQueued.none_mapUnp (dropPartial_outq s.unp)).append hqueued, hstatus⟩

theorem markerOutput_outputs (m : Bool) (s : State) :
    Outputs (if m then outputOf s.cfg (dropPartial s.unp) else none) s (markerOutput m s) := by
  cases m with
  | false => exact outputs_none s
  | true => exact outputFrame_dropPartial_outputs s

theorem tsFlush_outputs (ts : BitVec 32) (s : State) :
    Outputs (if s.unp.lastTs ≠ none ∧ s.unp.lastTs ≠ some ts then outputOf s.cfg (dropPartial s.unp) else none) s
      (tsFlush ts s) := by
  cases ht : s.unp.lastTs with
  | none =>
    rw [tsFlush_of_noFlush (.inl ht)]
    exact outputs_none s
  | some t₀ =>
    by_cases hts : ts = t₀
    · subst hts
      rw [tsFlush_of_noFlush (.inr (.inl ht)), if_neg (by simp)]
      exact outputs_none s
    · rw [if_pos ⟨by simp, by simpa using Ne.symm hts⟩]
      by_cases hheld : s.unp.rq = [] ∧ s.unp.aggActive = false
      · obtain ⟨hrq, hidle⟩ := hheld
        have hnothing : outputOf s.cfg (dropPartial s.unp) = none := by
          rw [dropPartial_of_idle hidle, outputOf, if_pos hrq]
        rw [tsFlush_of_noFlush (.inr (.inr ⟨hrq, hidle⟩)), hnothing]
        exact outputs_none s
      · rw [tsFlush_of_change ht hts (by rwa [not_and_or, Bool.not_eq_false] at hheld)]
        exact outputFrame_dropPartial_outputs s

/-- The flush outputs at most one frame and the marker another, and the payload's work none. -/
theorem packetSteps_outputs {seq : BitVec 16} {ts : BitVec 32} {m : Bool} {p : Bytes} {s : State} {stored : Unp}
    {flushed ended : Option (Status × List Bytes)}
    (hflushed : flushed =
      if s.unp.lastTs ≠ none ∧ s.unp.lastTs ≠ some ts then outputOf s.cfg (dropPartial s.unp) else none)
    (hstored : stored = dispatchPayload s.cfg p (seqCheck seq { (tsFlush ts s).1.unp with lastTs := some ts }))
    (hended : ended = if m then outputOf s.cfg (dropPartial stored) else none) :
    FramesQueued (flushed.toList ++ ended.toList) s (packetSteps seq ts m p s).1 ∧
      (packetSteps seq ts m p s).2 = statusOf flushed ||| statusOf ended := by
  have flush := tsFlush_outputs ts s
  have work : FramesQueued [] (tsFlush ts s).1 ((tsFlush ts s).1.mapUnp fun _ => stored) :=
    .none_mapUnp (by rw [hstored, dispatchPayload_outq, seqCheck_outq])
  have marker := markerOutput_outputs m ((tsFlush ts s).1.mapUnp fun _ => stored)
  rw [← hflushed] at flush
  rw [State.mapUnp_cfg, flush.queued.cfg, State.mapUnp_unp, ← hended] at marker
  have steps : packetSteps seq ts m p s =
      ((markerOutput m ((tsFlush ts s).1.mapUnp fun _ => stored)).1,
        (tsFlush ts s).2 ||| (markerOutput m ((tsFlush ts s).1.mapUnp fun _ => stored)).2) := by
    rw [hstored]
    rfl
  rw [steps, flush.status, marker.status]
  exact ⟨flush.queued.append (work.append marker.queued), rfl⟩

/-- Settles O46: the frames a packet's steps output, in order. -/
theorem callStatusIsTheOrOfTheFrames : Obligations.CallStatusIsTheOrOfTheFrames := by
  unfold Obligations.CallStatusIsTheOrOfTheFrames
  intro seq ts m p s stored flushed ended hlen hflushed hstored hended
  obtain ⟨queued, hstatus⟩ := packetSteps_outputs hflushed hstored hended
  refine ⟨_, exec_unpPacket_of_le hlen, ?_, queued.outq, queued.fault⟩
  rw [State.respond_resp, (packetSteps_sameHostSide seq ts m p s).resp, hstatus]
  rfl

/-! ### Injected parameter sets (41_unpacker.md R213, R225, R226) -/

/-- The reassembler with an injected set of kind `k`, live and pending. -/
def Unp.withInjected (k : PsKind) (p : Bytes) (u : Unp) : Unp :=
  u.setPs k { u.ps k with live := some p, source := .oob, oobPending := true }

section
variable {k : PsKind} {p : Bytes} {s : State}

theorem injectPs_taken (hp : p ≠ []) (hk : nalType p = psType k) (hsize : p.length ≤ s.cfg.maxNalu) :
    injectPs k p s = .next { s with resp := s.resp ++ [⟨.ok, 0, []⟩], unp := s.unp.withInjected k p } :=
  if_neg (by simp [hp, hk, Nat.not_lt.mpr hsize])

theorem injectPs_rejected (h : p = [] ∨ nalType p ≠ psType k ∨ s.cfg.maxNalu < p.length) :
    injectPs k p s = .next { s with resp := s.resp ++ [⟨.rejected, 0, []⟩] } := if_pos h

end

theorem runCommands_cons {i : Instr} {s t : State} (h : exec i s = .next t) (is : List Instr) :
    runCommands (i :: is) s = runCommands is t := runCommands_append (runCommands_singleton h) is

theorem room_of_unbounded {c : Config} (h : c.unpOutqCap = none) (n : Nat) : ∀ cap, c.unpOutqCap = some cap → n ≤ cap := by
  rw [h]
  nofun

/-! ### Both kinds injected, then delivered -/

/-- Both kinds live and pending; what was last noted stays. -/
def Unp.bothInjected (sps pps : Bytes) (u : Unp) : Unp :=
  { u with sps := ⟨some sps, .oob, true, u.sps.last⟩, pps := ⟨some pps, .oob, true, u.pps.last⟩ }

/-- Both kinds delivered: live, noted and no longer pending. -/
def Unp.bothDelivered (sps pps : Bytes) (u : Unp) : Unp :=
  { u with sps := ⟨some sps, .oob, false, some sps⟩, pps := ⟨some pps, .oob, false, some pps⟩ }

section
variable {sps pps : Bytes}

theorem runCommands_inject_both {s : State}
    (hsps : sps ≠ []) (hspsType : nalType sps = 7) (hspsSize : sps.length ≤ s.cfg.maxNalu)
    (hpps : pps ≠ []) (hppsType : nalType pps = 8) (hppsSize : pps.length ≤ s.cfg.maxNalu) :
    runCommands [.unpSetPps pps, .unpSetSps sps] s = .next { s with
      resp := s.resp ++ [⟨.ok, 0, []⟩] ++ [⟨.ok, 0, []⟩], unp := s.unp.bothInjected sps pps } := by
  have injectPps : exec (.unpSetPps pps) s = .next _ := injectPs_taken (k := .pps) hpps hppsType hppsSize
  exact (runCommands_cons injectPps _).trans (runCommands_singleton (injectPs_taken (k := .sps) hsps hspsType hspsSize))

/-- SPS is put before PPS, and each one's news is against the set of its kind last noted. -/
theorem oobPrefix_bothInjected (c : Config) (u : Unp) :
    oobPrefix c (u.bothInjected sps pps) =
      ([sps, pps], { u.bothDelivered sps pps with
        acc := u.acc ||| psNews c .sps u.sps.last sps ||| psNews c .pps u.pps.last pps }) := rfl

variable {seq : BitVec 16} {ts : BitVec 32} {p : Bytes} {s : State} {st : Status} (hp : isPlainNal p)
  (hlen : p.length ≤ s.cfg.maxPayload) (hidle : s.unp.aggActive = false) (hcap : s.cfg.unpOutqCap = none)
include hp hlen hidle hcap

/-- A marked raw NALU after both injections: its frame is headed by the two sets. -/
theorem exec_unpPacket_bothInjected (hts : noFlush ts s.unp)
    (hst : st = frameStatus s.cfg
      { s.unp.bothDelivered sps pps with
        acc := s.unp.acc ||| flagIf (isGap seq s.unp) 0x02
          ||| psNews s.cfg .sps s.unp.sps.last sps ||| psNews s.cfg .pps s.unp.pps.last pps }
      (sps :: pps :: s.unp.rq ++ [p])) :
    exec (.unpPacket seq ts true p) { s with unp := s.unp.bothInjected sps pps } = .next { s with
      resp := s.resp ++ [⟨.ok, 0#24 ++ st, []⟩]
      unp := { s.unp.bothDelivered sps pps with
        lastTs := some ts, refSeq := some seq, rq := [], acc := 0
        outq := s.unp.outq ++ frameEntries st (sps :: pps :: s.unp.rq ++ [p]) } } :=
  exec_unpPacket_marked_queued (s := { s with unp := s.unp.bothInjected sps pps }) hlen hts
    (dropPartial_dispatchPayload_plain hp hidle) (by simp)
    (oobPrefix_bothInjected s.cfg { s.unp.noteHeader seq ts with rq := s.unp.rq ++ [p] }) rfl hst (room_of_unbounded hcap _)

end

/-- Settles O47: the first packet finds both sets pending, the second one neither. -/
theorem injectedSetsAreDeliveredOnce : Obligations.InjectedSetsAreDeliveredOnce := by
  unfold Obligations.InjectedSetsAreDeliveredOnce
  intro sps pps p₁ p₂ q₁ q₂ ts s st₁ st₂ u hsps hspsType hspsSize hpps hppsType hppsSize hp₁ hlen₁ hp₂ hlen₂ hts hidle hcap hu
    hst₁ hst₂
  subst hu
  have newsSps : psNews s.cfg .sps s.unp.sps.last sps = _ := psNews_eq ..
  have newsPps : psNews s.cfg .pps s.unp.pps.last pps = _ := psNews_eq ..
  have gap_alone : (0 : Status) ||| flagIf (q₂ != q₁ + 1) 0x02 = flagIf (q₂ != q₁ + 1) 0x02 := BitVec.zero_or
  have injected := runCommands_inject_both hsps hspsType hspsSize hpps hppsType hppsSize
  have first := exec_unpPacket_bothInjected (seq := q₁) (st := st₁)
    (s := { s with resp := s.resp ++ [⟨.ok, 0, []⟩] ++ [⟨.ok, 0, []⟩] })
    hp₁ hlen₁ hidle hcap hts (by rw [newsSps, newsPps]; exact hst₁)
  have second := exec_unpPacket_marked_queued (seq := q₂) (ts := ts) (st := st₂) (frame := [p₂]) (s := { s with
      resp := s.resp ++ [⟨.ok, 0, []⟩] ++ [⟨.ok, 0, []⟩] ++ [⟨.ok, 0#24 ++ st₁, []⟩]
      unp := { s.unp.bothDelivered sps pps with
        lastTs := some ts, refSeq := some q₁, rq := [], acc := 0
        outq := s.unp.outq ++ frameEntries st₁ (sps :: pps :: s.unp.rq ++ [p₁]) } })
    hlen₂ (.inr (.inl rfl)) (dropPartial_dispatchPayload_plain hp₂ hidle) (by simp) (oobPrefix_of_none rfl rfl) rfl
    (by rw [← gap_alone] at hst₂; exact hst₂) (room_of_unbounded hcap _)
  have run := (runCommands_append injected _).trans ((runCommands_cons first _).trans (runCommands_singleton second))
  exact ⟨_, run, rfl, rfl, rfl, by simp⟩

/-! ### An in-band set against an injected one (41_unpacker.md R227) -/

theorem ps_setPs (u : Unp) (k k' : PsKind) (r : ParamSet) : (u.setPs k r).ps k' = if k' = k then r else u.ps k' := by
  cases k <;> cases k' <;> rfl

/-- The injected set of the kind is gone, and the news is against the set last noted. -/
theorem dropPartial_dispatchPayload_cancels {c : Config} {k : PsKind} {injected p : Bytes} {u : Unp} (seq : BitVec 16)
    (ts : BitVec 32) (hk : nalType p = psType k) (hidle : u.aggActive = false) :
    dropPartial (dispatchPayload c p ((u.withInjected k injected).noteHeader seq ts)) =
      { u.setPs k ⟨some p, .inBand, false, some p⟩ with
        lastTs := some ts, refSeq := some seq, rq := u.rq ++ [p]
        acc := u.acc ||| flagIf (isGap seq u) 0x02 ||| psNews c k (u.ps k).last p } := by
  have hidle' : ((u.withInjected k injected).noteHeader seq ts).aggActive = false := by cases k <;> exact hidle
  rw [dispatchPayload_ps hk, dropPartial_of_idle hidle', dropPartial_of_idle (by cases k <;> exact hidle)]
  cases k <;> rfl

/-- Settles O48: the packet writes over all of the kind's registers before its frame is output. -/
theorem inBandSetCancelsTheInjection : Obligations.InBandSetCancelsTheInjection := by
  unfold Obligations.InBandSetCancelsTheInjection
  intro k injected inBand seq ts s st u hinj hinjType hinjSize _ hk hlen hts hidle hothers hcap hu hst
  subst hu
  rw [← psNews_eq] at hst
  have none_pending (k' : PsKind) : ((s.unp.setPs k ⟨some inBand, .inBand, false, some inBand⟩).ps k').oobPending = false := by
    rw [ps_setPs]
    split
    · rfl
    · exact hothers k' ‹_›
  have packet := exec_unpPacket_marked_queued (s := { s with
      resp := s.resp ++ [⟨.ok, 0, []⟩], unp := s.unp.withInjected k injected })
    hlen (by cases k <;> exact hts) (dropPartial_dispatchPayload_cancels seq ts hk hidle) (by simp)
    (oobPrefix_of_none (none_pending .sps) (none_pending .pps)) rfl hst (room_of_unbounded hcap _)
  refine ⟨_, (runCommands_cons ?inject _).trans (runCommands_singleton packet), ?outq, rfl, rfl, by simp⟩
  case inject => cases k <;> exact injectPs_taken hinj hinjType hinjSize
  case outq => cases k <;> rfl

/-! ### One `ue(v)` code inside a byte (41_unpacker.md R221, R222) -/

section
variable {b : Byte}

/-- A run of zeros ends at the first one. -/
theorem zeroRun_eq {fuel i z : Nat} (hz : z < fuel) (hzeros : ∀ j < z, b.getMsbD (i + j) = false)
    (hone : b.getMsbD (i + z) = true) : zeroRun b fuel i = z := by
  induction z generalizing fuel i with
  | zero =>
    obtain ⟨fuel, rfl⟩ := Nat.exists_eq_add_of_lt hz
    simpa [zeroRun] using hone
  | succ z ih =>
    obtain ⟨fuel, rfl⟩ := Nat.exists_eq_add_of_lt hz
    have hfirst : b.getMsbD i = false := hzeros 0 (Nat.succ_pos z)
    have hrest : zeroRun b (z + 1 + fuel) (i + 1) = z :=
      ih (by omega) (fun j hj => by rw [Nat.add_right_comm]; exact hzeros (j + 1) (Nat.succ_lt_succ hj))
        (by rwa [Nat.add_right_comm])
    rw [zeroRun, hfirst, hrest]
    rfl

/-- Without a one, the run takes all the positions it is given. -/
theorem zeroRun_of_zeros {fuel i : Nat} (hzeros : ∀ j < fuel, b.getMsbD (i + j) = false) : zeroRun b fuel i = fuel := by
  induction fuel generalizing i with
  | zero => rfl
  | succ fuel ih =>
    have hfirst : b.getMsbD i = false := hzeros 0 (Nat.succ_pos fuel)
    have hrest : zeroRun b fuel (i + 1) = fuel :=
      ih fun j hj => by rw [Nat.add_right_comm]; exact hzeros (j + 1) (Nat.succ_lt_succ hj)
    rw [zeroRun, hfirst, hrest]
    rfl

/-- Bits read most significant first, as the sum of their weights. -/
theorem bitsFrom_eq_sum (i n : Nat) :
    bitsFrom b i n = ((List.range n).map fun j => (b.getMsbD (i + j)).toNat * 2 ^ (n - 1 - j)).sum := by
  induction n with
  | zero => rfl
  | succ n ih =>
    have doubled : ∀ j ∈ List.range n,
        (b.getMsbD (i + j)).toNat * 2 ^ (n + 1 - 1 - j) = 2 * ((b.getMsbD (i + j)).toNat * 2 ^ (n - 1 - j)) := by
      intro j hj
      have hexp : n + 1 - 1 - j = n - 1 - j + 1 := by
        have := List.mem_range.mp hj
        omega
      rw [hexp, Nat.pow_succ]
      ac_rfl
    rw [bitsFrom, ih, List.range_succ, List.map_append, List.sum_append, List.map_congr_left doubled, List.sum_map_mul_left]
    simp

variable {k z : Nat}

theorem ue8_of_fits (hzeros : ∀ j < z, b.getMsbD (k + j) = false) (hone : b.getMsbD (k + z) = true)
    (hfits : k + 2 * z + 1 ≤ 8) : ue8 b k = some (2 ^ z - 1 + bitsFrom b (k + z + 1) z, k + 2 * z + 1) := by
  have hrun : zeroRun b (8 - k) k = z := zeroRun_eq (by omega) hzeros hone
  rw [ue8, hrun, if_neg (by omega), if_neg (by omega)]

theorem ue8_of_cut (hin : k + z < 8) (hzeros : ∀ j < z, b.getMsbD (k + j) = false) (hone : b.getMsbD (k + z) = true)
    (hcut : 8 < k + 2 * z + 1) : ue8 b k = none := by
  have hrun : zeroRun b (8 - k) k = z := zeroRun_eq (by omega) hzeros hone
  rw [ue8, hrun, if_neg (by omega), if_pos hcut]

theorem ue8_of_zeros (hzeros : ∀ j, k + j < 8 → b.getMsbD (k + j) = false) : ue8 b k = none := by
  have hrun : zeroRun b (8 - k) k = 8 - k := zeroRun_of_zeros fun j hj => hzeros j (by omega)
  rw [ue8, hrun, if_pos (by omega)]

end

theorem standardISlice_of_short {n : Bytes} (h : n.length < 2) : standardISlice n = false := by
  match n with
  | [] | [_] => rfl
  | _ :: _ :: _ => simp at h

theorem standardISlice_iff {h b : Byte} {more : Bytes} : standardISlice (h :: b :: more) = true ↔
    ∃ firstMb k sliceType k',
      ue8 b 0 = some (firstMb, k) ∧ ue8 b k = some (sliceType, k') ∧ (sliceType = 2 ∨ sliceType = 7) := by
  rw [standardISlice]
  cases hfirst : ue8 b 0 with
  | none => simp
  | some first =>
    obtain ⟨firstMb, k⟩ := first
    cases hsecond : ue8 b k with
    | none => simp [hsecond]
    | some second =>
      obtain ⟨sliceType, k'⟩ := second
      simp [hsecond]

/-- Settles O42: the run of zeros ends at the one, at the cut or at the byte's end, and the suffix is its bits' weights. -/
theorem expGolombInsideOneByte : Obligations.ExpGolombInsideOneByte := by
  unfold Obligations.ExpGolombInsideOneByte
  refine ⟨fun b k _ => ⟨fun z hin hzeros hone => ⟨fun hfits => ?_, ue8_of_cut hin hzeros hone⟩, ue8_of_zeros⟩,
    fun n => standardISlice_of_short, fun h b more => standardISlice_iff, fun c n hc => ?_⟩
  · rw [ue8_of_fits hzeros hone hfits, bitsFrom_eq_sum]
  · rw [fISlice, hc]

/-! ### Headers of a listed opcode that match no row (30_encoding.md R116, R117) -/

section
variable {o : Op} {h : Word} (hopc : headerOpc h = o.opc) (hm : o.matchesHeader h = false)
include hopc hm

theorem matches_no_row_of_mismatch (o' : Op) : o'.matchesHeader h = false := by
  rw [Bool.eq_false_iff]
  intro hm'
  have hsame : some o' = some o := (ofHeader_of_matches hm').symm.trans (ofHeader_eq_some.mpr hopc)
  rw [Option.some.inj hsame, hm] at hm'
  cases hm'

theorem answeredIllegal_of_mismatch (hf : o.format = .N ∨ o.format = .I) : answeredIllegal h := by
  intro s rest hs
  have hword : headerOpc h ∉ [0x01#8, 0x02#8, 0x03#8, 0x11#8, 0x13#8, 0x1B#8] := by
    rw [hopc]
    revert hf
    cases o <;> decide
  rw [step_of_no_row hs (matches_no_row_of_mismatch hopc hm) (by simp [hs]) (commandLength_of_one_word hword rest), hs]
  rfl

end

/-- A row that fixes every header bit takes one header alone. -/
theorem matchesHeader_of_ne_pattern {o : Op} {h : Word} (hmask : o.mask = BitVec.allOnes 32) (hne : h ≠ o.pattern) :
    o.matchesHeader h = false := by
  rw [Op.matchesHeader, hmask, BitVec.and_allOnes]
  simpa using hne

/-! ### The other commands (41_unpacker.md R225, R226, R231, R233) -/

theorem matchesHeader_of_idx_ne_zero {o : Op} {h : Word} (hmask : headerIdx o.mask = BitVec.allOnes 8)
    (hidx : headerIdx h ≠ 0) : o.matchesHeader h = false := by
  rw [Bool.eq_false_iff]
  exact fun hm => hidx (headerIdx_eq_zero hm hmask)

/-- A set's command with `IDX` not 0 is consumed with its payload. -/
theorem step_of_injection_idx {o : Op} {s : State} {h : Word} {pl rest : List Word} (hopc : headerOpc h = o.opc)
    (hf : o.format = .D) (hmask : headerIdx o.mask = BitVec.allOnes 8) (hidx : headerIdx h ≠ 0)
    (hpl : pl.length = payloadWords (headerImm h).toNat) (hs : s.cmd = h :: pl ++ rest) :
    step s = .next { s with cmd := rest, resp := s.resp ++ [⟨.illegal, 0, []⟩] } := by
  have hlen : commandLength (h :: (pl ++ rest)) = some (1 + pl.length) := by
    rw [hpl]
    exact commandLength_of_D hopc hf _
  have hrest : s.cmd.drop (1 + pl.length) = rest := by
    rw [hs, Nat.add_comm]
    exact List.drop_left (l₁ := h :: pl)
  have hwhole : 1 + pl.length ≤ s.cmd.length := by
    rw [hs, List.length_append, List.length_cons]
    omega
  rw [step_of_no_row hs (matches_no_row_of_mismatch hopc (matchesHeader_of_idx_ne_zero hmask hidx)) hwhole hlen, hrest]

/-- Settles O30: both kinds by the one meaning, `injectPs`. -/
theorem injectionIsTakenOrRejected : Obligations.InjectionIsTakenOrRejected := by
  unfold Obligations.InjectionIsTakenOrRejected
  intro p s
  refine ⟨rfl, rfl, injectPs_taken (k := .sps), injectPs_rejected (k := .sps), injectPs_taken (k := .pps),
    injectPs_rejected (k := .pps), fun h pl rest hopc hidx hpl hs => ?_⟩
  rcases hopc with hopc | hopc
  · exact step_of_injection_idx (o := .unpSetSps) hopc rfl (by decide) hidx hpl hs
  · exact step_of_injection_idx (o := .unpSetPps) hopc rfl (by decide) hidx hpl hs

/-- Settles O31: the header has no bit free. -/
theorem unpResetDiscardsThePartialFrame : Obligations.UnpResetDiscardsThePartialFrame := by
  unfold Obligations.UnpResetDiscardsThePartialFrame
  refine ⟨rfl, fun _ => rfl, fun h hopc hne => ?_⟩
  exact answeredIllegal_of_mismatch (o := .unpReset) hopc (matchesHeader_of_ne_pattern rfl hne) (.inl rfl)

/-- `zext_32(eof ‖ fstatus)`, its bits in place. -/
theorem popValue_eq_append (eof : Bool) (fstatus : Status) :
    popValue eof fstatus = 0#23 ++ BitVec.ofBool eof ++ fstatus := by
  rw [popValue, BitVec.append_assoc]
  exact BitVec.setWidth_eq_append (by decide)

section
variable {s : State}

theorem execUnpPop_of_nil (h : s.unp.outq = []) : execUnpPop s = raise .empty s := by
  rw [execUnpPop, h]

theorem execUnpPop_of_cons {e : OutEntry} {more : List OutEntry} (h : s.unp.outq = e :: more) :
    execUnpPop s = finish (popValue e.eof e.fstatus) e.nalu (s.mapUnp fun u => { u with outq := more }) := by
  rw [execUnpPop, h]

end

/-- Settles O32: by the queue's head, and a header with no bit free. -/
theorem unpPopReturnsTheOldestNalu : Obligations.UnpPopReturnsTheOldestNalu := by
  unfold Obligations.UnpPopReturnsTheOldestNalu
  refine ⟨rfl, fun s e more h => ?_, fun s h => execUnpPop_of_nil h, fun h hopc hne => ?_⟩
  · rw [← popValue_eq_append]
    exact execUnpPop_of_cons h
  · exact answeredIllegal_of_mismatch (o := .unpPop) hopc (matchesHeader_of_ne_pattern rfl hne) (.inl rfl)

end Sys2Proof.Machine

/-! The mixer family (42_mixer.md): the control commands, the queues, and the tick: its activity scan, bypass, and the mix
with its accumulator, clamp and flow control. -/

namespace Sys2Proof.Machine

/-! ### Headers with an enable bit or no operand in `IMM` (42_mixer.md R247 to R249, R255) -/

theorem immEn_eq_append (en : Bool) : immEn en = 0#15 ++ BitVec.ofBool en :=
  BitVec.setWidth_eq_append (by decide)

theorem header_immEn (o : Op) (idx : Byte) (en : Bool) :
    header o idx (immEn en) = o.opc ++ idx ++ 0#15 ++ BitVec.ofBool en := by
  rw [header, immEn_eq_append, BitVec.append_assoc (x₁ := o.opc ++ idx)]
  rfl

/-- A row with an enable bit takes no header with a bit of `IMM[15:1]` set. -/
theorem matchesHeader_of_imm_reserved {o : Op} {h : Word} (hmask : headerImm o.mask = ~~~1)
    (himm : h.extractLsb' 1 15 ≠ 0) : o.matchesHeader h = false := by
  rw [Bool.eq_false_iff]
  intro hm
  have upper : (headerImm h).extractLsb' 1 15 = h.extractLsb' 1 15 := BitVec.extractLsb'_extractLsb'_of_le (by decide)
  rw [← upper, headerImm_eq_immEn hm hmask] at himm
  cases h : headerEn h <;> simp [h, immEn] at himm

/-! ### The control commands (42_mixer.md R247 to R258) -/

section
variable (port : Byte) (s : State)

theorem exec_mixSetActive (en : Bool) : exec (.mixSetActive port en) s =
    withPort port s fun p => finish 0 [] (s.mapPort p fun q => { q with active := en }) := rfl

theorem exec_mixSetOutput (en : Bool) : exec (.mixSetOutput port en) s =
    withPort port s fun p => finish 0 [] (s.mapPort p fun q => { q with outEn := en }) := rfl

theorem exec_mixSetMaster : exec (.mixSetMaster port) s = withPort port s fun _ => finish 0 [] s := rfl

theorem exec_mixPush (d : Bytes) : exec (.mixPush port d) s =
    withPort port s fun p =>
      if fits s.cfg.mixInqCap ((s.port p).inq.length + 1) then
        finish 0 [] (s.mapPort p fun q => { q with inq := q.inq ++ [d] })
      else raise .full s := rfl

end

/-- Settles O19: the port's check, the flag's write, and the reserved bits of the row. -/
theorem setActiveWritesTheFlag : Obligations.SetActiveWritesTheFlag := by
  unfold Obligations.SetActiveWritesTheFlag
  refine fun port en s => ⟨congrArg (fun w => [w]) (header_immEn .mixSetActive port en), fun hport => ?_, fun hport => ?_,
    fun h hopc himm => ?_⟩
  · rw [exec_mixSetActive, withPort_of_lt hport]
    rfl
  · rw [exec_mixSetActive, withPort_of_le hport]
  · exact answeredIllegal_of_mismatch (o := .mixSetActive) hopc (matchesHeader_of_imm_reserved (by decide) himm) (.inr rfl)

/-- Settles O20: the port's check, the flag's write, and the reserved bits of the row. -/
theorem setOutputWritesTheFlag : Obligations.SetOutputWritesTheFlag := by
  unfold Obligations.SetOutputWritesTheFlag
  refine fun port en s => ⟨congrArg (fun w => [w]) (header_immEn .mixSetOutput port en), fun hport => ?_, fun hport => ?_,
    fun h hopc himm => ?_⟩
  · rw [exec_mixSetOutput, withPort_of_lt hport]
    rfl
  · rw [exec_mixSetOutput, withPort_of_le hport]
  · exact answeredIllegal_of_mismatch (o := .mixSetOutput) hopc (matchesHeader_of_imm_reserved (by decide) himm) (.inr rfl)

/-- Settles O21: both of the row's reserved fields are checked. -/
theorem setConfWritesTheMode : Obligations.SetConfWritesTheMode := by
  unfold Obligations.SetConfWritesTheMode
  refine fun en s => ⟨congrArg (fun w => [w]) (header_immEn .mixSetConf 0 en), rfl, fun h hopc hreserved => ?_⟩
  have mismatch : Op.mixSetConf.matchesHeader h = false := by
    rcases hreserved with hidx | himm
    · exact matchesHeader_of_idx_ne_zero (by decide) hidx
    · exact matchesHeader_of_imm_reserved (by decide) himm
  exact answeredIllegal_of_mismatch (o := .mixSetConf) hopc mismatch (.inr rfl)

/-- Settles O22: the port's check alone. -/
theorem setMasterDoesNothing : Obligations.SetMasterDoesNothing := by
  unfold Obligations.SetMasterDoesNothing
  refine fun port s => ⟨rfl, fun hport => ?_, fun hport => ?_⟩
  · rw [exec_mixSetMaster, withPort_of_lt hport]
    rfl
  · rw [exec_mixSetMaster, withPort_of_le hport]

/-- Settles O23: by the two branches of the rate's check. -/
theorem sampleRateIsSetOrRejected : Obligations.SampleRateIsSetOrRejected := by
  unfold Obligations.SampleRateIsSetOrRejected
  refine fun r s => ⟨rfl, rfl, fun hzero hdvd => ?_, fun hbad => ?_, rfl⟩
  · exact if_neg (not_or.mpr ⟨hzero, not_not.mpr (Nat.mod_eq_zero_of_dvd hdvd)⟩)
  · exact if_pos (hbad.imp_right fun hdvd hmod => hdvd (Nat.dvd_of_mod_eq_zero hmod))

/-- Settles O24: by the two branches of the count's check, and the row's reserved `IDX`. -/
theorem channelCountIsSetOrRejected : Obligations.ChannelCountIsSetOrRejected := by
  unfold Obligations.ChannelCountIsSetOrRejected
  refine fun n s => ⟨rfl, rfl, fun hpos hmax => ?_, fun hbad => if_pos hbad, fun h hopc hidx => ?_, ?_⟩
  · refine if_neg (not_or.mpr ⟨?_, Nat.not_lt.mpr hmax⟩)
    rintro rfl
    exact Nat.not_succ_le_zero 0 hpos
  · exact answeredIllegal_of_mismatch (o := .mixSetNch) hopc (matchesHeader_of_idx_ne_zero (by decide) hidx) (.inr rfl)
  · have zext : s.mix.nch.zeroExtend 32 = 0#16 ++ s.mix.nch := BitVec.setWidth_eq_append (by decide)
    rw [← zext]
    rfl

/-- Settles O25: the two branches of the check that the summer is stopped. -/
theorem preprocessLatchesAndClears : Obligations.PreprocessLatchesAndClears := by
  unfold Obligations.PreprocessLatchesAndClears
  exact fun s => ⟨rfl, fun hrunning => if_pos hrunning, fun hstopped => if_neg (by simp [hstopped])⟩

/-- Settles O26: the two branches of the check that the summer runs. -/
theorem postprocessClearsAndStops : Obligations.PostprocessClearsAndStops := by
  unfold Obligations.PostprocessClearsAndStops
  exact fun s => ⟨rfl, fun hstopped => if_pos (by simp [hstopped]), fun hrunning => if_neg (by simp [hrunning])⟩

/-! ### The queues (42_mixer.md R259, R260, R263, R271) -/

/-- One more entry fits exactly when the queue is below the capacity there is. -/
theorem fits_succ_iff {cap : Option Nat} {n : Nat} : fits cap (n + 1) = true ↔ ∀ k, cap = some k → n < k := fits_iff

theorem not_fits_succ_iff {cap : Option Nat} {n : Nat} : fits cap (n + 1) = false ↔ ∃ k, cap = some k ∧ k ≤ n := by
  simp only [not_fits_iff, Nat.lt_succ_iff]

/-- An unmuted port with something queued counts as active. -/
theorem countsActive_of_queued {c : Config} {now : BitVec 64} {q : Port} (hactive : q.active = true) (hinq : q.inq ≠ []) :
    countsActive c now q = true := by
  simp [countsActive, hactive, hinq]

/-- Settles O27: the port's check, then the queue's capacity. -/
theorem pushAppendsToTheInputQueue : Obligations.PushAppendsToTheInputQueue := by
  unfold Obligations.PushAppendsToTheInputQueue
  refine fun port d s => ⟨rfl, fun hport hroom => ?_, fun hport hfull => ?_, fun hport => ?_, fun now q hactive => ?_⟩
  · rw [exec_mixPush, withPort_of_lt hport, if_pos (fits_succ_iff.mpr hroom)]
    rfl
  · rw [exec_mixPush, withPort_of_lt hport, not_fits_succ_iff.mpr hfull]
    rfl
  · rw [exec_mixPush, withPort_of_le hport]
  · exact countsActive_of_queued hactive (by simp)

section
variable {port : Byte} {s : State} (hport : port.toNat < s.cfg.nports)
include hport

theorem exec_mixPop_of_nil (h : (s.port port.toNat).outq = []) : exec (.mixPop port) s = raise .empty s := by
  rw [exec, execMixPop, withPort_of_lt hport, h]

theorem exec_mixPop_of_cons {d : Bytes} {more : List Bytes} (h : (s.port port.toNat).outq = d :: more) :
    exec (.mixPop port) s = finish 0 d (s.mapPort port.toNat fun q => { q with outq := more }) := by
  rw [exec, execMixPop, withPort_of_lt hport, h]

end

/-- Settles O28: the port's check, then the queue's head. -/
theorem popReturnsTheOldestBuffer : Obligations.PopReturnsTheOldestBuffer := by
  unfold Obligations.PopReturnsTheOldestBuffer
  refine fun port s => ⟨rfl, fun _ _ hport => exec_mixPop_of_cons hport, exec_mixPop_of_nil, fun hport => ?_⟩
  rw [exec, execMixPop, withPort_of_le hport]

theorem putBytes_of_fits {i : Nat} {d : Bytes} {s : State}
    (h : fits s.cfg.mixBufCap ((s.port i).buf.length + d.length) = true) :
    putBytes i d s = s.mapPort i fun q => { q with buf := q.buf ++ d } := if_pos h

theorem putBytes_of_cap {i : Nat} {d : Bytes} {s : State} {cap : Nat} (hcap : s.cfg.mixBufCap = some cap)
    (hlt : cap < (s.port i).buf.length + d.length) :
    putBytes i d s =
      (s.mapPort i fun q => { q with buf := q.buf ++ d.take (cap - (s.port i).buf.length) }).setFault mixBufOvf := by
  have hfull : ¬ fits s.cfg.mixBufCap ((s.port i).buf.length + d.length) = true := by simpa [hcap] using hlt
  rw [putBytes, if_neg hfull, hcap, Option.getD_some]

theorem pushOut_of_fits {o : Nat} {d : Bytes} {s : State} (h : fits s.cfg.mixOutqCap ((s.port o).outq.length + 1) = true) :
    pushOut o d s = s.mapPort o fun q => { q with outq := q.outq ++ [d] } := if_pos h

theorem pushOut_of_not_fits {o : Nat} {d : Bytes} {s : State}
    (h : fits s.cfg.mixOutqCap ((s.port o).outq.length + 1) = false) : pushOut o d s = s.setFault mixOutqOvf :=
  if_neg (by rw [h]; decide)

/-- Settles O59: the two branches of each capacity's check. -/
theorem summerOverflowIsFlagged : Obligations.SummerOverflowIsFlagged := by
  unfold Obligations.SummerOverflowIsFlagged
  exact fun i d s => ⟨fun hroom => putBytes_of_fits (fits_iff.mpr hroom), fun cap => putBytes_of_cap,
    fun hroom => pushOut_of_fits (fits_succ_iff.mpr hroom),
    fun cap hcap hfull => pushOut_of_not_fits (not_fits_succ_iff.mpr ⟨cap, hcap, hfull⟩)⟩

/-! ### The entry checks of a tick (42_mixer.md R253) -/

/-- Settles O49: the two checks in their order. -/
theorem tickChecksInOrder : Obligations.TickChecksInOrder := by
  unfold Obligations.TickChecksInOrder
  refine fun now s => ⟨fun hstopped => if_pos (by simp [hstopped]), fun t hrunning hlast hback => ?_⟩
  have goesBack : timeGoesBack now s = true := by simpa [timeGoesBack, hlast] using hback
  exact (if_neg (by simp [hrunning])).trans (if_pos goesBack)

/-! ### The activity scan (42_mixer.md R262) -/

theorem seenRecently_iff {c : Config} {now : BitVec 64} {q : Port} : seenRecently c now q = true ↔
    ∃ t, q.lastSeen = some t ∧ (now.toNat : Int) - (t.toNat : Int) < c.activityTimeoutMs := by
  rw [seenRecently]
  cases h : q.lastSeen with
  | none => simp
  | some t =>
    simp only [Option.some.injEq, exists_eq_left']
    exact decide_eq_true_iff

theorem countsActive_iff {c : Config} {now : BitVec 64} {q : Port} : countsActive c now q = true ↔
    q.active = true ∧ (q.inq ≠ [] ∨ seenRecently c now q = true) := by
  simp [countsActive]

theorem mem_activePorts {now : BitVec 64} {s : State} {i : Nat} :
    i ∈ activePorts now s ↔ i < s.cfg.nports ∧ countsActive s.cfg now (s.port i) = true := by
  simp [activePorts, State.portList]

theorem activePorts_sorted (now : BitVec 64) (s : State) : (activePorts now s).Pairwise (· < ·) :=
  List.pairwise_lt_range.filter _

theorem activePorts_nodup (now : BitVec 64) (s : State) : (activePorts now s).Nodup := List.nodup_range.filter _

/-- Settles O50: the scan filters the ports in increasing order. -/
theorem activityScanFindsTheActivePorts : Obligations.ActivityScanFindsTheActivePorts := by
  unfold Obligations.ActivityScanFindsTheActivePorts
  refine fun now s => ⟨activePorts_sorted now s, fun i => ?_⟩
  rw [mem_activePorts, countsActive_iff, seenRecently_iff]

/-! ### A port before its turn in the tick (42_mixer.md R261, R262) -/

/-- A port once its muted input is discarded and its activity noted. -/
def scanPort (now : BitVec 64) (q : Port) : Port := noteSeen now (discardIfMuted q)

/-- The state that the tick scans: the time taken, the muted inputs discarded. -/
abbrev State.heard (now : BitVec 64) (s : State) : State :=
  (s.mapMix fun m => { m with lastNow := some now }).mapPorts discardIfMuted

/-- The state in which the tick's bypass or mix begins. -/
def State.scanned (now : BitVec 64) (s : State) : State := (s.heard now).mapPorts (noteSeen now)

section
variable {now : BitVec 64} {q : Port}

theorem inq_of_not_counted {c : Config} (h : countsActive c now q = false) (hactive : q.active = true) : q.inq = [] := by
  by_contra hne
  rw [countsActive_of_queued hactive hne] at h
  cases h

/-- The scan touches the input queue and the time last seen alone. -/
theorem scanPort_eq (now : BitVec 64) (q : Port) : scanPort now q =
    { q with
      inq := if q.active then q.inq else []
      lastSeen := if q.active ∧ q.inq ≠ [] then some now else q.lastSeen } := by
  obtain ⟨active, outEn, buf, lastSeen, minFull, lastFc, inq, outq⟩ := q
  cases active with
  | false => simp [scanPort, discardIfMuted, noteSeen]
  | true => cases inq <;> simp [scanPort, discardIfMuted, noteSeen]

/-- An unmuted port keeps all but the time it was last seen. -/
theorem scanPort_of_active (h : q.active = true) :
    scanPort now q = { q with lastSeen := if q.inq = [] then q.lastSeen else some now } := by
  rw [scanPort_eq, h]
  by_cases hinq : q.inq = []
  · simp [hinq]
  · simp [hinq]

/-- A port that does not count as active is left with no input and is otherwise as it was. -/
theorem scanPort_of_not_counted {c : Config} (h : countsActive c now q = false) : scanPort now q = { q with inq := [] } := by
  have hquiet := inq_of_not_counted h
  rw [scanPort_eq, if_neg fun hseen => hseen.2 (hquiet hseen.1)]
  split
  · next hactive => rw [hquiet hactive]
  · rfl

theorem noteSeen_of_not_counted {c : Config} (h : countsActive c now q = false) : noteSeen now q = q := by
  refine if_neg fun hseen => ?_
  rw [Bool.and_eq_true, Bool.not_eq_true', List.isEmpty_eq_false_iff] at hseen
  exact hseen.2 (inq_of_not_counted h hseen.1)

/-- Discarding a muted input does not change whether the port counts. -/
theorem countsActive_discardIfMuted (c : Config) (now : BitVec 64) (q : Port) :
    countsActive c now (discardIfMuted q) = countsActive c now q := by
  unfold discardIfMuted
  split
  · rfl
  · next h => simp [countsActive, h]

end

section
variable (now : BitVec 64) (s : State)

theorem port_scanned (i : Nat) : (s.scanned now).port i = scanPort now (s.port i) := by
  rw [State.scanned, State.port_mapPorts_of_reset i rfl, State.heard, State.port_mapPorts_of_reset i rfl]
  rfl

theorem scanned_frame : SameButPorts (s.mapMix fun m => { m with lastNow := some now }) (s.scanned now) :=
  (sameButPorts_mapPorts ..).trans (sameButPorts_mapPorts ..)

/-- The scan after the discard finds the ports it would have found before. -/
theorem activePorts_heard : activePorts now (s.heard now) = activePorts now s := by
  refine List.filter_congr fun i _ => ?_
  rw [State.heard, State.port_mapPorts_of_reset i rfl, countsActive_discardIfMuted]
  rfl

end

section
variable {now : BitVec 64} {s : State}

theorem port_scanned_of_active {i : Nat} (h : i ∈ activePorts now s) : (s.scanned now).port i =
    { s.port i with lastSeen := if (s.port i).inq = [] then (s.port i).lastSeen else some now } := by
  obtain ⟨-, hcounts⟩ := mem_activePorts.mp h
  rw [port_scanned, scanPort_of_active (countsActive_iff.mp hcounts).1]

theorem port_scanned_of_not_active {i : Nat} (hi : i < s.cfg.nports) (h : i ∉ activePorts now s) :
    (s.scanned now).port i = { s.port i with inq := [] } := by
  rw [port_scanned, scanPort_of_not_counted (c := s.cfg)]
  simpa [mem_activePorts, hi] using h

/-! ### The three kinds of tick (42_mixer.md R253) -/

theorem tickSteps_congr {w : State} (h : w.heard now = s.heard now) : tickSteps now w = tickSteps now s := by
  unfold State.heard at h
  rw [tickSteps, tickSteps, h]

theorem tickSteps_of_none (h : activePorts now s = []) :
    tickSteps now s = (s.scanned now).mapMix fun m => { m with bypass := none } := by
  rw [tickSteps, activePorts_heard, h]
  rfl

theorem tickSteps_of_one {p : Nat} (h : activePorts now s = [p]) : tickSteps now s = bypassTick p (s.scanned now) := by
  rw [tickSteps, activePorts_heard, h]
  rfl

theorem tickSteps_of_many (h : 2 ≤ (activePorts now s).length) :
    tickSteps now s = mixTick (activePorts now s) now (s.scanned now) := by
  rw [tickSteps, activePorts_heard]
  match activePorts now s, h with
  | _ :: _ :: _, _ => rfl

/-- An accepted tick completes with `OK` (42_mixer.md R253). -/
theorem exec_mixTick_of_accepted (h : tickAccepted now s) : exec (.mixTick now) s = finish 0 [] (tickSteps now s) := by
  obtain ⟨hrunning, hback⟩ := h
  rw [exec, execMixTick, hrunning, hback]
  rfl

end

theorem tickSteps_answered (now : BitVec 64) (s : State) :
    ((tickSteps now s).respond ⟨.ok, 0, []⟩).resp = s.resp ++ [⟨.ok, 0, []⟩] := by
  rw [State.respond_resp, (tickSteps_sameHostSide now s).resp]

/-- Settles O51: a tick changes the bypass, the ports and the fault register, and no port's switches. -/
theorem acceptedTickCompletes : Obligations.AcceptedTickCompletes := by
  unfold Obligations.AcceptedTickCompletes
  intro now s haccepted
  obtain ⟨_, frame⟩ := tickSteps_frame now s
  have host := tickSteps_sameHostSide now s
  have controls := tickSteps_sameControls now s
  exact ⟨_, exec_mixTick_of_accepted haccepted, tickSteps_answered now s, host.cfg, host.cmd, frame.unp, frame.lastNow,
    controls.rate, controls.nch, controls.conf, controls.running.trans haccepted.1, controls.runRate,
    controls.runNch, frame.length, fun i => ⟨controls.active i, controls.outEn i⟩⟩

/-- A change that keeps every port changes nothing. -/
theorem mapPorts_of_fixed {f : Port → Port} {s : State} (h : ∀ q ∈ s.mix.ports, f q = q) : s.mapPorts f = s := by
  have hmap : s.mix.ports.map f = s.mix.ports := (List.map_congr_left h).trans (List.map_id _)
  simp only [State.mapPorts, State.mapMix, hmap]

/-- Where no port counts, the scan notes nothing. -/
theorem scanned_of_none {now : BitVec 64} {s : State} (hports : s.mix.ports.length = s.cfg.nports)
    (hnone : activePorts now s = []) : s.scanned now = s.heard now := by
  refine mapPorts_of_fixed (forall_ports_iff.mpr fun i hi =>
    noteSeen_of_not_counted (c := s.cfg) (Bool.eq_false_iff.mpr fun hcounts => ?_))
  rw [length_ports_mapPorts] at hi
  have hmem : i ∈ activePorts now (s.heard now) := mem_activePorts.mpr ⟨hports ▸ hi, hcounts⟩
  rw [activePorts_heard, hnone] at hmem
  cases hmem

/-- Settles O52: where no port counts, the scan discards muted inputs and notes nothing. -/
theorem tickWithNoActivePort : Obligations.TickWithNoActivePort := by
  unfold Obligations.TickWithNoActivePort
  intro now s hinv haccepted hnone
  rw [exec_mixTick_of_accepted haccepted, tickSteps_of_none hnone, scanned_of_none hinv.portCount hnone]
  rfl

/-- The discard makes what was queued at a muted port all one. -/
theorem mapPorts_discardIfMuted_of_muted {s : State} {p : Nat} (queued : List Bytes) (h : (s.port p).active = false) :
    (s.mapPort p fun q => { q with inq := queued }).mapPorts discardIfMuted = s.mapPorts discardIfMuted := by
  have ports : (s.mix.ports.modify p fun q => { q with inq := queued }).map discardIfMuted =
      s.mix.ports.map discardIfMuted := by
    refine List.ext_getElem? fun j => ?_
    rw [List.getElem?_map, List.getElem?_map, List.getElem?_modify]
    by_cases hj : p = j
    · subst hj
      cases hq : s.mix.ports[p]? with
      | none => rfl
      | some q =>
        have hmuted : q.active = false := by simpa [State.port, hq] using h
        simp [discardIfMuted, hmuted]
    · simp [hj]
  simp only [State.mapPorts, State.mapPort, State.mapMix, ports]

/-- Settles O56: past the discard the two ticks are the same. -/
theorem mutedInputIsUnheard : Obligations.MutedInputIsUnheard := by
  unfold Obligations.MutedInputIsUnheard
  intro now s p queued haccepted hmuted
  rw [exec_mixTick_of_accepted haccepted, exec_mixTick_of_accepted (s := s.mapPort p _) haccepted]
  refine congrArg (finish 0 []) (tickSteps_congr ?_)
  exact mapPorts_discardIfMuted_of_muted (s := s.mapMix fun m => { m with lastNow := some now }) queued hmuted

/-! ### The accumulator (42_mixer.md R268 to R270) -/

/-- A number of at most 25 signed bits fits an accumulator of at least 25. -/
theorem accStore_of_small {c : Config} {x : Int} (hw : 25 ≤ c.accWidth) (hx : x.natAbs ≤ 2 ^ 23 + 2 ^ 15) :
    accStore c x = x := by
  have hpow : 2 ^ 25 ≤ 2 ^ c.accWidth := Nat.pow_le_pow_right (by decide) hw
  refine if_pos (decide_eq_true ?_)
  omega

/-- What an accumulator stores is a signed number of its width. -/
theorem accStore_bounds {c : Config} {w : Nat} (hw : c.accWidth = w + 1) (x : Int) :
    -(2 ^ w : Int) ≤ accStore c x ∧ accStore c x < (2 ^ w : Int) := by
  have hdouble : ((2 ^ c.accWidth : Nat) : Int) = 2 * 2 ^ w := by
    rw [hw]
    push_cast
    ring
  have hpos : (0 : Int) < 2 ^ w := by positivity
  unfold accStore
  split
  · next hholds =>
    have := of_decide_eq_true hholds
    omega
  · have hlow := Int.le_bmod (x := Config.accOverflow c.accWidth x) (m := 2 ^ c.accWidth) (by positivity)
    have hhigh := Int.bmod_lt (x := Config.accOverflow c.accWidth x) (m := 2 ^ c.accWidth) (by positivity)
    omega

theorem exists_of_mem_zipWith {α β γ : Type} {f : α → β → γ} {as : List α} {bs : List β} {x : γ}
    (h : x ∈ List.zipWith f as bs) : ∃ a b, f a b = x := by
  rw [← List.map_uncurry_zip_eq_zipWith] at h
  obtain ⟨⟨a, b⟩, -, rfl⟩ := List.mem_map.mp h
  exact ⟨a, b, rfl⟩

theorem length_addSamples {c : Config} {v : List Int} {xs : List Sample} (h : xs.length = v.length) :
    (addSamples c v xs).length = v.length := by
  simp [addSamples, h]

theorem length_subSamples {c : Config} {v : List Int} {xs : List Sample} (h : xs.length = v.length) :
    (subSamples c v xs).length = v.length := by
  simp [subSamples, h]

theorem addSamples_getD {c : Config} {v : List Int} {xs : List Sample} (h : xs.length = v.length) {k : Nat}
    (hk : k < v.length) : (addSamples c v xs).getD k 0 = accStore c (v.getD k 0 + (xs.getD k 0).toInt) := by
  simp [addSamples, List.getD, hk, h]

theorem subSamples_getD {c : Config} {v : List Int} {xs : List Sample} (h : xs.length = v.length) {k : Nat}
    (hk : k < v.length) : (subSamples c v xs).getD k 0 = accStore c (v.getD k 0 - (xs.getD k 0).toInt) := by
  simp [subSamples, List.getD, hk, h]

theorem sample_natAbs_le (x : Sample) : x.toInt.natAbs ≤ 2 ^ 15 := by
  have hlow := x.le_toInt
  have hhigh := x.toInt_lt
  omega

theorem sampleSum_append (cs : List (List Sample)) (c : List Sample) (k : Nat) :
    sampleSum (cs ++ [c]) k = sampleSum cs k + (c.getD k 0).toInt := by
  simp [sampleSum]

/-- Each of `n` samples adds at most 15 bits. -/
theorem sampleSum_natAbs_le (cs : List (List Sample)) (k : Nat) : (sampleSum cs k).natAbs ≤ cs.length * 2 ^ 15 := by
  induction cs using List.reverseRecOn with
  | nil => simp [sampleSum]
  | append_singleton cs c ih =>
    have hc := sample_natAbs_le (c.getD k 0)
    rw [sampleSum_append, List.length_append]
    simp only [List.length_singleton]
    omega

theorem sampleSum_small {cs : List (List Sample)} (h : cs.length ≤ 256) (k : Nat) : (sampleSum cs k).natAbs ≤ 2 ^ 23 := by
  have := sampleSum_natAbs_le cs k
  omega

section
variable {cfg : Config} {n : Nat} {cs : List (List Sample)}

/-- The accumulator after all contributions have been added to it. -/
def accSum (cfg : Config) (n : Nat) (cs : List (List Sample)) : List Int :=
  cs.foldl (addSamples cfg) (List.replicate n 0)

theorem accSum_append (c : List Sample) : accSum cfg n (cs ++ [c]) = addSamples cfg (accSum cfg n cs) c := by
  simp [accSum]

theorem length_accSum (hlen : ∀ c ∈ cs, c.length = n) : (accSum cfg n cs).length = n := by
  induction cs using List.reverseRecOn with
  | nil => simp [accSum]
  | append_singleton cs c ih =>
    have ih := ih fun c' hc' => hlen c' (by simp [hc'])
    rw [accSum_append, length_addSamples (by rw [ih]; exact hlen c (by simp)), ih]

/-- At most 256 contributions never reach the width, so every partial sum is exact. -/
theorem accSum_getD (hw : 25 ≤ cfg.accWidth) (hcount : cs.length ≤ 256) (hlen : ∀ c ∈ cs, c.length = n) {k : Nat}
    (hk : k < n) : (accSum cfg n cs).getD k 0 = sampleSum cs k := by
  induction cs using List.reverseRecOn with
  | nil => simp [accSum, sampleSum, hk]
  | append_singleton cs c ih =>
    have hlen' : ∀ c' ∈ cs, c'.length = n := fun c' hc' => hlen c' (by simp [hc'])
    have hacc := length_accSum (cfg := cfg) hlen'
    have hsmall := sampleSum_small hcount k
    rw [sampleSum_append] at hsmall ⊢
    rw [accSum_append, addSamples_getD (by rw [hacc]; exact hlen c (by simp)) (hacc.symm ▸ hk),
      ih (by simp at hcount; omega) hlen', accStore_of_small hw (by omega)]

theorem sampleSum_sub_small (hcount : cs.length ≤ 256) (c : List Sample) (k : Nat) :
    (sampleSum cs k - (c.getD k 0).toInt).natAbs ≤ 2 ^ 23 + 2 ^ 15 := by
  have hsum := sampleSum_small hcount k
  have hc := sample_natAbs_le (c.getD k 0)
  omega

theorem subSamples_accSum_getD (hw : 25 ≤ cfg.accWidth) (hcount : cs.length ≤ 256) (hlen : ∀ c ∈ cs, c.length = n)
    {k : Nat} (hk : k < n) {c : List Sample} (hc : c.length = n) :
    (subSamples cfg (accSum cfg n cs) c).getD k 0 = sampleSum cs k - (c.getD k 0).toInt := by
  have hacc := length_accSum (cfg := cfg) hlen
  rw [subSamples_getD (hc.trans hacc.symm) (hacc.symm ▸ hk), accSum_getD hw hcount hlen hk,
    accStore_of_small hw (sampleSum_sub_small hcount c k)]

end

/-- Settles O57: the sum of 256 samples has 24 bits, a difference 25, and what is stored has the accumulator's width. -/
theorem accumulatorIsExact : Obligations.AccumulatorIsExact := by
  unfold Obligations.AccumulatorIsExact
  refine fun cfg => ⟨fun hw n cs hcount hlen => ⟨length_accSum hlen, fun k hk => ?_⟩, fun w v c x hw hx => ?_⟩
  · exact ⟨accSum_getD hw hcount hlen hk, sampleSum_small hcount k, fun c hc =>
      ⟨subSamples_accSum_getD hw hcount hlen hk (hlen c hc), sampleSum_sub_small hcount c k⟩⟩
  · rcases hx with hx | hx <;> obtain ⟨_, _, rfl⟩ := exists_of_mem_zipWith hx <;> exact accStore_bounds hw _

/-! ### The clamp (42_mixer.md R272) -/

theorem clampInt_eq_nearest {c : Config} (h : c.clampMin ≤ c.clampMax) (x : Int) :
    clampInt c x = max c.clampMin (min c.clampMax x) := by
  unfold clampInt
  split
  · omega
  · split <;> omega

theorem clampSample_toInt {c : Config} (h : c.WF) (x : Int) :
    (clampSample c x).toInt = max c.clampMin (min c.clampMax x) := by
  obtain ⟨-, -, -, -, -, -, hmin, hle, hmax⟩ := h
  rw [← clampInt_eq_nearest hle]
  have := clampInt_eq_nearest hle x
  exact BitVec.toInt_ofInt_eq_self (by decide) (by simp; omega) (by simp; omega)

theorem length_bytesOfSamples (v : List Sample) : (bytesOfSamples v).length = 2 * v.length := by
  simp [bytesOfSamples, Nat.mul_comm]

theorem samplesOf_bytesOfSamples (v : List Sample) : samplesOf (bytesOfSamples v) = v := by
  induction v with
  | nil => rfl
  | cons x v ih =>
    have whole : x.extractLsb' 8 8 ++ x.extractLsb' 0 8 = x :=
      (BitVec.extractLsb'_append_extractLsb'_eq_extractLsb' rfl).trans BitVec.extractLsb'_eq_self
    show (x.extractLsb' 8 8 ++ x.extractLsb' 0 8) :: samplesOf (bytesOfSamples v) = x :: v
    rw [whole, ih]

theorem length_mixBytes (c : Config) (v : List Int) : (mixBytes c v).length = 2 * v.length := by
  rw [mixBytes, length_bytesOfSamples, List.length_map]

theorem samplesOf_mixBytes (c : Config) (v : List Int) : samplesOf (mixBytes c v) = v.map (clampSample c) :=
  samplesOf_bytesOfSamples _

/-- Settles O58: the clamp is the nearest value within its bounds, and encoding loses nothing. -/
theorem mixedSamplesAreClamped : Obligations.MixedSamplesAreClamped := by
  unfold Obligations.MixedSamplesAreClamped
  refine fun c hwf => ⟨clampSample_toInt hwf, fun v => ⟨length_mixBytes c v, samplesOf_mixBytes c v, fun hmin hmem => ?_⟩⟩
  rw [samplesOf_mixBytes] at hmem
  obtain ⟨x, -, hx⟩ := List.mem_map.mp hmem
  have hclamped := clampSample_toInt hwf x
  rw [hx] at hclamped
  have : (0x8000 : Sample).toInt = -32768 := by decide
  omega

/-! ### Bypass (42_mixer.md R265, R266) -/

section
variable (now : BitVec 64) (s : State) (i : Nat)

@[simp] theorem port_scanned_outEn : ((s.scanned now).port i).outEn = (s.port i).outEn := by
  rw [port_scanned, scanPort_eq]

@[simp] theorem port_scanned_outq : ((s.scanned now).port i).outq = (s.port i).outq := by
  rw [port_scanned, scanPort_eq]

@[simp] theorem port_scanned_buf : ((s.scanned now).port i).buf = (s.port i).buf := by
  rw [port_scanned, scanPort_eq]

end

/-- The state in which a tick in bypass with port `p` forwards its packets: `p`'s input is taken, and on entering bypass its
bufferizer flushed. -/
def State.bypassEntered (p : Nat) (s : State) : State :=
  ((if s.mix.bypass = some p then s else s.mapPort p fun q => { q with buf := [] }).mapMix fun m =>
    { m with bypass := some p }).mapPort p fun q => { q with inq := [] }

section
variable {s : State} {p : Nat}

theorem bypassTick_eq_forward (p : Nat) (s : State) :
    bypassTick p s = (bypassOutputs p s).foldl (forwardTo (s.port p).inq) (s.bypassEntered p) := rfl

theorem bypassEntered_frame (p : Nat) (s : State) :
    SameButPorts (s.mapMix fun m => { m with bypass := some p }) (s.bypassEntered p) := by
  unfold State.bypassEntered
  split
  · exact sameButPorts_mapPort ..
  · exact ⟨rfl, rfl, rfl, rfl, rfl, by simp⟩

theorem bypassEntered_fault (p : Nat) (s : State) : (s.bypassEntered p).fault = s.fault := by
  unfold State.bypassEntered
  split <;> rfl

theorem port_bypassEntered_self (hp : p < s.mix.ports.length) : (s.bypassEntered p).port p =
    { s.port p with inq := [], buf := if s.mix.bypass = some p then (s.port p).buf else [] } := by
  unfold State.bypassEntered
  split
  · exact State.port_mapPort_self (s := s.mapMix _) _ hp
  · refine (State.port_mapPort_self (s := (s.mapPort p _).mapMix _) _ (by simpa using hp)).trans ?_
    exact congrArg (fun q : Port => { q with inq := [] }) (State.port_mapPort_self (s := s) _ hp)

theorem port_bypassEntered_ne {j : Nat} (hj : p ≠ j) : (s.bypassEntered p).port j = s.port j := by
  unfold State.bypassEntered
  split
  · exact State.port_mapPort_ne (s := s.mapMix _) _ hj
  · exact (State.port_mapPort_ne (s := (s.mapPort p _).mapMix _) _ hj).trans (State.port_mapPort_ne (s := s) _ hj)

theorem port_bypassEntered_outq (hp : p < s.mix.ports.length) (j : Nat) :
    ((s.bypassEntered p).port j).outq = (s.port j).outq := by
  by_cases hj : p = j
  · subst hj
    rw [port_bypassEntered_self hp]
  · rw [port_bypassEntered_ne hj]

theorem mem_bypassOutputs {o : Nat} : o ∈ bypassOutputs p s ↔
    o < s.cfg.nports ∧ (s.port o).outEn = true ∧ ¬ (s.mix.conf = true ∧ o = p) := by
  simp [bypassOutputs, State.portList, or_iff_not_imp_left]

/-- What a bypass output's queue takes of the packets of port `p`; any other output takes none. -/
def forwarded (p : Nat) (s : State) (j : Nat) : List Bytes :=
  if j ∈ bypassOutputs p s then takeRoom s.cfg.mixOutqCap (s.port j).outq.length (s.port p).inq else []

/-- A tick in bypass: each output queue takes what it has room for, and bit 1 tells that one had not. -/
theorem bypassTick_eq (hports : s.mix.ports.length = s.cfg.nports) (hp : p < s.cfg.nports) :
    (∀ j, (bypassTick p s).port j =
      { (s.bypassEntered p).port j with outq := (s.port j).outq ++ forwarded p s j }) ∧
    (bypassTick p s).fault = s.fault |||
      (if ∃ o ∈ bypassOutputs p s, takeRoom s.cfg.mixOutqCap (s.port o).outq.length (s.port p).inq ≠ (s.port p).inq
        then mixOutqOvf else 0) := by
  have frame := bypassEntered_frame p s
  have houtq := port_bypassEntered_outq (hports.symm ▸ hp)
  have hin : ∀ o ∈ bypassOutputs p s, o < (s.bypassEntered p).mix.ports.length := fun o ho => by
    rw [frame.length]
    exact hports.symm ▸ (mem_bypassOutputs.mp ho).1
  obtain ⟨hport, hfault⟩ := foldl_forwardTo_eq (s.port p).inq (bypassOutputs p s) (s.bypassEntered p)
    (List.nodup_range.filter _) hin
  refine ⟨fun j => ?_, ?_⟩
  · rw [bypassTick_eq_forward, hport j, houtq, frame.cfg, forwarded]
    split
    · rfl
    · rw [← houtq, List.append_nil]
  · rw [bypassTick_eq_forward, hfault, bypassEntered_fault]
    simp only [houtq, frame.cfg, State.mapMix_cfg]

end

section
variable {now : BitVec 64} {s : State} {p : Nat}

theorem bypassOutputs_scanned : bypassOutputs p (s.scanned now) = bypassOutputs p s :=
  List.filter_congr fun o _ => by rw [port_scanned_outEn]; rfl

theorem port_scanned_inq_of_active (h : p ∈ activePorts now s) : ((s.scanned now).port p).inq = (s.port p).inq := by
  rw [port_scanned_of_active h]

theorem forwarded_scanned (h : p ∈ activePorts now s) (j : Nat) : forwarded p (s.scanned now) j = forwarded p s j := by
  rw [forwarded, bypassOutputs_scanned, port_scanned_outq, port_scanned_inq_of_active h]
  rfl

theorem lone_port_active (hone : activePorts now s = [p]) : p ∈ activePorts now s ∧ p < s.cfg.nports := by
  have hp : p ∈ activePorts now s := by rw [hone]; exact List.mem_singleton_self p
  exact ⟨hp, (mem_activePorts.mp hp).1⟩

variable (hinv : MixInv s.cfg s.mix) (hone : activePorts now s = [p])
include hinv hone

/-- The one active port after its tick in bypass. -/
theorem port_bypassed_self : (tickSteps now s).port p =
    { s.port p with
      inq := []
      buf := if s.mix.bypass = some p then (s.port p).buf else []
      lastSeen := if (s.port p).inq = [] then (s.port p).lastSeen else some now
      outq := (s.port p).outq ++ forwarded p s p } := by
  obtain ⟨hactive, hp⟩ := lone_port_active hone
  have hports := (scanned_frame now s).length.trans hinv.portCount
  rw [tickSteps_of_one hone, (bypassTick_eq (s := s.scanned now) hports hp).1, forwarded_scanned hactive,
    port_bypassEntered_self (hports.symm ▸ hp), port_scanned_of_active hactive]
  rfl

/-- Any other port after that tick. -/
theorem port_bypassed_ne {o : Nat} (ho : o < s.cfg.nports) (hne : o ≠ p) : (tickSteps now s).port o =
    { s.port o with inq := [], outq := (s.port o).outq ++ forwarded p s o } := by
  obtain ⟨hactive, hp⟩ := lone_port_active hone
  have hports := (scanned_frame now s).length.trans hinv.portCount
  rw [tickSteps_of_one hone, (bypassTick_eq (s := s.scanned now) hports hp).1, forwarded_scanned hactive,
    port_bypassEntered_ne hne.symm, port_scanned_of_not_active ho (by simp [hone, hne])]

theorem fault_bypassed : (tickSteps now s).fault = s.fault |||
    (if ∃ o ∈ bypassOutputs p s, takeRoom s.cfg.mixOutqCap (s.port o).outq.length (s.port p).inq ≠ (s.port p).inq
      then mixOutqOvf else 0) := by
  obtain ⟨hactive, hp⟩ := lone_port_active hone
  have hports := (scanned_frame now s).length.trans hinv.portCount
  rw [tickSteps_of_one hone, (bypassTick_eq (s := s.scanned now) hports hp).2]
  simp only [bypassOutputs_scanned, port_scanned_outq, port_scanned_inq_of_active hactive]
  rfl

end

/-- Settles O53: the scan keeps the one active port's packets, and the outputs are those of the bypass. -/
theorem bypassForwardsVerbatim : Obligations.BypassForwardsVerbatim := by
  unfold Obligations.BypassForwardsVerbatim
  intro now s p hinv haccepted hone
  have hself := port_bypassed_self hinv hone
  have hother {o : Nat} := port_bypassed_ne hinv hone (o := o)
  have hsent : ∀ o, o < s.cfg.nports → forwarded p s o =
      if (s.port o).outEn = true ∧ ¬ (s.mix.conf = true ∧ o = p)
      then takeRoom s.cfg.mixOutqCap (s.port o).outq.length (s.port p).inq else [] := fun o ho => by
    simp only [forwarded, mem_bypassOutputs, ho, true_and]
  refine ⟨_, decide (∃ o ∈ bypassOutputs p s,
      takeRoom s.cfg.mixOutqCap (s.port o).outq.length (s.port p).inq ≠ (s.port p).inq),
    exec_mixTick_of_accepted haccepted, tickSteps_answered now s, ?_⟩
  simp only [State.port_respond]
  refine ⟨?_, ?_, ?_, fun o ho => ?_, ?_, ?_, ?_, fun o ho hne => ?_⟩
  · rw [State.respond_mix, tickSteps_of_one hone]
    exact (bypassTick_frame p _).bypass
  · simp only [decide_eq_true_eq]
    exact fault_bypassed hinv hone
  · simp only [decide_eq_true_eq, mem_bypassOutputs, and_assoc]
  · rw [← hsent o ho]
    by_cases ho' : o = p
    · subst ho'
      rw [hself]
      exact ⟨rfl, rfl, rfl⟩
    · rw [hother ho ho']
      exact ⟨rfl, rfl, rfl⟩
  · rw [hself]
  · rw [hself]
  · rw [hself]
  · rw [hother ho hne]
    exact ⟨rfl, rfl, rfl⟩

/-! ### The mix (42_mixer.md R261, R263, R267) -/

/-- The state in which the ports take their turns. -/
def State.mixStart (now : BitVec 64) (s : State) : State := (s.scanned now).mapMix fun m => { m with bypass := none }

/-- The mix once the active ports have had their turns. -/
def mixRun (now : BitVec 64) (s : State) : MixRun :=
  (activePorts now s).foldl (mixPort now) ⟨s.mixStart now, List.replicate s.tickSamples 0, []⟩

section
variable {now : BitVec 64} {s : State}

theorem tickSteps_eq_dispatch (h : 2 ≤ (activePorts now s).length) : tickSteps now s = dispatchOutputs (mixRun now s) :=
  tickSteps_of_many h

theorem port_mixStart (i : Nat) : (s.mixStart now).port i = (s.scanned now).port i := rfl

theorem mixStart_frame (now : BitVec 64) (s : State) :
    SameButPorts (s.mapMix fun m => { m with lastNow := some now, bypass := none }) (s.mixStart now) :=
  ⟨rfl, rfl, rfl, rfl, rfl, (scanned_frame now s).length⟩

theorem mixRun_frame (now : BitVec 64) (s : State) :
    SameButPorts (s.mapMix fun m => { m with lastNow := some now, bypass := none }) (mixRun now s).st :=
  (mixStart_frame now s).trans (foldl_mixPort_frame now _ ⟨s.mixStart now, _, _⟩)

/-! The scan keeps what an active port has for the tick. -/

theorem offeredInput_mixStart {i : Nat} (hi : i ∈ activePorts now s) : offeredInput (s.mixStart now) i = offeredInput s i := by
  rw [offeredInput, port_mixStart, port_scanned_of_active hi]
  rfl

theorem tickInput_mixStart {i : Nat} (hi : i ∈ activePorts now s) : tickInput (s.mixStart now) i = tickInput s i := by
  rw [tickInput, offeredInput_mixStart hi]
  rfl

theorem contributes_mixStart {i : Nat} (hi : i ∈ activePorts now s) : contributes (s.mixStart now) i = contributes s i := by
  rw [contributes, tickInput_mixStart hi]
  rfl

theorem tickSamplesOf_mixStart {i : Nat} (hi : i ∈ activePorts now s) :
    tickSamplesOf (s.mixStart now) i = tickSamplesOf s i := by
  rw [tickSamplesOf, tickInput_mixStart hi]
  rfl

theorem mem_contributors {i : Nat} : i ∈ contributors now s ↔ i ∈ activePorts now s ∧ contributes s i = true :=
  List.mem_filter

/-- What the turns of a mix tick leave: the channels, the sum, the contributions, and bit 2 when bytes were cut off. -/
structure MixOutcome (now : BitVec 64) (s : State) (r : MixRun) : Prop where
  others : ∀ j, j ∉ activePorts now s → r.st.port j = (s.scanned now).port j
  active : ∀ i ∈ activePorts now s, r.st.port i = channelAfterMix now (s.mixStart now) i
  sum : r.sum = accSum s.cfg s.tickSamples ((contributors now s).map (tickSamplesOf s))
  contrib : r.contrib = (contributors now s).map fun i => (i, tickSamplesOf s i)
  fault : r.st.fault = s.fault ||| (if ∃ i ∈ activePorts now s, tickInput s i ≠ offeredInput s i then mixBufOvf else 0)

theorem mixRun_outcome (hinv : MixInv s.cfg s.mix) : MixOutcome now s (mixRun now s) := by
  have hready : ∀ i ∈ activePorts now s, i < (s.mixStart now).mix.ports.length ∧
      fits (s.mixStart now).cfg.mixBufCap ((s.mixStart now).port i).buf.length = true := by
    intro i hi
    have hlt : i < s.mix.ports.length := hinv.portCount ▸ (mem_activePorts.mp hi).1
    rw [port_mixStart, port_scanned_buf]
    exact ⟨(mixStart_frame now s).length ▸ hlt, (hinv.portsInv _ (State.port_mem hlt)).bufFits⟩
  obtain ⟨others, active, sum, contrib, fault⟩ := foldl_mixPort_eq now (activePorts now s)
    ⟨s.mixStart now, List.replicate s.tickSamples 0, []⟩ (activePorts_nodup now s) hready
  have hcontributors : (activePorts now s).filter (contributes (s.mixStart now)) = contributors now s :=
    List.filter_congr fun i hi => contributes_mixStart hi
  have hsamples : ∀ i ∈ contributors now s, tickSamplesOf (s.mixStart now) i = tickSamplesOf s i := fun i hi =>
    tickSamplesOf_mixStart (mem_contributors.mp hi).1
  refine ⟨others, active, ?_, ?_, ?_⟩
  · refine sum.trans ?_
    rw [hcontributors, List.map_congr_left hsamples]
    rfl
  · refine contrib.trans ?_
    rw [hcontributors, List.nil_append]
    exact List.map_congr_left fun i hi => by rw [hsamples i hi]
  · have hcut : (∃ i ∈ activePorts now s, tickInput (s.mixStart now) i ≠ offeredInput (s.mixStart now) i) ↔
        ∃ i ∈ activePorts now s, tickInput s i ≠ offeredInput s i :=
      exists_congr fun i => and_congr_right fun hi => by rw [tickInput_mixStart hi, offeredInput_mixStart hi]
    refine fault.trans ?_
    rw [if_congr hcut rfl rfl]
    rfl

/-! ### A channel after the mix (42_mixer.md R264, R267, R268) -/

section
variable {windowMs threshold nch : Nat} {q : Port}

theorem flowControl_of_first (h : q.lastFc = none) :
    flowControl windowMs threshold nch now q = { q with lastFc := some now } := by
  rw [flowControl, h]

theorem flowControl_of_inside {start : BitVec 64} (h : q.lastFc = some start)
    (hin : (now.toNat : Int) - (start.toNat : Int) < windowMs) : flowControl windowMs threshold nch now q = q := by
  rw [flowControl, h]
  exact if_neg (Int.not_le.mpr hin)

/-- At a window's end the excess over half the threshold goes, in whole frames. The model's bound by what is held is one
that `drop` has by itself. -/
theorem flowControl_of_end {start : BitVec 64} {low : Nat} (h : q.lastFc = some start)
    (hend : (windowMs : Int) ≤ (now.toNat : Int) - (start.toNat : Int)) (hlow : q.minFull = some low) :
    flowControl windowMs threshold nch now q =
      { q with
        buf := if threshold < low
          then q.buf.drop (low - threshold / 2 - (low - threshold / 2) % (2 * nch)) else q.buf
        minFull := none
        lastFc := some now } := by
  have hskip : q.buf.drop (skipBytes threshold nch low q.buf.length) =
      q.buf.drop (low - threshold / 2 - (low - threshold / 2) % (2 * nch)) := List.drop_eq_drop_min.symm
  have hended : (windowMs : Int) ≤ timeDiff now start := hend
  rw [flowControl, h]
  dsimp only
  rw [if_pos hended, hlow]
  dsimp only
  rw [hskip]

end

/-- The window's minimum with one more fullness sample (42_mixer.md R264). -/
def lowestFullness (minFull : Option Nat) (n : Nat) : Nat := minFull.elim n (min · n)

/-- Flow control touches the bufferizer and the window alone. -/
theorem flowControl_keep {α : Type} (g : Port → α)
    (hg : ∀ q buf minFull lastFc, g { q with buf := buf, minFull := minFull, lastFc := lastFc } = g q)
    (windowMs threshold nch : Nat) (now : BitVec 64) (q : Port) : g (flowControl windowMs threshold nch now q) = g q := by
  unfold flowControl
  split
  · exact hg q q.buf q.minFull (some now)
  · split
    · exact hg ..
    · rfl

/-- An active port before its flow control, when the tick's bytes are taken and `low` is the window's minimum. -/
def mixedChannel (now : BitVec 64) (q : Port) (held : Bytes) (low : Nat) : Port :=
  { q with
    inq := []
    buf := held
    lastSeen := if q.inq = [] then q.lastSeen else some now
    minFull := some low }

/-- An active port's channel after the mix, from the state before the tick. -/
theorem channelAfterMix_mixStart {i : Nat} {held : Bytes} {low : Nat} (hi : i ∈ activePorts now s)
    (hheld : held = if s.tickBytes ≤ (tickInput s i).length then (tickInput s i).drop s.tickBytes else tickInput s i)
    (hlow : low = lowestFullness (s.port i).minFull (tickInput s i).length) : channelAfterMix now (s.mixStart now) i =
      flowControl s.cfg.fcWindowMs s.fcThreshold s.mix.runNch.toNat now (mixedChannel now (s.port i) held low) := by
  have hbuf : (if contributes s i = true then (tickInput s i).drop s.tickBytes else tickInput s i) = held := by
    simp only [hheld, contributes, decide_eq_true_eq]
  unfold channelAfterMix
  rw [contributes_mixStart hi, tickInput_mixStart hi, port_mixStart, port_scanned_of_active hi]
  refine congrArg (flowControl s.cfg.fcWindowMs s.fcThreshold s.mix.runNch.toNat now) ?_
  rw [mixedChannel, ← hbuf, hlow]
  cases (s.port i).minFull <;> rfl

/-- What a mix tick's outputs leave of a port: its output queue alone is touched. -/
theorem port_mixed (hinv : MixInv s.cfg s.mix) {i : Nat} (hi : i < s.cfg.nports) :
    (dispatchOutputs (mixRun now s)).port i =
      { (mixRun now s).st.port i with
        outq := ((mixRun now s).st.port i).outq ++
          if ((mixRun now s).st.port i).outEn = true
          then takeRoom s.cfg.mixOutqCap ((mixRun now s).st.port i).outq.length [outputBuffer (mixRun now s) i] else [] } := by
  have frame := mixRun_frame now s
  have hcfg : (mixRun now s).st.cfg = s.cfg := frame.cfg
  obtain ⟨hport, -⟩ := dispatchOutputs_eq (mixRun now s) (by rw [hcfg, ← hinv.portCount]; exact frame.length)
  rw [hport i (hcfg ▸ hi), hcfg]
  split
  · rfl
  · rw [List.append_nil]

end

/-- Settles O55: the active channels by their turns' flow control, the others by the scan. -/
theorem mixTickChannelEffects : Obligations.MixTickChannelEffects := by
  unfold Obligations.MixTickChannelEffects
  intro now s hinv haccepted hmany
  have outcome := mixRun_outcome (now := now) hinv
  refine ⟨_, exec_mixTick_of_accepted haccepted, fun i hi held low hheld hlow => ?_, fun i hlt hi => ?_⟩
  · have hlow' : low = lowestFullness (s.port i).minFull (tickInput s i).length :=
      hlow.trans (by cases (s.port i).minFull <;> rfl)
    rw [tickSteps_eq_dispatch hmany, State.port_respond, port_mixed hinv (mem_activePorts.mp hi).1, outcome.active i hi,
      channelAfterMix_mixStart hi hheld hlow']
    refine ⟨flowControl_keep Port.inq (fun _ _ _ _ => rfl) .., flowControl_keep Port.lastSeen (fun _ _ _ _ => rfl) ..,
      fun hfirst => ?_, fun start hstart hin => ?_, fun start hstart hend => ?_⟩
    · rw [flowControl_of_first (q := mixedChannel ..) hfirst]
      exact ⟨rfl, rfl, rfl⟩
    · rw [flowControl_of_inside (q := mixedChannel ..) hstart hin]
      exact ⟨rfl, rfl, hstart⟩
    · rw [flowControl_of_end (q := mixedChannel ..) hstart hend rfl]
      exact ⟨rfl, rfl, fun hle => if_neg (Nat.not_lt.mpr hle), fun hlt => if_pos hlt⟩
  · rw [tickSteps_eq_dispatch hmany, State.port_respond, port_mixed hinv hlt, outcome.others i hi,
      port_scanned_of_not_active hlt hi]
    exact ⟨rfl, rfl, rfl, rfl, rfl⟩

/-! ### The samples of a mix (42_mixer.md R268 to R270, R273) -/

theorem length_samplesOf (b : Bytes) : (samplesOf b).length = b.length / 2 := by
  induction b using samplesOf.induct with
  | case1 lo hi rest ih => simp only [samplesOf, List.length_cons, ih]; omega
  | case2 b hshort =>
    match b, hshort with
    | [], _ => rfl
    | [_], _ => simp [samplesOf]
    | lo :: hi :: rest, hshort => exact absurd rfl (hshort lo hi rest)

/-- Numbers known one by one are known as a list. -/
theorem eq_map_range_of_getD {v : List Int} {n : Nat} {f : Nat → Int} (hlen : v.length = n)
    (h : ∀ k < n, v.getD k 0 = f k) : v = (List.range n).map f := by
  refine List.ext_getElem (by simp [hlen]) fun k hk _ => ?_
  have hget := h k (hlen ▸ hk)
  rw [List.getD_eq_getElem _ _ hk] at hget
  simp [hget]

section
variable {now : BitVec 64} {s : State}

/-- A contributor gives a whole tick of samples. -/
theorem length_tickSamplesOf {i : Nat} (hi : i ∈ contributors now s) : (tickSamplesOf s i).length = s.tickSamples := by
  have hwhole : s.tickBytes ≤ (tickInput s i).length := of_decide_eq_true (mem_contributors.mp hi).2
  rw [tickSamplesOf, length_samplesOf, List.length_take, Nat.min_eq_left hwhole, State.tickBytes,
    Nat.mul_div_cancel_left _ (by decide)]

theorem contributors_nodup (now : BitVec 64) (s : State) : (contributors now s).Nodup := (activePorts_nodup now s).filter _

theorem length_contributors_le (now : BitVec 64) (s : State) : (contributors now s).length ≤ s.cfg.nports := by
  calc (contributors now s).length ≤ (activePorts now s).length := List.length_filter_le ..
    _ ≤ s.portList.length := List.length_filter_le ..
    _ = s.cfg.nports := List.length_range

/-- The samples the contributors add. -/
def contributions (now : BitVec 64) (s : State) : List (List Sample) := (contributors now s).map (tickSamplesOf s)

theorem length_of_mem_contributions {c : List Sample} (hc : c ∈ contributions now s) : c.length = s.tickSamples := by
  obtain ⟨i, hi, rfl⟩ := List.mem_map.mp hc
  exact length_tickSamplesOf hi

theorem length_contributions_le (hwf : s.cfg.WF) : (contributions now s).length ≤ 256 := by
  obtain ⟨⟨-, hports⟩, -⟩ := hwf
  rw [contributions, List.length_map]
  exact (length_contributors_le now s).trans hports

theorem sampleSum_contributions (k : Nat) : sampleSum (contributions now s) k = exactSum s (contributors now s) k := by
  rw [sampleSum, contributions, List.map_map]
  rfl

/-- Without conferencing, or for an output that contributes nothing, every contributor is summed. -/
theorem mixedFor_eq_contributors {o : Nat} (h : ¬ (s.mix.conf = true ∧ o ∈ contributors now s)) :
    mixedFor now s o = contributors now s := by
  refine List.filter_eq_self.mpr fun i hi => ?_
  rw [Bool.not_eq_true', Bool.and_eq_false_iff, beq_eq_false_iff_ne]
  by_cases hconf : s.mix.conf = true
  · exact .inr fun hio => h ⟨hconf, hio ▸ hi⟩
  · exact .inl (by simpa using hconf)

/-- In conferencing mode a contributor's own samples are left out of its sum. -/
theorem exactSum_mixedFor_of_own {o : Nat} (hconf : s.mix.conf = true) (ho : o ∈ contributors now s) (k : Nat) :
    exactSum s (mixedFor now s o) k = exactSum s (contributors now s) k - contribution s o k := by
  have herase : mixedFor now s o = (contributors now s).erase o := by
    rw [(contributors_nodup now s).erase_eq_filter]
    refine List.filter_congr fun i _ => ?_
    rw [hconf]
    rfl
  have hsum := List.sum_map_erase (fun i => contribution s i k) ho
  rw [exactSum, herase, exactSum, ← hsum]
  omega

/-- The accumulator that output `o` is made from: the sum, in conferencing mode less `o`'s own samples. -/
def outputSum (now : BitVec 64) (s : State) (o : Nat) : List Int :=
  if s.mix.conf = true ∧ o ∈ contributors now s
  then subSamples s.cfg (accSum s.cfg s.tickSamples (contributions now s)) (tickSamplesOf s o)
  else accSum s.cfg s.tickSamples (contributions now s)

theorem length_outputSum (now : BitVec 64) (s : State) (o : Nat) : (outputSum now s o).length = s.tickSamples := by
  have hacc : (accSum s.cfg s.tickSamples (contributions now s)).length = s.tickSamples :=
    length_accSum fun _ hc => length_of_mem_contributions hc
  unfold outputSum
  split
  · next h => rw [length_subSamples ((length_tickSamplesOf h.2).trans hacc.symm), hacc]
  · exact hacc

/-- From 25 bits on, every output's samples are the exact sums. -/
theorem outputSum_eq_exact (hwf : s.cfg.WF) (hw : 25 ≤ s.cfg.accWidth) (o : Nat) :
    outputSum now s o = (List.range s.tickSamples).map (exactSum s (mixedFor now s o)) := by
  have hcount := length_contributions_le (now := now) hwf
  have hlen : ∀ c ∈ contributions now s, c.length = s.tickSamples := fun _ hc => length_of_mem_contributions hc
  refine eq_map_range_of_getD (length_outputSum now s o) fun k hk => ?_
  unfold outputSum
  split
  · next h =>
    obtain ⟨hconf, ho⟩ := h
    rw [subSamples_accSum_getD hw hcount hlen hk (length_tickSamplesOf ho), sampleSum_contributions,
      exactSum_mixedFor_of_own hconf ho]
    rfl
  · next h => rw [accSum_getD hw hcount hlen hk, sampleSum_contributions, mixedFor_eq_contributors h]

/-! ### The outputs of a mix (42_mixer.md R270, R271, R273) -/

theorem lookup_contributions_of_not_mem {o : Nat} {l : List Nat} {f : Nat → List Sample} (ho : o ∉ l) :
    (l.map fun i => (i, f i)).lookup o = none := by
  refine List.lookup_eq_none_iff.mpr fun p hp => ?_
  obtain ⟨i, hi, rfl⟩ := List.mem_map.mp hp
  exact bne_iff_ne.mpr fun (hoi : o = i) => ho (hoi ▸ hi)

variable (hinv : MixInv s.cfg s.mix)
include hinv

theorem outputBuffer_mixRun (o : Nat) : outputBuffer (mixRun now s) o = mixBytes s.cfg (outputSum now s o) := by
  have outcome := mixRun_outcome (now := now) hinv
  have frame := mixRun_frame now s
  have hcfg : (mixRun now s).st.cfg = s.cfg := frame.cfg
  have hconf : (mixRun now s).st.mix.conf = s.mix.conf := frame.conf
  have hsum : (mixRun now s).sum = accSum s.cfg s.tickSamples (contributions now s) := outcome.sum
  rw [outputBuffer, outcome.contrib, hcfg, hconf, hsum, outputSum]
  by_cases ho : o ∈ contributors now s
  · rw [List.lookup_graph _ ho]
    simp only [ho, and_true]
  · rw [lookup_contributions_of_not_mem ho]
    simp only [ho, and_false, if_false]

/-- The turns keep every output queue and every switch. -/
theorem port_mixRun_keep {α : Type} (g : Port → α)
    (hg : ∀ q inq buf lastSeen minFull lastFc,
      g { q with inq := inq, buf := buf, lastSeen := lastSeen, minFull := minFull, lastFc := lastFc } = g q) (i : Nat) :
    g ((mixRun now s).st.port i) = g (s.port i) := by
  have outcome := mixRun_outcome (now := now) hinv
  by_cases hi : i ∈ activePorts now s
  · rw [outcome.active i hi, channelAfterMix_mixStart hi rfl rfl,
      flowControl_keep g fun q buf minFull lastFc => hg q q.inq buf q.lastSeen minFull lastFc]
    exact hg ..
  · rw [outcome.others i hi, port_scanned, scanPort_eq]
    exact hg ..

/-- Every enabled output is offered its buffer, and the others nothing. -/
theorem outq_mixed {o : Nat} (ho : o < s.cfg.nports) : ((dispatchOutputs (mixRun now s)).port o).outq =
    (s.port o).outq ++
      if (s.port o).outEn = true
      then takeRoom s.cfg.mixOutqCap (s.port o).outq.length [mixBytes s.cfg (outputSum now s o)] else [] := by
  rw [port_mixed hinv ho, port_mixRun_keep hinv Port.outq fun _ _ _ _ _ _ => rfl,
    port_mixRun_keep hinv Port.outEn fun _ _ _ _ _ _ => rfl, outputBuffer_mixRun hinv]

/-- The fault bits of a mix tick: bit 2 for bytes cut off, bit 1 for a buffer dropped. -/
theorem fault_mixed : (dispatchOutputs (mixRun now s)).fault =
    s.fault ||| (if ∃ i ∈ activePorts now s, tickInput s i ≠ offeredInput s i then mixBufOvf else 0) |||
      (if ∃ o, o < s.cfg.nports ∧ (s.port o).outEn = true ∧
          fits s.cfg.mixOutqCap ((s.port o).outq.length + 1) = false then mixOutqOvf else 0) := by
  have frame := mixRun_frame now s
  have hcfg : (mixRun now s).st.cfg = s.cfg := frame.cfg
  have houtq := port_mixRun_keep (now := now) hinv Port.outq fun _ _ _ _ _ _ => rfl
  have houtEn := port_mixRun_keep (now := now) hinv Port.outEn fun _ _ _ _ _ _ => rfl
  obtain ⟨-, hfault⟩ := dispatchOutputs_eq (mixRun now s) (by rw [hcfg, ← hinv.portCount]; exact frame.length)
  simp only [hcfg, houtq, houtEn, (mixRun_outcome hinv).fault] at hfault
  exact hfault

end

/-- Settles O54: each enabled output's accumulator is the exact sum, and clamping and encoding keep its samples. -/
theorem mixedOutputIsTheClampedSum : Obligations.MixedOutputIsTheClampedSum := by
  unfold Obligations.MixedOutputIsTheClampedSum
  intro now s hwf hinv haccepted hmany
  refine ⟨_, decide (∃ i ∈ activePorts now s, tickInput s i ≠ offeredInput s i),
    decide (∃ o, o < s.cfg.nports ∧ (s.port o).outEn = true ∧ fits s.cfg.mixOutqCap ((s.port o).outq.length + 1) = false),
    exec_mixTick_of_accepted haccepted, tickSteps_answered now s, ?_⟩
  rw [tickSteps_eq_dispatch hmany]
  refine ⟨?_, ?_, decide_eq_true_iff, ?_, fun o ho => ⟨fun hoff => ?_, fun hon => ?_⟩⟩
  · exact (dispatchOutputs_frame _).bypass.trans (mixRun_frame now s).bypass
  · simp only [decide_eq_true_eq]
    exact fault_mixed hinv
  · simp only [decide_eq_true_eq, not_fits_succ_iff]
  · rw [State.port_respond, outq_mixed hinv ho, hoff]
    exact List.append_nil _
  · refine ⟨mixBytes s.cfg (outputSum now s o), ?_, ?_, fun hw => ?_⟩
    · rw [State.port_respond, outq_mixed hinv ho, if_pos hon]
    · rw [length_mixBytes, length_outputSum, State.tickBytes]
    · rw [samplesOf_mixBytes, outputSum_eq_exact hwf hw, List.map_map]
      rfl

end Sys2Proof.Machine

/-! The exceptions family (60_exceptions.md): what an error answer changes, the sticky bits of `FAULT`, and the two units'
independence of each other. -/

namespace Sys2Proof.Machine

/-- Settles O29: `SYS.FAULT` finishes in the state it read, with the register as the value. -/
theorem sysFaultReadsTheRegister : Obligations.SysFaultReadsTheRegister := by
  unfold Obligations.SysFaultReadsTheRegister
  exact ⟨by decide, fun s => finish_eq_next s.fault [] s⟩

/-! ### Error answers (60_exceptions.md R300, R304) -/

/-- Only the ending with `OK` follows any work. -/
theorem Ends.error_changes_nothing {s : State} {o : Outcome} (h : Ends s o) :
    ∃ t r, o = .next t ∧ t.resp = s.resp ++ [r] ∧
      (r.code ≠ .ok → r.value = 0 ∧ r.payload = [] ∧ t = { s with resp := s.resp ++ [r] }) := by
  cases h with
  | raise hcode => exact ⟨_, _, raise_eq_next .., rfl, fun _ => ⟨rfl, rfl, rfl⟩⟩
  | finish value payload ht =>
    exact ⟨_, ⟨.ok, value, payload⟩, rfl, by rw [State.respond_resp, ht.resp], fun herror => absurd rfl herror⟩

/-- Settles O9: every command ends in one of the two ways. -/
theorem errorResponseChangesNothing : Obligations.ErrorResponseChangesNothing := by
  unfold Obligations.ErrorResponseChangesNothing
  exact fun i s => (exec_ends i s).error_changes_nothing

/-! ### The sticky bits (60_exceptions.md R309) -/

/-- From `s` to `t` no bit of `FAULT` was cleared, and no reserved one set. -/
structure FaultKept (s t : State) : Prop where
  sticky : s.fault &&& t.fault = s.fault
  legal : faultBitsLegal s.fault → faultBitsLegal t.fault

theorem faultKept_of_eq {s t : State} (h : t.fault = s.fault) : FaultKept s t :=
  ⟨by rw [h, BitVec.and_self], fun hs => h ▸ hs⟩

theorem FaultKept.refl (s : State) : FaultKept s s := faultKept_of_eq rfl

theorem FaultKept.trans {s t u : State} (h : FaultKept s t) (h' : FaultKept t u) : FaultKept s u where
  sticky := by rw [← h.sticky, BitVec.and_assoc, h'.sticky]
  legal := h'.legal ∘ h.legal

theorem faultKept_mapUnp (f : Unp → Unp) (s : State) : FaultKept s (s.mapUnp f) := faultKept_of_eq rfl

theorem faultKept_mapMix (g : Mix → Mix) (s : State) : FaultKept s (s.mapMix g) := faultKept_of_eq rfl

theorem faultKept_mapPort (i : Nat) (f : Port → Port) (s : State) : FaultKept s (s.mapPort i f) := faultKept_of_eq rfl

theorem faultKept_setFault {bit : BitVec 32} (hbit : faultBitsLegal bit) (s : State) : FaultKept s (s.setFault bit) :=
  ⟨setFault_sticky bit s, setFault_legal hbit⟩

theorem unpOutqOvf_legal : faultBitsLegal unpOutqOvf := by unfold faultBitsLegal; decide

theorem mixOutqOvf_legal : faultBitsLegal mixOutqOvf := by unfold faultBitsLegal; decide

theorem mixBufOvf_legal : faultBitsLegal mixBufOvf := by unfold faultBitsLegal; decide

theorem faultKept_foldl {α : Type} {f : State → α → State} (h : ∀ s a, FaultKept s (f s a)) (xs : List α) (s : State) :
    FaultKept s (xs.foldl f s) :=
  List.foldlRecOn xs f (.refl s) fun w hw x _ => hw.trans (h w x)

/-! The parts of a packet's work. -/

theorem outputFrame_faultKept (s : State) : FaultKept s (outputFrame s).1 := by
  by_cases hrq : s.unp.rq = []
  · rw [outputFrame_of_empty hrq]
    exact .refl s
  · obtain ⟨_, _, _, -, -, ⟨-, queued⟩ | ⟨-, dropped⟩⟩ := outputFrame_of_nonempty hrq
    · rw [queued]
      exact faultKept_of_eq rfl
    · rw [dropped]
      exact (faultKept_setFault unpOutqOvf_legal s).trans (faultKept_of_eq rfl)

theorem tsFlush_faultKept (ts : BitVec 32) (s : State) : FaultKept s (tsFlush ts s).1 := by
  unfold tsFlush
  split
  · exact .refl s
  · split
    · exact (faultKept_mapUnp ..).trans (outputFrame_faultKept _)
    · exact .refl s

theorem markerOutput_faultKept (m : Bool) (s : State) : FaultKept s (markerOutput m s).1 := by
  cases m with
  | false => exact .refl s
  | true => exact (faultKept_mapUnp ..).trans (outputFrame_faultKept _)

theorem packetSteps_faultKept (seq : BitVec 16) (ts : BitVec 32) (m : Bool) (p : Bytes) (s : State) :
    FaultKept s (packetSteps seq ts m p s).1 :=
  ((tsFlush_faultKept ts s).trans (faultKept_mapUnp ..)).trans (markerOutput_faultKept m _)

/-! The parts of a tick's work. -/

theorem pushOut_faultKept (o : Nat) (buf : Bytes) (s : State) : FaultKept s (pushOut o buf s) := by
  rcases pushOut_cases o buf s with ⟨-, queued⟩ | ⟨-, dropped⟩
  · rw [queued]
    exact faultKept_mapPort ..
  · rw [dropped]
    exact faultKept_setFault mixOutqOvf_legal s

theorem bypassTick_faultKept (p : Nat) (s : State) : FaultKept s (bypassTick p s) := by
  rw [bypassTick_eq_forward]
  have forwarded (w : State) (o : Nat) : FaultKept w (forwardTo (s.port p).inq w o) :=
    faultKept_foldl (fun w d => pushOut_faultKept o d w) _ w
  exact (faultKept_of_eq (bypassEntered_fault p s)).trans (faultKept_foldl forwarded _ _)

theorem putBytes_faultKept (i : Nat) (d : Bytes) (s : State) : FaultKept s (putBytes i d s) := by
  unfold putBytes
  dsimp only
  split
  · exact faultKept_mapPort ..
  · exact (faultKept_mapPort ..).trans (faultKept_setFault mixBufOvf_legal _)

theorem drainInput_faultKept (i : Nat) (s : State) : FaultKept s (drainInput i s) :=
  (faultKept_mapPort ..).trans (faultKept_foldl (fun w d => putBytes_faultKept i d w) _ _)

theorem accumulate_fault (i : Nat) (r : MixRun) : (accumulate i r).st.fault = r.st.fault := by
  unfold accumulate
  dsimp only
  split
  · rfl
  · rfl

/-- Of a port's turn, only the draining can set a bit. -/
theorem mixPort_faultKept (now : BitVec 64) (r : MixRun) (i : Nat) : FaultKept r.st (mixPort now r i).st :=
  (drainInput_faultKept i r.st).trans
    (faultKept_of_eq (accumulate_fault i { r with st := (drainInput i r.st).mapPort i sampleFullness }))

theorem dispatchOutputs_faultKept (r : MixRun) : FaultKept r.st (dispatchOutputs r) := by
  refine faultKept_foldl (fun w o => ?_) _ _
  split
  · exact pushOut_faultKept ..
  · exact .refl w

theorem foldl_mixPort_faultKept (now : BitVec 64) (act : List Nat) (r : MixRun) :
    FaultKept r.st (act.foldl (mixPort now) r).st :=
  List.foldlRecOn act (mixPort now) (motive := fun w => FaultKept r.st w.st) (.refl _)
    fun w hw i _ => hw.trans (mixPort_faultKept now w i)

theorem mixTick_faultKept (act : List Nat) (now : BitVec 64) (s : State) : FaultKept s (mixTick act now s) := by
  have started : FaultKept s (s.mapMix fun m => { m with bypass := none }) := faultKept_mapMix ..
  exact (started.trans (foldl_mixPort_faultKept now act ⟨_, _, _⟩)).trans (dispatchOutputs_faultKept _)

theorem tickSteps_faultKept (now : BitVec 64) (s : State) : FaultKept s (tickSteps now s) := by
  have scanned : FaultKept s (s.scanned now) := faultKept_of_eq rfl
  match h : activePorts now s with
  | [] => rw [tickSteps_of_none h]; exact faultKept_of_eq rfl
  | [p] => rw [tickSteps_of_one h]; exact scanned.trans (bypassTick_faultKept p _)
  | _ :: _ :: _ => rw [tickSteps_of_many (by simp [h])]; exact scanned.trans (mixTick_faultKept _ now _)

/-- Only a packet and a tick can overflow anything; no other command writes `FAULT`. -/
theorem exec_faultKept (i : Instr) (s : State) : EndsIn (FaultKept s) (exec i s) := by
  have rejected (code : RespCode) : EndsIn (FaultKept s) (raise code s) := endsIn_raise code (.refl s)
  have unchanged (value : Word) (payload : Bytes) (t : State) (h : t.fault = s.fault) :
      EndsIn (FaultKept s) (finish value payload t) := endsIn_finish value payload (faultKept_of_eq h)
  have injected (k : PsKind) (p : Bytes) : EndsIn (FaultKept s) (injectPs k p s) :=
    .ite (fun _ => rejected _) fun _ => unchanged _ _ _ rfl
  cases i with
  | unpPacket seq ts m p =>
    exact .ite (fun _ => rejected _) fun _ => endsIn_finish _ _ (packetSteps_faultKept seq ts m p s)
  | unpSetSps p => exact injected .sps p
  | unpSetPps p => exact injected .pps p
  | unpReset => exact unchanged _ _ _ rfl
  | unpPop =>
    show EndsIn _ (execUnpPop s)
    unfold execUnpPop
    split
    · exact rejected _
    · exact unchanged _ _ _ rfl
  | mixPreprocess => exact .ite (fun _ => rejected _) fun _ => unchanged _ _ _ rfl
  | mixTick now =>
    exact .ite (fun _ => rejected _) fun _ => .ite (fun _ => rejected _) fun _ =>
      endsIn_finish _ _ (tickSteps_faultKept now s)
  | mixPostprocess => exact .ite (fun _ => rejected _) fun _ => unchanged _ _ _ rfl
  | mixSetRate r => exact .ite (fun _ => rejected _) fun _ => unchanged _ _ _ rfl
  | mixGetRate => exact unchanged _ _ _ rfl
  | mixSetNch n => exact .ite (fun _ => rejected _) fun _ => unchanged _ _ _ rfl
  | mixGetNch => exact unchanged _ _ _ rfl
  | mixSetConf en => exact unchanged _ _ _ rfl
  | mixSetActive port en => exact .withPort port (.refl s) fun _ => endsIn_finish _ _ (faultKept_mapPort ..)
  | mixSetOutput port en => exact .withPort port (.refl s) fun _ => endsIn_finish _ _ (faultKept_mapPort ..)
  | mixSetMaster port => exact .withPort port (.refl s) fun _ => unchanged _ _ _ rfl
  | mixPush port d =>
    exact .withPort port (.refl s) fun _ => .ite (fun _ => endsIn_finish _ _ (faultKept_mapPort ..)) fun _ => rejected _
  | mixPop port => exact execMixPop_endsIn port (.refl s) fun _ _ _ _ => faultKept_of_eq rfl
  | sysFault => exact unchanged _ _ _ rfl

theorem step_completes (s : State) : ∃ t, step s = .next t := by
  cases hf : fetch s.cmd with
  | wait => exact ⟨s, step_of_wait hf⟩
  | illegal e rest => exact ⟨_, step_of_illegal hf⟩
  | decoded i rest =>
    obtain ⟨t, -, ho, -⟩ := exec_ends i { s with cmd := rest } |>.one_response
    exact ⟨t, (step_of_decoded hf).trans ho⟩

/-- Settles O10: what every command keeps of `FAULT`, every step keeps. -/
theorem faultBitsAreSticky : Obligations.FaultBitsAreSticky := by
  unfold Obligations.FaultBitsAreSticky
  refine ⟨fun s => ?_, fun s => rfl⟩
  obtain ⟨t, ht⟩ := step_completes s
  have kept : FaultKept s t := step_keeps (P := FaultKept s) (fun _ _ h => h.trans (faultKept_of_eq rfl))
    (fun _ _ h => h.trans (faultKept_of_eq rfl)) (fun i w hw => (exec_faultKept i w).mono fun _ => hw.trans) (.refl s) ht
  exact ⟨t, ht, kept.sticky, kept.legal⟩

/-! ### A tick does not see the reassembler (60_exceptions.md R315)

Each part of its work commutes with every change `f` of the reassembler. -/

section
variable (f : Unp → Unp)

theorem pushOut_mapUnp (o : Nat) (buf : Bytes) (s : State) : pushOut o buf (s.mapUnp f) = (pushOut o buf s).mapUnp f := by
  unfold pushOut
  rw [apply_ite (State.mapUnp f)]
  rfl

theorem forwardTo_mapUnp (pkts : List Bytes) (s : State) (o : Nat) :
    forwardTo pkts (s.mapUnp f) o = (forwardTo pkts s o).mapUnp f :=
  List.foldl_hom (State.mapUnp f) fun w d => pushOut_mapUnp f o d w

theorem bypassEntered_mapUnp (p : Nat) (s : State) : (s.mapUnp f).bypassEntered p = (s.bypassEntered p).mapUnp f := by
  by_cases h : s.mix.bypass = some p
  · simp only [State.bypassEntered, State.mapUnp_mix, h, if_true]
    rfl
  · simp only [State.bypassEntered, State.mapUnp_mix, h, if_false]
    rfl

theorem bypassTick_mapUnp (p : Nat) (s : State) : bypassTick p (s.mapUnp f) = (bypassTick p s).mapUnp f := by
  rw [bypassTick_eq_forward, bypassEntered_mapUnp]
  exact List.foldl_hom (State.mapUnp f) fun w o => forwardTo_mapUnp f _ w o

theorem putBytes_mapUnp (i : Nat) (d : Bytes) (s : State) : putBytes i d (s.mapUnp f) = (putBytes i d s).mapUnp f := by
  unfold putBytes
  rw [apply_ite (State.mapUnp f)]
  rfl

theorem drainInput_mapUnp (i : Nat) (s : State) : drainInput i (s.mapUnp f) = (drainInput i s).mapUnp f :=
  List.foldl_hom (State.mapUnp f) (init := s.mapPort i _) fun w d => putBytes_mapUnp f i d w

/-- A mix in progress with its reassembler changed. -/
def MixRun.mapUnp (r : MixRun) : MixRun := { r with st := r.st.mapUnp f }

theorem accumulate_mapUnp (i : Nat) (r : MixRun) : accumulate i (r.mapUnp f) = (accumulate i r).mapUnp f := by
  unfold accumulate
  rw [apply_ite (MixRun.mapUnp f)]
  rfl

/-- A mix with the flow control of port `i` done (42_mixer.md R264). -/
def MixRun.flowControlled (now : BitVec 64) (i : Nat) (r : MixRun) : MixRun :=
  { r with st := r.st.mapPort i (flowControl r.st.cfg.fcWindowMs r.st.fcThreshold r.st.mix.runNch.toNat now) }

theorem mixPort_eq_flowControlled (now : BitVec 64) (r : MixRun) (i : Nat) : mixPort now r i =
    (accumulate i { r with st := (drainInput i r.st).mapPort i sampleFullness }).flowControlled now i := rfl

theorem flowControlled_mapUnp (now : BitVec 64) (i : Nat) (r : MixRun) :
    (r.mapUnp f).flowControlled now i = (r.flowControlled now i).mapUnp f := rfl

theorem mixPort_mapUnp (now : BitVec 64) (r : MixRun) (i : Nat) : mixPort now (r.mapUnp f) i = (mixPort now r i).mapUnp f := by
  rw [mixPort_eq_flowControlled, mixPort_eq_flowControlled, ← flowControlled_mapUnp, ← accumulate_mapUnp, MixRun.mapUnp,
    drainInput_mapUnp]
  rfl

theorem dispatchOutputs_mapUnp (r : MixRun) : dispatchOutputs (r.mapUnp f) = (dispatchOutputs r).mapUnp f :=
  List.foldl_hom (State.mapUnp f) fun w o => by
    rw [apply_ite (State.mapUnp f), ← pushOut_mapUnp]
    rfl

theorem mixTick_mapUnp (act : List Nat) (now : BitVec 64) (s : State) :
    mixTick act now (s.mapUnp f) = (mixTick act now s).mapUnp f := by
  have turns (r : MixRun) : act.foldl (mixPort now) (r.mapUnp f) = (act.foldl (mixPort now) r).mapUnp f :=
    List.foldl_hom (MixRun.mapUnp f) fun w i => mixPort_mapUnp f now w i
  have started := turns ⟨s.mapMix fun m => { m with bypass := none }, List.replicate s.tickSamples 0, []⟩
  exact (congrArg dispatchOutputs started).trans (dispatchOutputs_mapUnp f _)

theorem tickSteps_mapUnp (now : BitVec 64) (s : State) : tickSteps now (s.mapUnp f) = (tickSteps now s).mapUnp f := by
  have sameActive : activePorts now (s.mapUnp f) = activePorts now s := rfl
  match h : activePorts now s with
  | [] => rw [tickSteps_of_none h, tickSteps_of_none (sameActive.trans h)]; rfl
  | [p] =>
    rw [tickSteps_of_one h, tickSteps_of_one (sameActive.trans h)]
    exact bypassTick_mapUnp f p (s.scanned now)
  | _ :: _ :: _ =>
    have many : 2 ≤ (activePorts now s).length := by simp [h]
    rw [tickSteps_of_many many, tickSteps_of_many (s := s.mapUnp f) many]
    exact mixTick_mapUnp f _ now (s.scanned now)

end

/-! ### A packet does not see the summer (60_exceptions.md R315) -/

section
variable (g : Mix → Mix)

/-- A state and the status it came with, its summer changed. -/
def mapMixFst (r : State × Status) : State × Status := (r.1.mapMix g, r.2)

theorem emitFrame_mapMix (frame : List Bytes) (st : Status) (s : State) :
    emitFrame frame st (s.mapMix g) = (emitFrame frame st s).mapMix g := by
  unfold emitFrame
  rw [apply_ite (State.mapMix g)]
  rfl

theorem mapUnp_mapMix (f : Unp → Unp) (s : State) : (s.mapMix g).mapUnp f = (s.mapUnp f).mapMix g := rfl

theorem outputFrame_mapMix (s : State) : outputFrame (s.mapMix g) = mapMixFst g (outputFrame s) := by
  unfold outputFrame
  rw [apply_ite (mapMixFst g)]
  simp only [State.mapMix_cfg, State.mapMix_unp, mapUnp_mapMix, emitFrame_mapMix]
  rfl

theorem tsFlush_mapMix (ts : BitVec 32) (s : State) : tsFlush ts (s.mapMix g) = mapMixFst g (tsFlush ts s) := by
  rw [tsFlush, tsFlush, State.mapMix_unp]
  cases s.unp.lastTs with
  | none => rfl
  | some t₀ =>
    dsimp only
    rw [apply_ite (mapMixFst g), mapUnp_mapMix, outputFrame_mapMix]
    rfl

theorem markerOutput_mapMix (m : Bool) (s : State) : markerOutput m (s.mapMix g) = mapMixFst g (markerOutput m s) := by
  cases m with
  | false => rfl
  | true => exact outputFrame_mapMix g (s.mapUnp dropPartial)

theorem packetSteps_mapMix (seq : BitVec 16) (ts : BitVec 32) (m : Bool) (p : Bytes) (s : State) :
    packetSteps seq ts m p (s.mapMix g) = mapMixFst g (packetSteps seq ts m p s) := by
  have marked := markerOutput_mapMix g m ((tsFlush ts s).1.mapUnp fun u => dispatchPayload s.cfg p (u.noteHeader seq ts))
  rw [packetSteps_eq, packetSteps_eq, tsFlush_mapMix]
  exact congrArg (fun r => (r.1, (tsFlush ts s).2 ||| r.2)) marked

end

/-! ### The commands of one unit beside a change of the other (60_exceptions.md R315) -/

/-- Both runs complete, the second in `e` of the state the first completes in. -/
def Tracks (e : State → State) (o o' : Outcome) : Prop := ∃ t, o = .next t ∧ o' = .next (e t)

theorem Tracks.ite {e : State → State} {c : Prop} [Decidable c] {x x' y y' : Outcome} (hx : Tracks e x x')
    (hy : Tracks e y y') : Tracks e (if c then x else y) (if c then x' else y') := by
  split
  · exact hx
  · exact hy

/-- A command of the reassembler does the same whatever the summer. -/
theorem exec_mapMix {i : Instr} (hi : unitOf i = .unp) (g : Mix → Mix) (s : State) :
    Tracks (State.mapMix g) (exec i s) (exec i (s.mapMix g)) := by
  have rejected (code : RespCode) : Tracks (State.mapMix g) (raise code s) (raise code (s.mapMix g)) := ⟨_, rfl, rfl⟩
  have injected (k : PsKind) (p : Bytes) : Tracks (State.mapMix g) (injectPs k p s) (injectPs k p (s.mapMix g)) :=
    .ite (rejected _) ⟨_, rfl, rfl⟩
  cases i with
  | unpPacket seq ts m p =>
    refine .ite (rejected _) ⟨_, rfl, ?_⟩
    rw [packetSteps_mapMix]
    rfl
  | unpSetSps p => exact injected .sps p
  | unpSetPps p => exact injected .pps p
  | unpReset => exact ⟨_, rfl, rfl⟩
  | unpPop =>
    show Tracks _ (execUnpPop s) (execUnpPop (s.mapMix g))
    rw [execUnpPop, execUnpPop, State.mapMix_unp]
    split
    · exact rejected _
    · exact ⟨_, rfl, rfl⟩
  | _ => cases hi

/-- A command of the summer does the same whatever the reassembler. -/
theorem exec_mapUnp {i : Instr} (hi : unitOf i = .mix) (f : Unp → Unp) (s : State) :
    Tracks (State.mapUnp f) (exec i s) (exec i (s.mapUnp f)) := by
  have rejected (code : RespCode) : Tracks (State.mapUnp f) (raise code s) (raise code (s.mapUnp f)) := ⟨_, rfl, rfl⟩
  cases i with
  | mixPreprocess => exact .ite (rejected _) ⟨_, rfl, rfl⟩
  | mixTick now =>
    refine .ite (rejected _) (.ite (rejected _) ⟨_, rfl, ?_⟩)
    rw [tickSteps_mapUnp]
    rfl
  | mixPostprocess => exact .ite (rejected _) ⟨_, rfl, rfl⟩
  | mixSetRate r => exact .ite (rejected _) ⟨_, rfl, rfl⟩
  | mixGetRate => exact ⟨_, rfl, rfl⟩
  | mixSetNch n => exact .ite (rejected _) ⟨_, rfl, rfl⟩
  | mixGetNch => exact ⟨_, rfl, rfl⟩
  | mixSetConf en => exact ⟨_, rfl, rfl⟩
  | mixSetActive port en => exact .ite ⟨_, rfl, rfl⟩ (rejected _)
  | mixSetOutput port en => exact .ite ⟨_, rfl, rfl⟩ (rejected _)
  | mixSetMaster port => exact .ite ⟨_, rfl, rfl⟩ (rejected _)
  | mixPush port d => exact .ite (.ite ⟨_, rfl, rfl⟩ (rejected _)) (rejected _)
  | mixPop port =>
    refine .ite ?_ (rejected _)
    rw [State.port_mapUnp]
    split
    · exact rejected _
    · exact ⟨_, rfl, rfl⟩
  | _ => cases hi

/-- Settles O12: neither unit's commands touch the other unit, nor see a change of it. -/
theorem unitsDoNotSeeEachOther : Obligations.UnitsDoNotSeeEachOther := by
  unfold Obligations.UnitsDoNotSeeEachOther
  refine ⟨fun i s m hi => ?_, fun i s u hi => ?_⟩
  · obtain ⟨t, r, work, ho⟩ := exec_work_of_not_mix (by rw [hi]; decide) s
    obtain ⟨t', ho', hsame⟩ := exec_mapMix hi (fun _ => m) s
    obtain rfl : t.respond r = t' := Host.Outcome.next.inj (ho.symm.trans ho')
    exact ⟨_, ho, work.mix, hsame⟩
  · obtain ⟨t, r, work, ho⟩ := exec_work_of_mix hi s
    obtain ⟨t', ho', hsame⟩ := exec_mapUnp hi (fun _ => u) s
    obtain rfl : t.respond r = t' := Host.Outcome.next.inj (ho.symm.trans ho')
    exact ⟨_, ho, work.unp, hsame⟩

end Sys2Proof.Machine
